-- ==== Sys2Proof/Word.lean ====
section
/-! DEFINITION. The word types of the block: host words, bytes and colour keys (R13, R16). -/

namespace Sys2Proof

/-- A host word: every host access carries 32 bits (R8, R62). -/
abbrev Word := BitVec 32

/-- A byte of a buffer or of an emitted record (R13, R14). -/
abbrev Byte := BitVec 8

/-- A colour as its 24-bit key, R in bits 23:16, G in 15:8, B in 7:0 (R16). -/
abbrev Key := BitVec 24

end Sys2Proof
end

