-- ==== Sys2Proof/Syntax.lean ====
section
/-! DEFINITION. The commands of the block: one constructor per row of spec/opcode_table.json (R85). -/

namespace Sys2Proof

/-- The commands of R85. No command word has an operand field (R80); operands are in registers (R87). -/
inductive Instr where
  | nop
  | softReset
  | gridClear
  | pixGet
  | pixSet
  | paletteEncode
  | frameBuild
  | msgRaw
  | msgBrightness
  | msgStaticImage
  | animBegin
  | animAddFrame
  | animEnd
  | animNextChunk
  deriving DecidableEq, Repr

end Sys2Proof
end

