-- ==== Sys2Proof/WellFormed.lean ====
section
/-! DEFINITION. What a well-formed command word and a well-formed host access are (R62, R80, R84, R89). -/

namespace Sys2Proof

/-- No command carries an operand field (R80), so no `Instr` can be ill-formed: what can be is its word, checked below. -/
def Instr.wellFormed (_ : Instr) : Bool := true

/-- `CMD[31:8]` is 0 (R80). -/
def reservedClear (w : Word) : Bool := w.extractLsb' 8 24 == 0

/-- `CMD[7:0]` is not in one of the unassigned ranges 0x05-0x0F, 0x12-0x1F, 0x23-0x2F, 0x34-0xFF (R89). -/
def opcodeAssigned (w : Word) : Bool :=
  let o := (w.extractLsb' 0 8).toNat
  !((0x05 ≤ o && o ≤ 0x0F) || (0x12 ≤ o && o ≤ 0x1F) || (0x23 ≤ o && o ≤ 0x2F) || 0x34 ≤ o)

/-- The words that select a command (R84). -/
def commandWordWellFormed (w : Word) : Bool := reservedClear w && opcodeAssigned w

/-- The host accesses the spec gives a step: 32 bits wide, at a multiple of 4 (R62). -/
def accessWellFormed (bits : Nat) (offset : BitVec 16) : Bool := bits == 32 && offset.toNat % 4 == 0

end Sys2Proof
end

