-- ==== Sys2Proof/Decode.lean ====
section
/-! DEFINITION. Decoding a command word and encoding a command (R80, R84, R85, R89). -/

namespace Sys2Proof

/-- Why a word selects no command (R84, R89). -/
inductive DecodeError where
  /-- `CMD[31:8]` is not 0. -/
  | reservedBits
  /-- `CMD[7:0]` is no opcode of R85. -/
  | unassignedOpcode
  deriving DecidableEq, Repr

/-- `CMD.OPCODE`, bits 7:0 (R80). -/
def opcodeField (w : Word) : Byte := w.extractLsb' 0 8

/-- `RSV`, bits 31:8 (R80). -/
def reservedField (w : Word) : BitVec 24 := w.extractLsb' 8 24

/-- The opcode map, row by row (R85): decode is a full 8-bit match. -/
def opcodeMap : List (Byte × Instr) :=
  [ (0x00, .nop), (0x01, .softReset), (0x02, .gridClear), (0x03, .pixGet), (0x04, .pixSet),
    (0x10, .paletteEncode), (0x11, .frameBuild),
    (0x20, .msgRaw), (0x21, .msgBrightness), (0x22, .msgStaticImage),
    (0x30, .animBegin), (0x31, .animAddFrame), (0x32, .animEnd), (0x33, .animNextChunk) ]

/-- Decode of a command word, in the order of R84: the reserved bits, then the opcode. -/
def decodeWord (w : Word) : Except DecodeError Instr :=
  if reservedField w ≠ 0 then .error .reservedBits
  else match opcodeMap.lookup (opcodeField w) with
    | some i => .ok i
    | none => .error .unassignedOpcode

/-- The opcode of a command, from the per-command rules ("Encoding: `CMD = ...`"). -/
def opcode : Instr → Byte
  | .nop => 0x00
  | .softReset => 0x01
  | .gridClear => 0x02
  | .pixGet => 0x03
  | .pixSet => 0x04
  | .paletteEncode => 0x10
  | .frameBuild => 0x11
  | .msgRaw => 0x20
  | .msgBrightness => 0x21
  | .msgStaticImage => 0x22
  | .animBegin => 0x30
  | .animAddFrame => 0x31
  | .animEnd => 0x32
  | .animNextChunk => 0x33

/-- The command word of a command: its opcode, zero-extended (R96, R97). -/
def encode (i : Instr) : Word := (opcode i).setWidth 32

/-- The command read from a table word: `CMD` is one 32-bit word, so the low `nbits` bits of `w` are the word and
every bit above them is 0. -/
def decodeTableWord (nbits w : Nat) : Option Instr :=
  let v := w % 2 ^ nbits
  if v < 2 ^ 32 then
    match decodeWord (BitVec.ofNat 32 v) with
    | .ok i => some i
    | .error _ => none
  else none

end Sys2Proof
end

