-- ==== Sys2Proof/Config.lean ====
section
/-! DEFINITION. What an implementation fixes (R9) and the free values the spec leaves open (93_implementation_defined.md items 5, 8, 9). -/

namespace Sys2Proof

/-- The open parameter of R9 that a rule depends on. It is plain data carried by the state, never written by a step,
so a statement about every state is a statement about every value of it (log entry 8). -/
structure Config where
  /-- `ANIM_CAP`, the capacity in bytes of the animation buffer (R9, R46). -/
  animCap : Nat
  deriving DecidableEq, Repr

/-- The default of R9: `ANIM_CAP = 51200`. -/
def Config.standard : Config := ⟨51200⟩

/-- The values R9 allows: `CHUNK_SLICE <= ANIM_CAP <= 51200`. -/
abbrev Config.Legal (c : Config) : Prop := 200 ≤ c.animCap ∧ c.animCap ≤ 51200

/-- `BASE`, the host bus address of offset 0 (R9, R65). No rule depends on it: the block decodes offsets (log entry 9). -/
opaque Config.base : Nat

/-- The bus address at which the platform places an offset of the block (R22, R65). -/
def Config.busAddress (offset : BitVec 16) : Nat := Config.base + offset.toNat

/-- The internal memories of the block (R40-R46). -/
inductive Bank where
  | pix | pal | idx | frame | out | input | anim
  deriving DecidableEq, Repr

/-- FREE VALUE: what a cell of a memory without a reset value holds from the `n`-th hardware reset until it is written
(R55; items 8 and 9). Nothing is known of it. -/
opaque Config.powerOn (b : Bank) (n : Nat) (address : Nat) : BitVec 24

/-- FREE VALUE: what the `n`-th host read of an offset other than `STATUS` returns while `STATUS.BUSY = 1` (R311; item 5).
Nothing is known of it. -/
opaque Config.busyRead (n : Nat) : Word

end Sys2Proof
end

