-- ==== Sys2Proof/Machine/State.lean ====
section
/-! DEFINITION. The state of the block, its reset value, and the reasons a step can stop. -/

namespace Sys2Proof.Machine

/-- A memory as (address, value) pairs, addresses strictly rising; `Mem 8` is a list of `Host.Cell`. -/
abbrev Mem (w : Nat) := List (Nat × BitVec w)

/-- `STATUS.ANIM_STATE`, the animation session state (R30). -/
inductive AnimState where
  /-- No session. -/
  | idle
  /-- Frames are being appended. -/
  | collect
  /-- Chunks are being produced. -/
  | emit
  deriving DecidableEq, Repr

/-- The errors a command can raise (R270). Each is an ordinary completion (R285), not a fault of the machine. -/
inductive CmdError where
  | outOfBounds | outOfRange | paletteTooLarge | illegalCommand | sequence | fieldOverflow | capacity
  deriving DecidableEq, Repr

/-- What a host access does at its offset. -/
inductive AccessKind where
  | read
  | write (value : Word)
  deriving DecidableEq, Repr

/-- A host access as the host port presents it: its width in bits, its byte offset from `BASE`, and its kind (R11, R62). -/
structure Access where
  bits : Nat
  offset : BitVec 16
  kind : AccessKind
  deriving DecidableEq, Repr

/-- One turn of the machine: which of the three kinds of step of R11 comes next (log entry 1). -/
inductive Turn where
  /-- The host issues an access (R11). -/
  | host (a : Access)
  /-- The engine may take its step (R83). -/
  | engine
  /-- The reset input is driven to a level: `true` is asserted (R300). -/
  | reset (asserted : Bool)
  deriving DecidableEq, Repr

/-- Everything the spec gives the block (R20-R55, R300), then the model's own fields. -/
structure State where
  /-- `CTRL.PAL_CAP_SEL` (R24). -/
  palCapSel : Bool
  /-- `STATUS.BUSY` (R26). -/
  busy : Bool
  /-- `STATUS.DONE` (R27). -/
  done : Bool
  /-- `STATUS.ERR` (R28). -/
  err : Bool
  /-- `STATUS.OVERRUN` (R29). -/
  overrun : Bool
  /-- `STATUS.ANIM_STATE` (R30). -/
  animState : AnimState
  /-- `ARG` (R33). -/
  arg : BitVec 16
  /-- `ERR_CODE` (R34). -/
  errCode : BitVec 4
  /-- `ERR_INFO` (R35). -/
  errInfo : BitVec 16
  /-- `PIX_X` (R36). -/
  pixX : BitVec 16
  /-- `PIX_Y` (R36). -/
  pixY : BitVec 16
  /-- `PIX_WDATA` (R37). -/
  pixWdata : Key
  /-- `PIX_RDATA` (R38). -/
  pixRdata : Key
  /-- `PAL_LEN` (R39). -/
  palLen : BitVec 11
  /-- `BITWIDTH` (R39). -/
  bitWidth : BitVec 4
  /-- `FRAME_LEN` (R43). -/
  frameLen : BitVec 16
  /-- `OUT_LEN` (R44). -/
  outLen : BitVec 16
  /-- `IN_LEN` (R45). -/
  inLen : BitVec 16
  /-- `ANIM_LEN` (R46). -/
  animLen : BitVec 16
  /-- `FRAME_COUNT` (R47). -/
  frameCount : BitVec 16
  /-- `PERIOD` (R48). -/
  period : BitVec 16
  /-- `CHUNK_COUNT` (R49). -/
  chunkCount : BitVec 9
  /-- `CHUNK_IDX` (R49). -/
  chunkIdx : BitVec 9
  /-- `PIXMEM`, 1024 cells (R40). -/
  pixmem : Mem 24
  /-- `PALMEM`, 1024 entries (R41). -/
  palmem : Mem 24
  /-- `IDXMEM`, 1024 entries (R42). -/
  idxmem : Mem 10
  /-- `FRAMEBUF`, 8192 bytes (R43). -/
  framebuf : Mem 8
  /-- `OUT`, 8192 bytes (R44). -/
  out : Mem 8
  /-- `IN`, 4096 bytes (R45). -/
  inbuf : Mem 8
  /-- `ALLFRAMES`, `ANIM_CAP` bytes (R46). -/
  allframes : Mem 8
  /-- The pending command word (R52). -/
  pending : Option Word
  /-- The reset input is asserted (R300). -/
  rst : Bool
  /-- The open parameter `ANIM_CAP` (R9); no step writes it. -/
  config : Config
  /-- MODEL's own: the turns to come; none left gives every turn to the engine (log entry 1). -/
  turns : List Turn
  /-- MODEL's own: the word the most recent host read returned (log entry 4). -/
  rdata : Word
  /-- MODEL's own: how many hardware resets the memories have been through (log entry 6). -/
  powerOns : Nat
  /-- MODEL's own: how many free values reads while busy have drawn (log entry 5). -/
  draws : Nat
  deriving DecidableEq, Repr

/-- The block never stops with a fault: every error of R270 is an ordinary completion and no state is stuck (R285).
So there is no constructor. -/
inductive Fault where
  deriving DecidableEq, Repr

/-- Why a step has no meaning. -/
inductive Refusal where
  /-- Raised by an arm of `exec` for a command without a meaning yet; safe. No arm raises it now. -/
  | notModelled (mnemonic : String)
  /-- Raised by a host access whose width is not 32 bits, which a model refuses (R62); safe. -/
  | accessWidth
  /-- Raised by a 32-bit host access at an offset that is no multiple of 4, which a model refuses (R62); safe. -/
  | accessAlignment
  /-- Raised by a host access while `rst` is asserted, to which a model gives no step (R300); safe. -/
  | accessInReset
  deriving DecidableEq, Repr

/-- The machine right after hardware reset (R22, R55, R301): every register 0, the grid black, nothing pending. The memories
without a reset value list nothing, so each of their cells is a free value. -/
def State.reset : State where
  palCapSel := false
  busy := false
  done := false
  err := false
  overrun := false
  animState := .idle
  arg := 0
  errCode := 0
  errInfo := 0
  pixX := 0
  pixY := 0
  pixWdata := 0
  pixRdata := 0
  palLen := 0
  bitWidth := 0
  frameLen := 0
  outLen := 0
  inLen := 0
  animLen := 0
  frameCount := 0
  period := 0
  chunkCount := 0
  chunkIdx := 0
  pixmem := []
  palmem := []
  idxmem := []
  framebuf := []
  out := []
  inbuf := []
  allframes := []
  pending := none
  rst := false
  config := Config.standard
  turns := []
  rdata := 0
  powerOns := 0
  draws := 0

end Sys2Proof.Machine
end

