-- ==== Sys2Proof/Machine/Flags.lean ====
section
/-! DEFINITION. Codes, the status word and the command classes (R26-R31, R86, R270). -/

namespace Sys2Proof.Machine

/-- The value of `ERR_CODE` for an error (R270). Codes 8-15 are never produced. -/
def CmdError.code : CmdError → BitVec 4
  | .outOfBounds => 1
  | .outOfRange => 2
  | .paletteTooLarge => 3
  | .illegalCommand => 4
  | .sequence => 5
  | .fieldOverflow => 6
  | .capacity => 7

/-- The value of `STATUS.ANIM_STATE` (R30). The value 3 is never produced. -/
def AnimState.code : AnimState → BitVec 2
  | .idle => 0
  | .collect => 1
  | .emit => 2

/-- A flag as a bit of a 32-bit word. -/
def flagBit (b : Bool) (position : Nat) : Word := (BitVec.ofBool b).setWidth 32 <<< position

/-- The word a read of `STATUS` returns (R22, R26-R31): the reserved bits 31:6 read 0. -/
def statusWord (s : State) : Word :=
  flagBit s.busy 0 ||| flagBit s.done 1 ||| flagBit s.err 2 ||| flagBit s.overrun 3 |||
    s.animState.code.setWidth 32 <<< 4

/-- Message commands (R86). -/
def isMessage : Instr → Bool
  | .msgRaw | .msgBrightness | .msgStaticImage | .animNextChunk => true
  | _ => false

/-- Palette commands (R86). -/
def isPalette : Instr → Bool
  | .paletteEncode | .frameBuild | .msgStaticImage | .animAddFrame => true
  | _ => false

/-- Frame-building commands (R86). -/
def isFrameBuilding : Instr → Bool
  | .frameBuild | .msgStaticImage | .animAddFrame => true
  | _ => false

/-- Session commands (R86). -/
def isSession : Instr → Bool
  | .animBegin | .animAddFrame | .animEnd | .animNextChunk => true
  | _ => false

/-- R276 (a): the failed command's message is dropped. A word that is no command (`none`) is of no class. -/
def dropsMessage (c : Option Instr) : Bool := c.any isMessage

/-- R276 (b): the failed command's palette is dropped. -/
def dropsPalette (c : Option Instr) (e : CmdError) : Bool :=
  (c.any isPalette && e == .paletteTooLarge) || (c == some .animAddFrame && e == .capacity)

/-- R276 (b): the failed command's frame is dropped as well. -/
def dropsFrame (c : Option Instr) (e : CmdError) : Bool := dropsPalette c e && c.any isFrameBuilding

/-- R276 (c): the failed command aborts the session. -/
def abortsSession (c : Option Instr) (e : CmdError) : Bool := c == some .animAddFrame && e != .sequence

end Sys2Proof.Machine
end

