-- ==== Sys2Proof/Machine/Ops.lean ====
section
/-! DEFINITION. Named operations over the memories and registers: reading and writing a memory, byte order, acceptance, the two
completions (success, and failure, which is this block's form of an exception), and hardware reset. -/

namespace Sys2Proof.Machine

/-! ### Numbers and byte sequences (R14) -/

/-- `ceil_div(a, b)` (R14). -/
def ceilDiv (a b : Nat) : Nat := (a + b - 1) / b

/-- `lo(v) = v[7:0]` (R14). -/
def lo (v : BitVec 16) : Byte := v.extractLsb' 0 8

/-- `hi(v) = v[15:8]` (R14). -/
def hi (v : BitVec 16) : Byte := v.extractLsb' 8 8

/-- `u16le(v)`: the two bytes of a 16-bit value, low byte first (R14, R60). -/
def u16le (v : BitVec 16) : List Byte := [lo v, hi v]

/-- The bytes of a colour as it leaves the block: R, G, B (R60, R88). -/
def rgb (k : Key) : List Byte := [k.extractLsb' 16 8, k.extractLsb' 8 8, k.extractLsb' 0 8]

/-! ### Memories -/

/-- The listed value at an address. -/
def lookupCell {w : Nat} : Mem w → Nat → Option (BitVec w)
  | [], _ => none
  | (b, v) :: m, a => if b = a then some v else lookupCell m a

/-- The cells of a block of values from `base` on. -/
def blockCells {w : Nat} (base : Nat) : List (BitVec w) → Mem w
  | [] => []
  | v :: vs => (base, v) :: blockCells (base + 1) vs

/-- Replace the cells of `len` addresses from `base` on by `cells`, keeping all others. -/
def spliceCells {w : Nat} (base len : Nat) (cells m : Mem w) : Mem w :=
  m.filter (fun c => c.1 < base) ++ cells ++ m.filter (fun c => base + len ≤ c.1)

/-- `M[base .. base + len(vs)) <- vs`, for a memory whose unlisted cells are free values: every written cell is listed. -/
def storeBlock {w : Nat} (base : Nat) (vs : List (BitVec w)) (m : Mem w) : Mem w :=
  spliceCells base vs.length (blockCells base vs) m

/-- `PIXMEM[t] <- k`: black is what an unlisted cell reads as, so writing it unlists the cell. -/
def storePixel (t : Nat) (k : Key) (m : Mem 24) : Mem 24 :=
  spliceCells t 1 (if k = 0#24 then [] else [(t, k)]) m

/-- The canonical form of a memory of `size` cells: addresses strictly rising and below `size`. -/
abbrev Mem.Wf {w : Nat} (size : Nat) (m : Mem w) : Prop :=
  m.Pairwise (fun a b => a.1 < b.1) ∧ ∀ c ∈ m, c.1 < size

/-- The canonical form of every memory of the block. Only `PIXMEM` has a known unlisted value, black, and lists none;
an unlisted cell of any other memory is a free value, so no written value is known to be it (log entry 7). -/
abbrev Memory.wf (s : State) : Prop :=
  (Mem.Wf 1024 s.pixmem ∧ ∀ c ∈ s.pixmem, c.2 ≠ 0#24) ∧ Mem.Wf 1024 s.palmem ∧ Mem.Wf 1024 s.idxmem ∧
    Mem.Wf 8192 s.framebuf ∧ Mem.Wf 8192 s.out ∧ Mem.Wf 4096 s.inbuf ∧ Mem.Wf s.config.animCap s.allframes

/-- What an unlisted cell reads as: black in `PIXMEM` (R40), a free value fixed since the last hardware reset elsewhere
(R55; 93_implementation_defined.md items 8 and 9; log entry 6). -/
def unlisted (s : State) (b : Bank) (a : Nat) : BitVec 24 :=
  match b with
  | .pix => 0#24
  | .pal | .idx | .frame | .out | .input | .anim => Config.powerOn b s.powerOns a

/-- One cell of a memory of the block. -/
def readCell {w : Nat} (s : State) (b : Bank) (m : Mem w) (a : Nat) : BitVec w :=
  (lookupCell m a).getD ((unlisted s b a).setWidth w)

/-- `PIXMEM[t]` (R40). -/
def pixel (s : State) (t : Nat) : Key := readCell s .pix s.pixmem t

/-- `PALMEM[i]` (R41). -/
def palEntry (s : State) (i : Nat) : Key := readCell s .pal s.palmem i

/-- `IDXMEM[t]` (R42). -/
def idxEntry (s : State) (t : Nat) : BitVec 10 := readCell s .idx s.idxmem t

/-- `FRAMEBUF[j]` (R43). -/
def frameByte (s : State) (j : Nat) : Byte := readCell s .frame s.framebuf j

/-- `OUT[j]` (R44). -/
def outByte (s : State) (j : Nat) : Byte := readCell s .out s.out j

/-- `IN[j]` (R45). -/
def inByte (s : State) (j : Nat) : Byte := readCell s .input s.inbuf j

/-- `ALLFRAMES[j]` (R46). -/
def animByte (s : State) (j : Nat) : Byte := readCell s .anim s.allframes j

/-- `OUT[0..len(m)) <- m; OUT_LEN <- len(m)` (R193, R217, R240, R241). The bytes beyond keep what they held (DESIGN CHOICE, log entry 22). -/
def storeOut (m : List Byte) (s : State) : State :=
  { s with out := storeBlock 0 m s.out, outLen := BitVec.ofNat 16 m.length }

/-- `FRAMEBUF[0..len(f)) <- f; FRAME_LEN <- len(f)` (R173, R213, R241). The bytes beyond keep what they held (DESIGN CHOICE, log entry 22). -/
def storeFrame (f : List Byte) (s : State) : State :=
  { s with framebuf := storeBlock 0 f s.framebuf, frameLen := BitVec.ofNat 16 f.length }

/-! ### The life of a command -/

/-- Acceptance of a command word (R82). It is also what clears an error: there is no return from one (R277). -/
def accept (w : Word) (s : State) : State :=
  { s with pending := some w, busy := true, done := false, err := false, errCode := 0, errInfo := 0 }

/-- Successful completion (R83). -/
def complete (s : State) : State :=
  { s with done := true, busy := false, pending := none }

/-- Failed completion: THE one operation that takes an error. The status part is R275, the result part R276 (a)-(c), and what neither
names keeps its value (R276 (d)). `c` is the failed command, `none` for a word that is no command (R84). -/
def failCommand (c : Option Instr) (e : CmdError) (info : BitVec 16) (s : State) : State :=
  { s with
    err := true
    done := false
    errCode := e.code
    errInfo := info
    outLen := if dropsMessage c then 0 else s.outLen
    palLen := if dropsPalette c e then 0 else s.palLen
    bitWidth := if dropsPalette c e then 0 else s.bitWidth
    frameLen := if dropsFrame c e then 0 else s.frameLen
    animState := if abortsSession c e then .idle else s.animState
    animLen := if abortsSession c e then 0 else s.animLen
    frameCount := if abortsSession c e then 0 else s.frameCount
    chunkCount := if abortsSession c e then 0 else s.chunkCount
    chunkIdx := if abortsSession c e then 0 else s.chunkIdx
    busy := false
    pending := none }

/-! ### Hardware reset -/

/-- The reset state of R55, reached from `s`: the configuration and the host's side (turns to come, last word read, free values drawn)
are not the block's to reset, and the memories without a reset value hold fresh unspecified contents. -/
def resetBlock (asserted : Bool) (s : State) : State :=
  { State.reset with
    rst := asserted
    config := s.config
    turns := s.turns
    rdata := s.rdata
    powerOns := s.powerOns + 1
    draws := s.draws }

/-- The reset input at a level (R300, R302). Driving an idle input low again changes nothing (log entry 10). -/
def driveReset (asserted : Bool) (s : State) : State :=
  if asserted || s.rst then resetBlock asserted s else s

end Sys2Proof.Machine
end

