-- ==== Sys2Proof/Machine/Operands.lean ====
section
/-! DEFINITION. The operands each command reads at its execution step, all unsigned and as they stand (R87, R88). -/

namespace Sys2Proof.Machine

/-- `x = PIX_X[15:0]` (R88). -/
def operandX (s : State) : Nat := s.pixX.toNat

/-- `y = PIX_Y[15:0]` (R88). -/
def operandY (s : State) : Nat := s.pixY.toNat

/-- In bounds exactly when `x < 32` and `y < 32`, no bits dropped before the check (R110). -/
def inBounds (s : State) : Bool := operandX s < 32 && operandY s < 32

/-- The linear index of column `x`, row `y` (R110). -/
def cellIndex (x y : Nat) : Nat := y * 32 + x

/-- The addressed cell (R110). -/
def operandCell (s : State) : Nat := cellIndex (operandX s) (operandY s)

/-- `c = PIX_WDATA[23:0]` (R88). -/
def operandColour (s : State) : Key := s.pixWdata

/-- `a = ARG[15:0]` (R88). -/
def operandArg (s : State) : BitVec 16 := s.arg

/-- `n = IN_LEN[15:0]` (R88). -/
def operandCount (s : State) : Nat := s.inLen.toNat

/-- `IN[0..n)` (R193). -/
def operandPayload (s : State) : List Byte := (List.range (operandCount s)).map (inByte s)

/-- The palette cap `capsel` selects (R24, R132). -/
def paletteCap (s : State) : Nat := if s.palCapSel then 256 else 1024

/-- The keys of `PIXMEM[0..1024)` in row-major order (R40, R133). -/
def gridKeys (s : State) : List Key := (List.range 1024).map (pixel s)

end Sys2Proof.Machine
end

