-- ==== Sys2Proof/Machine/BitPacker.lean ====
section
/-! DEFINITION. The variable-width bit packer and its inverse (R150-R158). -/

namespace Sys2Proof.Machine

/-- The inner loop of R150 with the 16-bit accumulator of R51: while 8 bits are held, emit the low byte. It gives the bytes emitted, the
accumulator and the held-bit count; `held` iterations always suffice. -/
def drain : Nat → BitVec 16 → Nat → List Byte × BitVec 16 × Nat
  | 0, acc, held => ([], acc, held)
  | fuel + 1, acc, held =>
    if 8 ≤ held then
      let rest := drain fuel (acc >>> 8) (held - 8)
      (lo acc :: rest.1, rest.2)
    else ([], acc, held)

/-- The outer loop of R150 from a symbol on: mask to `bw` bits, OR above the held bits, drain; at the end one byte of what is held. -/
def packFrom (bw : Nat) : List Nat → BitVec 16 → Nat → List Byte
  | [], acc, held => if 0 < held then [lo acc] else []
  | v :: vs, acc, held =>
    let acc' := acc ||| (BitVec.ofNat 16 (v % 2 ^ bw) <<< held)
    let d := drain (held + bw) acc' (held + bw)
    d.1 ++ packFrom bw vs d.2.1 d.2.2

/-- `pack(seq, bw, n)` with `n` the length of `seq` (R150). -/
def pack (seq : List Nat) (bw : Nat) : List Byte := packFrom bw seq 0 0

/-- Bit `s` of the stream of the closed form (R151): bit `s mod bw` of symbol `s div bw`, and 0 past the last symbol. -/
def streamBit (seq : List Nat) (bw s : Nat) : Bool :=
  match seq[s / bw]? with
  | some v => (v % 2 ^ bw).testBit (s % bw)
  | none => false

/-- Bit `s` of a byte sequence, least significant first within each byte (R63, R155). -/
def byteStreamBit (bytes : List Byte) (s : Nat) : Bool := (bytes.getD (s / 8) 0).getLsbD (s % 8)

/-- One symbol of `unpack`: its `bw` bits from stream bit `at` on, the first lowest (R155). -/
def unpackSymbol (bytes : List Byte) (start : Nat) : Nat → Nat
  | 0 => 0
  | b + 1 => unpackSymbol bytes start b ||| ((byteStreamBit bytes (start + b)).toNat <<< b)

/-- `unpack(bytes, bw, n)` (R155). No command runs it (R157). -/
def unpack (bytes : List Byte) (bw n : Nat) : List Nat :=
  (List.range n).map (fun t => unpackSymbol bytes (t * bw) bw)

end Sys2Proof.Machine
end

