-- ==== Sys2Proof/Machine/PaletteEncoder.lean ====
section
/-! DEFINITION. Palette encoder: bit width, the palette stage and PALETTE_ENCODE (R130-R137). -/

namespace Sys2Proof.Machine

/-- The least `b` from `b` on with `2^b >= p`, found within `fuel` tries. -/
def leastWidth (p : Nat) : Nat → Nat → Nat
  | 0, b => b
  | fuel + 1, b => if p ≤ 2 ^ b then b else leastWidth p fuel (b + 1)

/-- `bw(P)`: the least `b >= 1` with `2^b >= P` (R131). `2^P >= P`, so `P` tries suffice. -/
def bw (p : Nat) : Nat := leastWidth p p 1

/-- What the palette stage produces (R130): the palette in first-occurrence order and one index per cell. -/
structure Encoded where
  palette : List Key
  indices : List Nat
  deriving DecidableEq, Repr

/-- The traversal of R133 from a cell on, with the colour map so far (R50) and the next unused index `p`: a colour on its first
sighting is appended to the palette and gets index `p`; every sighting appends the resolved index. -/
def paletteScan : List Key → List (Key × Nat) → Nat → Encoded
  | [], _, _ => ⟨[], []⟩
  | k :: ks, map, p =>
    match map.lookup k with
    | some i =>
      let rest := paletteScan ks map p
      ⟨rest.palette, i :: rest.indices⟩
    | none =>
      let rest := paletteScan ks ((k, p) :: map) (p + 1)
      ⟨k :: rest.palette, p :: rest.indices⟩

/-- The palette and the index sequence of a grid given as its cells in row-major order: the map starts empty (R133).
Irreducible only so that elaboration does not evaluate it on a whole grid. -/
@[irreducible] def encodeGrid (cells : List Key) : Encoded := paletteScan cells [] 0

/-- The writes of a successful palette stage: `PALMEM`, `IDXMEM`, `PAL_LEN`, `BITWIDTH` (R133, R39). The entries of `PALMEM` at or above the new
`PAL_LEN`, which R41 leaves open and no read shows, keep what they held (DESIGN CHOICE, log entry 22). -/
def storePalette (r : Encoded) (s : State) : State :=
  { s with
    palmem := storeBlock 0 r.palette s.palmem
    idxmem := storeBlock 0 (r.indices.map (BitVec.ofNat 10)) s.idxmem
    palLen := BitVec.ofNat 11 r.palette.length
    bitWidth := BitVec.ofNat 4 (bw r.palette.length) }

/-- The palette stage up to its cap check (R133, R134): the encoded grid, or the full count of distinct colours when it exceeds the
cap. The caller stores the result; a failed stage stores nothing (log entry 11). -/
def paletteStage (s : State) : Except Nat Encoded :=
  let r := encodeGrid (gridKeys s)
  if paletteCap s < r.palette.length then .error r.palette.length else .ok r

/-- `raise PALETTE_TOO_LARGE(P)` of a palette command (R133, R270). -/
def failPalette (c : Instr) (p : Nat) (s : State) : State :=
  failCommand (some c) .paletteTooLarge (BitVec.ofNat 16 p) s

/-- `PALETTE_ENCODE` (R136). -/
def execPaletteEncode (s : State) : Host.Outcome State Fault Refusal :=
  match paletteStage s with
  | .error p => .next (failPalette .paletteEncode p s)
  | .ok r => .next (complete (storePalette r s))

end Sys2Proof.Machine
end

