-- ==== Sys2Proof/Machine/FrameBuilder.lean ====
section
/-! DEFINITION. The display frame formatter and FRAME_BUILD (R91, R170-R175). -/

namespace Sys2Proof.Machine

/-- `frameSize = 8 + 3*P + 128*bw(P)` (R171). -/
def frameSize (p : Nat) : Nat := 8 + 3 * p + 128 * bw p

/-- The frame record of an encoded grid for a time code (R170, R91): it is made of what the palette stage has just produced
(R157; log entry 14). -/
def frameRecord (tc : BitVec 16) (r : Encoded) : List Byte :=
  [0xAA] ++ u16le (BitVec.ofNat 16 (frameSize r.palette.length)) ++ u16le tc ++ [0x03] ++
    u16le (BitVec.ofNat 16 r.palette.length) ++ r.palette.flatMap rgb ++
    pack r.indices (bw r.palette.length)

/-- `build_frame(tc)` (R170): the palette stage, which may raise with the distinct-colour count, then the record. -/
def buildFrame (tc : BitVec 16) (s : State) : Except Nat (Encoded × List Byte) :=
  match paletteStage s with
  | .error p => .error p
  | .ok r => .ok (r, frameRecord tc r)

/-- The writes of a frame that was built: the palette stage's, then `FRAMEBUF` and `FRAME_LEN` (R170, R173). -/
def storeBuilt (r : Encoded) (f : List Byte) (s : State) : State := storeFrame f (storePalette r s)

/-- `FRAME_BUILD` (R173): the time code is `ARG[15:0]` (R172). -/
def execFrameBuild (s : State) : Host.Outcome State Fault Refusal :=
  match buildFrame (operandArg s) s with
  | .error p => .next (failPalette .frameBuild p s)
  | .ok (r, f) => .next (complete (storeBuilt r f s))

end Sys2Proof.Machine
end

