-- ==== Sys2Proof/Machine/MessageFramer.lean ====
section
/-! DEFINITION. The message framer, its additive checksum and MSG_RAW (R90, R190-R195). -/

namespace Sys2Proof.Machine

/-- The exact sum of the bytes of a sequence, each unsigned (R190). -/
def byteSum (p : List Byte) : Nat := (p.map (fun b => b.toNat)).sum

/-- `checksum(L, p)`: the sum of both bytes of the length field and every payload byte, modulo 65536 (R190, R194). -/
def checksum (l : BitVec 16) (p : List Byte) : BitVec 16 :=
  BitVec.ofNat 16 ((lo l).toNat + (hi l).toNat + byteSum p)

/-- The length field of a payload: `len(p) + 2` (R191). -/
def lengthField (p : List Byte) : BitVec 16 := BitVec.ofNat 16 (p.length + 2)

/-- `message(p)` (R191, R90). -/
def message (p : List Byte) : List Byte :=
  [0x01] ++ u16le (lengthField p) ++ p ++ u16le (checksum (lengthField p) p) ++ [0x02]

/-- `MSG_RAW` (R193): at most `IN_CAP = 4096` bytes. -/
def execMsgRaw (s : State) : Host.Outcome State Fault Refusal :=
  if 4096 < operandCount s then .next (failCommand (some .msgRaw) .capacity 0 s)
  else .next (complete (storeOut (message (operandPayload s)) s))

end Sys2Proof.Machine
end

