-- ==== Sys2Proof/Machine/AnimationChunker.lean ====
section
/-! DEFINITION. The chunk sequencer: ANIM_BEGIN, ANIM_ADD_FRAME, ANIM_END, ANIM_NEXT_CHUNK (R210-R220). -/

namespace Sys2Proof.Machine

/-- A session opened or restarted: `PERIOD` latched from `ARG`, the other session registers cleared (R211). -/
def openSession (s : State) : State :=
  { s with
    period := operandArg s
    animLen := 0
    frameCount := 0
    chunkCount := 0
    chunkIdx := 0
    animState := .collect }

/-- `ANIM_BEGIN` (R211): allowed in every state. -/
def execAnimBegin (s : State) : Host.Outcome State Fault Refusal := .next (complete (openSession s))

/-- `FRAME_COUNT * PERIOD`, computed exactly (R212). -/
def frameTimeCode (s : State) : Nat := s.frameCount.toNat * s.period.toNat

/-- The writes of an appended frame: the frame's own, then `ALLFRAMES`, `ANIM_LEN` and `FRAME_COUNT` (R213). The bytes of `ALLFRAMES` beyond the
new `ANIM_LEN` keep what they held (DESIGN CHOICE, log entry 22). -/
def appendFrame (r : Encoded) (f : List Byte) (s : State) : State :=
  { storeBuilt r f s with
    allframes := storeBlock s.animLen.toNat f s.allframes
    animLen := BitVec.ofNat 16 (s.animLen.toNat + f.length)
    frameCount := s.frameCount + 1 }

/-- `ANIM_ADD_FRAME` (R213), its checks in the order of R272. -/
def execAnimAddFrame (s : State) : Host.Outcome State Fault Refusal :=
  if s.animState ≠ .collect then .next (failCommand (some .animAddFrame) .sequence 0 s)
  else if 65535 < frameTimeCode s then .next (failCommand (some .animAddFrame) .fieldOverflow 0 s)
  else
    match buildFrame (BitVec.ofNat 16 (frameTimeCode s)) s with
    | .error p => .next (failPalette .animAddFrame p s)
    | .ok (r, f) =>
      if s.config.animCap < s.animLen.toNat + f.length then .next (failCommand (some .animAddFrame) .capacity 0 s)
      else .next (complete (appendFrame r f s))

/-- `CHUNK_COUNT` as `ANIM_END` computes it: `ceil_div(ANIM_LEN, 200)` (R214). -/
def chunksOf (s : State) : Nat := ceilDiv s.animLen.toNat 200

/-- The chunk count fixed (R214): no chunk at all goes straight back to IDLE. -/
def fixChunks (s : State) : State :=
  { s with
    chunkCount := BitVec.ofNat 9 (chunksOf s)
    chunkIdx := 0
    animState := if chunksOf s = 0 then .idle else .emit }

/-- `ANIM_END` (R214). -/
def execAnimEnd (s : State) : Host.Outcome State Fault Refusal :=
  if s.animState ≠ .collect then .next (failCommand (some .animEnd) .sequence 0 s)
  else .next (complete (fixChunks s))

/-- `ALLFRAMES[i*200 .. min(ANIM_LEN, (i+1)*200))`, the end exclusive (R215). -/
def chunkSlice (s : State) (i : Nat) : List Byte :=
  (List.range' (i * 200) (min s.animLen.toNat ((i + 1) * 200) - i * 200)).map (animByte s)

/-- `chunk_payload(i)` (R215, R94). -/
def chunkPayload (s : State) (i : Nat) : List Byte :=
  [0x49] ++ u16le s.animLen ++ [BitVec.ofNat 8 i] ++ chunkSlice s i

/-- `CHUNK_IDX <- CHUNK_IDX + 1`; the last chunk ends the session (R217). -/
def advanceChunk (s : State) : State :=
  { s with
    chunkIdx := s.chunkIdx + 1
    animState := if s.chunkIdx.toNat + 1 = s.chunkCount.toNat then .idle else s.animState }

/-- `ANIM_NEXT_CHUNK` (R217). -/
def execAnimNextChunk (s : State) : Host.Outcome State Fault Refusal :=
  if s.animState ≠ .emit then .next (failCommand (some .animNextChunk) .sequence 0 s)
  else .next (complete (advanceChunk (storeOut (message (chunkPayload s s.chunkIdx.toNat)) s)))

end Sys2Proof.Machine
end

