-- ==== Sys2Proof/Machine/CommandBuilder.lean ====
section
/-! DEFINITION. Device command encoders: MSG_BRIGHTNESS and MSG_STATIC_IMAGE (R92, R93, R240, R241). -/

namespace Sys2Proof.Machine

/-- `[0x74, level]` (R92). -/
def brightnessPayload (level : BitVec 16) : List Byte := [0x74, lo level]

/-- `MSG_BRIGHTNESS` (R240): the whole 16-bit level is checked. -/
def execMsgBrightness (s : State) : Host.Outcome State Fault Refusal :=
  if 100 < (operandArg s).toNat then .next (failCommand (some .msgBrightness) .outOfRange 0 s)
  else .next (complete (storeOut (message (brightnessPayload (operandArg s))) s))

/-- `[0x44, 0x00, 0x0A, 0x0A, 0x04] ++ frame`; the four bytes after 0x44 are opaque constants (R93). -/
def staticImagePayload (f : List Byte) : List Byte := [0x44, 0x00, 0x0A, 0x0A, 0x04] ++ f

/-- `MSG_STATIC_IMAGE` (R241): the frame of time code 0, kept in `FRAMEBUF`, and its message. -/
def execMsgStaticImage (s : State) : Host.Outcome State Fault Refusal :=
  match buildFrame 0 s with
  | .error p => .next (failPalette .msgStaticImage p s)
  | .ok (r, f) => .next (complete (storeOut (message (staticImagePayload f)) (storeBuilt r f s)))

end Sys2Proof.Machine
end

