-- ==== Sys2Proof/Machine/Control.lean ====
section
/-! DEFINITION. Control commands: NOP and SOFT_RESET (R260-R262). -/

namespace Sys2Proof.Machine

/-- `NOP` (R261): nothing but the completion. -/
def execNop (s : State) : Host.Outcome State Fault Refusal := .next (complete s)

/-- The writes of `SOFT_RESET` (R262): every register of R22 but `STATUS.BUSY` to its reset value, `PIXMEM` black, and every other
memory as it stands (`IN` kept; the others become unobservable). -/
def softResetState (s : State) : State :=
  { s with
    palCapSel := false
    done := false
    err := false
    overrun := false
    animState := .idle
    arg := 0
    errCode := 0
    errInfo := 0
    pixX := 0
    pixY := 0
    pixWdata := 0
    pixRdata := 0
    palLen := 0
    bitWidth := 0
    frameLen := 0
    outLen := 0
    inLen := 0
    animLen := 0
    frameCount := 0
    period := 0
    chunkCount := 0
    chunkIdx := 0
    pixmem := [] }

/-- `SOFT_RESET` (R262). -/
def execSoftReset (s : State) : Host.Outcome State Fault Refusal := .next (complete (softResetState s))

end Sys2Proof.Machine
end

