-- ==== Sys2Proof/Machine/PixelGrid.lean ====
section
/-! DEFINITION. Pixel grid commands: GRID_CLEAR, PIX_GET, PIX_SET (R110-R113). -/

namespace Sys2Proof.Machine

/-- `PIXMEM` all black (R111): a black cell is unlisted, so the cleared grid lists nothing. -/
def clearGrid (s : State) : State := { s with pixmem := [] }

/-- `PIX_RDATA <- PIXMEM[t]` for the addressed cell (R112, R113). -/
def latchPixel (s : State) : State := { s with pixRdata := pixel s (operandCell s) }

/-- `PIXMEM[t] <- c` for the addressed cell (R113). -/
def writePixel (s : State) : State := { s with pixmem := storePixel (operandCell s) (operandColour s) s.pixmem }

/-- `GRID_CLEAR` (R111). -/
def execGridClear (s : State) : Host.Outcome State Fault Refusal := .next (complete (clearGrid s))

/-- `PIX_GET` (R112). -/
def execPixGet (s : State) : Host.Outcome State Fault Refusal :=
  if inBounds s then .next (complete (latchPixel s))
  else .next (failCommand (some .pixGet) .outOfBounds 0 s)

/-- `PIX_SET` (R113): the previous colour is read before the cell is written. -/
def execPixSet (s : State) : Host.Outcome State Fault Refusal :=
  if inBounds s then .next (complete (writePixel (latchPixel s)))
  else .next (failCommand (some .pixSet) .outOfBounds 0 s)

end Sys2Proof.Machine
end

