-- ==== Sys2Proof/Machine/Dispatch.lean ====
section
/-! DEFINITION. One arm per command: the execution and completion of R83, R84. -/

namespace Sys2Proof.Machine

def exec (i : Instr) (s : State) : Host.Outcome State Fault Refusal :=
  match i with
  | .nop => Sys2Proof.Machine.execNop s
  | .softReset => Sys2Proof.Machine.execSoftReset s
  | .gridClear => Sys2Proof.Machine.execGridClear s
  | .pixGet => Sys2Proof.Machine.execPixGet s
  | .pixSet => Sys2Proof.Machine.execPixSet s
  | .paletteEncode => Sys2Proof.Machine.execPaletteEncode s
  | .frameBuild => Sys2Proof.Machine.execFrameBuild s
  | .msgRaw => Sys2Proof.Machine.execMsgRaw s
  | .msgBrightness => Sys2Proof.Machine.execMsgBrightness s
  | .msgStaticImage => Sys2Proof.Machine.execMsgStaticImage s
  | .animBegin => Sys2Proof.Machine.execAnimBegin s
  | .animAddFrame => Sys2Proof.Machine.execAnimAddFrame s
  | .animEnd => Sys2Proof.Machine.execAnimEnd s
  | .animNextChunk => Sys2Proof.Machine.execAnimNextChunk s

end Sys2Proof.Machine
end

