-- ==== Sys2Proof/Machine/HostPort.lean ====
section
/-! DEFINITION. The host port: the register map, reads, writes and the accesses that have no step (R22, R60-R67, R310, R311). -/

namespace Sys2Proof.Machine

/-- The host-visible registers of R22. -/
inductive HostReg where
  | ctrl | status | cmd | arg | errCode | errInfo | pixX | pixY | pixWdata | pixRdata | palLen | bitWidth
  | frameLen | outLen | inLen | animLen | frameCount | period | chunkCount | chunkIdx
  deriving DecidableEq, Repr

/-- What an offset selects (R22, R64): a register, an entry of a word window, a byte offset in a byte window, or nothing. -/
inductive Target where
  | reg (r : HostReg)
  | palWord (i : Nat)
  | idxWord (t : Nat)
  | outWord (j : Nat)
  | frameWord (j : Nat)
  | inWord (j : Nat)
  | unmapped
  deriving DecidableEq, Repr

/-- The registers at their offsets (R22). -/
def registerMap : List (Nat × HostReg) :=
  [ (0x000, .ctrl), (0x004, .status), (0x008, .cmd), (0x00C, .arg), (0x010, .errCode), (0x014, .errInfo),
    (0x018, .pixX), (0x01C, .pixY), (0x020, .pixWdata), (0x024, .pixRdata), (0x028, .palLen), (0x02C, .bitWidth),
    (0x030, .frameLen), (0x034, .outLen), (0x038, .inLen), (0x03C, .animLen), (0x040, .frameCount), (0x044, .period),
    (0x048, .chunkCount), (0x04C, .chunkIdx) ]

/-- The decode of an offset (R22, R64). -/
def target (o : Nat) : Target :=
  match registerMap.lookup o with
  | some r => .reg r
  | none =>
    if 0x1000 ≤ o ∧ o < 0x2000 then .palWord ((o - 0x1000) / 4)
    else if 0x2000 ≤ o ∧ o < 0x3000 then .idxWord ((o - 0x2000) / 4)
    else if 0x4000 ≤ o ∧ o < 0x6000 then .outWord (o - 0x4000)
    else if 0x6000 ≤ o ∧ o < 0x8000 then .frameWord (o - 0x6000)
    else if 0x8000 ≤ o ∧ o < 0x9000 then .inWord (o - 0x8000)
    else .unmapped

/-- The word at byte offset `j` of a byte window: `b(j) | b(j+1)<<8 | b(j+2)<<16 | b(j+3)<<24` (R61). -/
def windowWord (b : Nat → Byte) (j : Nat) : Word :=
  (b j).setWidth 32 ||| (b (j + 1)).setWidth 32 <<< 8 ||| (b (j + 2)).setWidth 32 <<< 16 |||
    (b (j + 3)).setWidth 32 <<< 24

/-- The bytes a written word puts into a byte window, `v[8k+7:8k]` for `k = 0..3` (R61). -/
def wordBytes (v : Word) : List Byte :=
  [v.extractLsb' 0 8, v.extractLsb' 8 8, v.extractLsb' 16 8, v.extractLsb' 24 8]

/-- Byte `j` of the OUT window: 0 at and beyond `OUT_LEN` (R44). -/
def outWindow (s : State) (j : Nat) : Byte := if j < s.outLen.toNat then outByte s j else 0

/-- Byte `j` of the FRAME window: 0 at and beyond `FRAME_LEN` (R43). -/
def frameWindow (s : State) (j : Nat) : Byte := if j < s.frameLen.toNat then frameByte s j else 0

/-- Word `i` of the PAL window: 0 at and beyond `PAL_LEN` (R41). -/
def palWindow (s : State) (i : Nat) : Word := if i < s.palLen.toNat then (palEntry s i).setWidth 32 else 0

/-- Word `t` of the IDX window: 0 when no palette is valid (R42). -/
def idxWindow (s : State) (t : Nat) : Word := if s.palLen ≠ 0 then (idxEntry s t).setWidth 32 else 0

/-- What a read of a register returns (R22): unlisted bits read 0 and `CMD` reads 0. -/
def readReg (s : State) : HostReg → Word
  | .ctrl => flagBit s.palCapSel 0
  | .status => statusWord s
  | .cmd => 0
  | .arg => s.arg.setWidth 32
  | .errCode => s.errCode.setWidth 32
  | .errInfo => s.errInfo.setWidth 32
  | .pixX => s.pixX.setWidth 32
  | .pixY => s.pixY.setWidth 32
  | .pixWdata => s.pixWdata.setWidth 32
  | .pixRdata => s.pixRdata.setWidth 32
  | .palLen => s.palLen.setWidth 32
  | .bitWidth => s.bitWidth.setWidth 32
  | .frameLen => s.frameLen.setWidth 32
  | .outLen => s.outLen.setWidth 32
  | .inLen => s.inLen.setWidth 32
  | .animLen => s.animLen.setWidth 32
  | .frameCount => s.frameCount.setWidth 32
  | .period => s.period.setWidth 32
  | .chunkCount => s.chunkCount.setWidth 32
  | .chunkIdx => s.chunkIdx.setWidth 32

/-- What a read returns while `STATUS.BUSY = 0` (R22, R41-R45, R61, R64). -/
def readTarget (s : State) : Target → Word
  | .reg r => readReg s r
  | .palWord i => palWindow s i
  | .idxWord t => idxWindow s t
  | .outWord j => windowWord (outWindow s) j
  | .frameWord j => windowWord (frameWindow s) j
  | .inWord j => windowWord (inByte s) j
  | .unmapped => 0

/-- A host read: it changes nothing of the block (R66). While busy only `STATUS` reads true, and any other offset draws a free
value (R311). -/
def hostRead (t : Target) (s : State) : State :=
  if s.busy = true ∧ t ≠ .reg .status then { s with rdata := Config.busyRead s.draws, draws := s.draws + 1 }
  else { s with rdata := readTarget s t }

/-- A write to a register while `STATUS.BUSY = 0` (R67): only the defined fields of an RW register take the value (R22), a write to
`STATUS` may clear `OVERRUN` (R31), a write to `CMD` is accepted (R81), and an RO register drops it. -/
def writeReg (v : Word) (s : State) : HostReg → State
  | .ctrl => { s with palCapSel := v.getLsbD 0 }
  | .status => { s with overrun := s.overrun && !v.getLsbD 3 }
  | .cmd => accept v s
  | .arg => { s with arg := v.extractLsb' 0 16 }
  | .pixX => { s with pixX := v.extractLsb' 0 16 }
  | .pixY => { s with pixY := v.extractLsb' 0 16 }
  | .pixWdata => { s with pixWdata := v.extractLsb' 0 24 }
  | .inLen => { s with inLen := v.extractLsb' 0 16 }
  | .errCode | .errInfo | .pixRdata | .palLen | .bitWidth | .frameLen | .outLen | .animLen | .frameCount | .period
  | .chunkCount | .chunkIdx => s

/-- A write while `STATUS.BUSY = 0`: besides registers only the IN window takes it (R61, R67). -/
def writeTarget (v : Word) (s : State) : Target → State
  | .reg r => writeReg v s r
  | .inWord j => { s with inbuf := storeBlock j (wordBytes v) s.inbuf }
  | .palWord _ | .idxWord _ | .outWord _ | .frameWord _ | .unmapped => s

/-- A host write: while busy it is dropped and sets `OVERRUN`, whatever the offset (R310). -/
def hostWrite (t : Target) (v : Word) (s : State) : State :=
  if s.busy then { s with overrun := true } else writeTarget v s t

/-- One host access (R62, R66-R68, R300): refused where the spec gives it no step. -/
def hostAccess (a : Access) (s : State) : Host.Outcome State Fault Refusal :=
  if s.rst then .refused .accessInReset
  else if a.bits ≠ 32 then .refused .accessWidth
  else if a.offset.toNat % 4 ≠ 0 then .refused .accessAlignment
  else
    match a.kind with
    | .read => .next (hostRead (target a.offset.toNat) s)
    | .write v => .next (hostWrite (target a.offset.toNat) v s)

end Sys2Proof.Machine
end

