-- ==== Sys2Proof/Machine/Engine.lean ====
section
/-! DEFINITION. Whose turn it is, and the engine's step: fetching the pending word, decoding and running it (R11, R83, R84, R279). -/

namespace Sys2Proof.Machine

/-- The engine's turn. Its step is enabled exactly when a command is pending (R83) and `rst` is not asserted (R300); it decodes the
pending word (R84) and runs the command or completes with `ILLEGAL_COMMAND`. Where it is not enabled the turn changes nothing. -/
def engineTurn (s : State) : Host.Outcome State Fault Refusal :=
  if s.rst then .next s
  else
    match s.pending with
    | none => .next s
    | some w =>
      match decodeWord w with
      | .ok i => exec i s
      | .error _ => .next (failCommand none .illegalCommand 0 s)

/-- The turn that comes next is taken out of the list; with no turn listed it is the engine's (R321: a pending command always
completes). -/
def takeTurn (s : State) : Host.Outcome State Fault Refusal :=
  match s.turns with
  | [] => engineTurn s
  | .engine :: rest => engineTurn { s with turns := rest }
  | .host a :: rest => hostAccess a { s with turns := rest }
  | .reset asserted :: rest => .next (driveReset asserted { s with turns := rest })

/-- A command word placed as a `CMD` write leaves it: accepted (R82), `rst` released, and the next turn the engine's. -/
def placeCommand (w : Word) (s : State) : State := { accept w s with rst := false, turns := [] }

end Sys2Proof.Machine
end

