-- ==== Sys2Proof/Machine/Step.lean ====
section
/-! DEFINITION. One step of the machine, and placing a command where the next step runs it. -/

namespace Sys2Proof.Machine

/-- One step: one host access, one engine step or one reset step (R11). -/
def step (s : State) : Host.Outcome State Fault Refusal := takeTurn s

/-- The state in which the very next step runs the command word `w`: the block has no program of its own, so a "fetched" word is
the pending command (log entry 2). -/
def State.withFetchWord (s : State) (nbits w : Nat) : State := placeCommand (BitVec.ofNat 32 (w % 2 ^ nbits)) s

end Sys2Proof.Machine
end

