-- ==== Sys2Proof/Safety.lean ====
section
/-! DEFINITION. What the statements speak of: which parts of the state are the same, how a command ended, the invariants of the block, and the
messages a run of one command produces. -/

namespace Sys2Proof.Machine

/-! ### Parts of the state that are the same (frames), memories by reading every cell -/

/-- `CTRL`, `ARG`, `PIX_X`, `PIX_Y`, `PIX_WDATA` as before. -/
structure SameOperands (s t : State) : Prop where
  ctrl : t.palCapSel = s.palCapSel
  arg : t.arg = s.arg
  pixX : t.pixX = s.pixX
  pixY : t.pixY = s.pixY
  pixWdata : t.pixWdata = s.pixWdata

/-- Every cell of `PIXMEM` as before. -/
def SameGrid (s t : State) : Prop := ∀ a, pixel t a = pixel s a

/-- `PAL_LEN`, `BITWIDTH` and every entry of `PALMEM` and `IDXMEM` as before. -/
structure SamePalette (s t : State) : Prop where
  palLen : t.palLen = s.palLen
  bitWidth : t.bitWidth = s.bitWidth
  palmem : ∀ i, palEntry t i = palEntry s i
  idxmem : ∀ i, idxEntry t i = idxEntry s i

/-- `FRAME_LEN` and every byte of `FRAMEBUF` as before. -/
structure SameFrame (s t : State) : Prop where
  frameLen : t.frameLen = s.frameLen
  framebuf : ∀ j, frameByte t j = frameByte s j

/-- `OUT_LEN` and every byte of `OUT` as before. -/
structure SameOut (s t : State) : Prop where
  outLen : t.outLen = s.outLen
  out : ∀ j, outByte t j = outByte s j

/-- `IN_LEN` and every byte of `IN` as before. -/
structure SameIn (s t : State) : Prop where
  inLen : t.inLen = s.inLen
  inbuf : ∀ j, inByte t j = inByte s j

/-- The animation session as before: `ANIM_STATE`, `ANIM_LEN`, `FRAME_COUNT`, `PERIOD`, `CHUNK_COUNT`, `CHUNK_IDX` and every byte of
`ALLFRAMES`. -/
structure SameSession (s t : State) : Prop where
  animState : t.animState = s.animState
  animLen : t.animLen = s.animLen
  frameCount : t.frameCount = s.frameCount
  period : t.period = s.period
  chunkCount : t.chunkCount = s.chunkCount
  chunkIdx : t.chunkIdx = s.chunkIdx
  allframes : ∀ j, animByte t j = animByte s j

/-- `OVERRUN`, the reset input, the configuration and the model's own fields as before. -/
structure SamePort (s t : State) : Prop where
  overrun : t.overrun = s.overrun
  rst : t.rst = s.rst
  config : t.config = s.config
  turns : t.turns = s.turns
  rdata : t.rdata = s.rdata
  powerOns : t.powerOns = s.powerOns
  draws : t.draws = s.draws

/-- Every register and memory but `STATUS`'s other bits, `ERR_CODE`, `ERR_INFO` and the pending command as before. -/
structure SameData (s t : State) : Prop where
  operands : SameOperands s t
  pixRdata : t.pixRdata = s.pixRdata
  grid : SameGrid s t
  palette : SamePalette s t
  frame : SameFrame s t
  out : SameOut s t
  input : SameIn s t
  session : SameSession s t

/-- `DONE`, `ERR`, `ERR_CODE`, `ERR_INFO`, `BUSY` and the pending command as before. -/
structure SameStatus (s t : State) : Prop where
  busy : t.busy = s.busy
  done : t.done = s.done
  err : t.err = s.err
  errCode : t.errCode = s.errCode
  errInfo : t.errInfo = s.errInfo
  pending : t.pending = s.pending

/-! ### How a command ended -/

/-- Successful completion (R83): `DONE` set, `BUSY` and the pending command cleared, and nothing else of the status written. -/
structure Succeeded (s t : State) : Prop where
  done : t.done = true
  busy : t.busy = false
  pending : t.pending = none
  err : t.err = s.err
  errCode : t.errCode = s.errCode
  errInfo : t.errInfo = s.errInfo

/-- Failed completion with an error and its information (R275, R83). -/
structure Failed (e : CmdError) (info : Nat) (t : State) : Prop where
  err : t.err = true
  done : t.done = false
  errCode : t.errCode = e.code
  errInfo : t.errInfo.toNat = info
  busy : t.busy = false
  pending : t.pending = none

/-- The session aborted by a failed `ANIM_ADD_FRAME` (R276 (c)): `PERIOD` and the contents of `ALLFRAMES` kept. -/
structure Aborted (s t : State) : Prop where
  animState : t.animState = .idle
  animLen : t.animLen = 0
  frameCount : t.frameCount = 0
  chunkCount : t.chunkCount = 0
  chunkIdx : t.chunkIdx = 0
  period : t.period = s.period
  allframes : ∀ j, animByte t j = animByte s j

/-- No palette is readable (R276 (b)); the memories behind it as before. -/
structure PaletteDropped (s t : State) : Prop where
  palLen : t.palLen = 0
  bitWidth : t.bitWidth = 0
  palmem : ∀ i, palEntry t i = palEntry s i
  idxmem : ∀ i, idxEntry t i = idxEntry s i

/-- No frame is readable (R276 (b)); the buffer as before. -/
structure FrameDropped (s t : State) : Prop where
  frameLen : t.frameLen = 0
  framebuf : ∀ j, frameByte t j = frameByte s j

/-- No message is readable (R276 (a)); the buffer as before. -/
structure OutDropped (s t : State) : Prop where
  outLen : t.outLen = 0
  out : ∀ j, outByte t j = outByte s j

/-! ### What a command stored -/

/-- The encoded grid the palette commands compute (R130). -/
def encodedGrid (s : State) : Encoded := encodeGrid (gridKeys s)

/-- The palette stage's results are `r` (R133): `PAL_LEN`, `BITWIDTH`, the palette and one index per cell. R41 leaves the entries beyond open; that
they are as before is the model's (DESIGN CHOICE, log entry 22). -/
structure PaletteStored (r : Encoded) (s t : State) : Prop where
  palLen : t.palLen.toNat = r.palette.length
  bitWidth : t.bitWidth.toNat = bw r.palette.length
  palmem : ∀ i (h : i < r.palette.length), palEntry t i = r.palette[i]
  palmemRest : ∀ i, r.palette.length ≤ i → palEntry t i = palEntry s i
  idxmem : ∀ i (h : i < r.indices.length), (idxEntry t i).toNat = r.indices[i]
  idxmemRest : ∀ i, r.indices.length ≤ i → idxEntry t i = idxEntry s i

/-- `FRAMEBUF` holds the record `f`. That the bytes beyond it, which nothing can read, are as before is the model's (DESIGN CHOICE, log entry 22). -/
structure FrameStored (f : List Byte) (s t : State) : Prop where
  frameLen : t.frameLen.toNat = f.length
  framebuf : ∀ j (h : j < f.length), frameByte t j = f[j]
  framebufRest : ∀ j, f.length ≤ j → frameByte t j = frameByte s j

/-- `OUT` holds the message `m`. That the bytes beyond it, which nothing can read, are as before is the model's (DESIGN CHOICE, log entry 22). -/
structure OutStored (m : List Byte) (s t : State) : Prop where
  outLen : t.outLen.toNat = m.length
  out : ∀ j (h : j < m.length), outByte t j = m[j]
  outRest : ∀ j, m.length ≤ j → outByte t j = outByte s j

/-- The bytes the host reads out of `OUT` (R97). -/
def messageBytes (s : State) : List Byte := (List.range s.outLen.toNat).map (outByte s)

/-- `n` runs of `ANIM_NEXT_CHUNK`: the messages in order and the last state (R217, R218). -/
def runChunks : Nat → State → List (List Byte) × State
  | 0, s => ([], s)
  | n + 1, s =>
    match exec .animNextChunk s with
    | .next t => (messageBytes t :: (runChunks n t).1, (runChunks n t).2)
    | .fault _ | .refused _ => ([], s)

/-- What is left of a chunk message without its envelope (R90), its command byte and its 3-byte chunk header (R94, R218). -/
def sliceOfMessage (m : List Byte) : List Byte := (m.drop 7).take (m.length - 10)

/-- The state of R55 as far as anything can see it: every register of R22 reads 0, every window reads 0 but `IN`, the grid is black, nothing
is pending, and nothing is readable of an animation. -/
structure AtReset (t : State) : Prop where
  registers : ∀ r, readReg t r = 0
  grid : ∀ a, pixel t a = 0
  pal : ∀ i, palWindow t i = 0
  idx : ∀ i, idxWindow t i = 0
  out : ∀ j, outWindow t j = 0
  frame : ∀ j, frameWindow t j = 0
  pending : t.pending = none
  rst : t.rst = false

/-! ### Invariants -/

/-- The status protocol (R26-R28, R34, R35, R52, R270, R300). -/
structure StatusInv (s : State) : Prop where
  busyIffPending : s.busy = s.pending.isSome
  busyIsClear : s.busy = true → s.done = false ∧ s.err = false
  notDoneAndErr : ¬ (s.done = true ∧ s.err = true)
  errIffCode : s.err = true ↔ s.errCode ≠ 0
  codeProduced : s.errCode.toNat ≤ 7
  infoOnlyForPalette : s.errInfo ≠ 0 → s.errCode = CmdError.paletteTooLarge.code
  quietInReset : s.rst = true → s.busy = false

/-- The palette registers (R39, R41, R42). -/
structure PaletteInv (s : State) : Prop where
  palLen : s.palLen.toNat ≤ 1024
  noPalette : s.palLen = 0 → s.bitWidth = 0
  width : s.palLen ≠ 0 → s.bitWidth.toNat = bw s.palLen.toNat
  index : s.palLen ≠ 0 → ∀ t < 1024, (idxEntry s t).toNat < s.palLen.toNat

/-- The lengths of what can be read back (R10, R43, R44). -/
structure LengthInv (s : State) : Prop where
  frameLen : s.frameLen = 0 ∨ (139 ≤ s.frameLen.toNat ∧ s.frameLen.toNat ≤ 4360)
  outLen : s.outLen = 0 ∨ (6 ≤ s.outLen.toNat ∧ s.outLen.toNat ≤ 4371)

/-- The animation session (R46, R49, R210-R220). -/
structure SessionInv (s : State) : Prop where
  legal : s.config.Legal
  animLen : s.animLen.toNat ≤ s.config.animCap
  frames : 139 * s.frameCount.toNat ≤ s.animLen.toNat
  chunks : s.chunkIdx.toNat ≤ s.chunkCount.toNat ∧ s.chunkCount.toNat ≤ 256
  collecting : s.animState = .collect → s.chunkCount = 0
  emitting : s.animState = .emit → s.chunkIdx.toNat < s.chunkCount.toNat ∧ s.chunkCount.toNat = ceilDiv s.animLen.toNat 200
  idle : s.animState = .idle → s.chunkIdx = s.chunkCount

end Sys2Proof.Machine
end

