-- ==== Sys2Proof/Certificates/Slice0/Obligations.lean ====
section
/-! DEFINITION. The statements for the provers. -/

open Sys2Proof Sys2Proof.Machine

/-! ### Encoding -/

/-- R85: the fourteen opcodes, and every other opcode value unassigned. -/
def Obligations.OpcodeMapDecodes : Prop :=
  (∀ row ∈ ([(0x00, .nop), (0x01, .softReset), (0x02, .gridClear), (0x03, .pixGet), (0x04, .pixSet),
      (0x10, .paletteEncode), (0x11, .frameBuild), (0x20, .msgRaw), (0x21, .msgBrightness), (0x22, .msgStaticImage),
      (0x30, .animBegin), (0x31, .animAddFrame), (0x32, .animEnd), (0x33, .animNextChunk)] : List (Nat × Instr)),
    decodeWord (BitVec.ofNat 32 row.1) = .ok row.2) ∧
  ∀ o < 256, o ∉ [0x00, 0x01, 0x02, 0x03, 0x04, 0x10, 0x11, 0x20, 0x21, 0x22, 0x30, 0x31, 0x32, 0x33] →
    decodeWord (BitVec.ofNat 32 o) = .error .unassignedOpcode

/-- R80, R84, R85, R89: a word decodes to a command exactly when it is that command's word, and exactly the well-formed words decode. -/
def Obligations.DecodeAndEncodeAgree : Prop :=
  (∀ i w, decodeWord w = .ok i ↔ w = encode i) ∧
  ∀ w, commandWordWellFormed w = true ↔ ∃ i, decodeWord w = .ok i

/-- R84, R89: with the engine's turn next, listed or not, a pending word with a reserved bit set or an unassigned opcode completes with
ILLEGAL_COMMAND and changes nothing else. -/
def Obligations.IllegalWordCompletesWithIllegalCommand : Prop :=
  ∀ (s : State) (w : Word), s.rst = false → s.pending = some w →
    (w.toNat / 256 ≠ 0 ∨
      w.toNat % 256 ∉ [0x00, 0x01, 0x02, 0x03, 0x04, 0x10, 0x11, 0x20, 0x21, 0x22, 0x30, 0x31, 0x32, 0x33]) →
    (s.turns = [] → ∃ t, step s = .next t ∧ Failed .illegalCommand 0 t ∧ SameData s t ∧ SamePort s t) ∧
    ∀ rest, s.turns = .engine :: rest →
      ∃ t, step s = .next t ∧ Failed .illegalCommand 0 t ∧ SameData s t ∧ SamePort { s with turns := rest } t

/-! ### Steps. What comes next (a host access, the engine's turn, a level of `rst`) is the head of `turns`, the model's own field (log entry 1). -/

/-- R83, R84: a step with the engine's turn runs the decoded pending command; all the step adds is taking the turn out of the list (the list
is the model's own, log entry 1). -/
def Obligations.StepRunsPendingCommand : Prop :=
  ∀ (s : State) (w : Word) (i : Instr), s.rst = false → s.pending = some w → decodeWord w = .ok i →
    (s.turns = [] → step s = exec i s) ∧
    ∀ rest, s.turns = .engine :: rest → step s = exec i { s with turns := rest }

/-- R83: the engine's step is enabled exactly when a command is pending; that its turn then changes nothing is the model's choice (log
entry 3). -/
def Obligations.EngineIdlesWithoutCommand : Prop :=
  ∀ s : State, s.pending = none →
    (s.turns = [] → step s = .next s) ∧ ∀ rest, s.turns = .engine :: rest → step s = .next { s with turns := rest }

/-- R82: what acceptance of a command word writes, and that it writes nothing else. -/
def Obligations.AcceptanceOfCommandWord : Prop :=
  ∀ (s : State) (w : Word) (rest : List Turn), s.rst = false → s.busy = false →
    s.turns = .host ⟨32, 0x008, .write w⟩ :: rest →
    ∃ t, step s = .next t ∧ t.pending = some w ∧ t.busy = true ∧ t.done = false ∧ t.err = false ∧
      t.errCode = 0 ∧ t.errInfo = 0 ∧ SameData s t ∧ SamePort { s with turns := rest } t

/-- R310: a write while busy, at any offset, changes nothing but `OVERRUN`. -/
def Obligations.WriteWhileBusyIsDropped : Prop :=
  ∀ (s : State) (o : BitVec 16) (v : Word) (rest : List Turn), s.rst = false → s.busy = true → o.toNat % 4 = 0 →
    s.turns = .host ⟨32, o, .write v⟩ :: rest → step s = .next { s with turns := rest, overrun := true }

/-- R311: a read while busy returns the true `STATUS`, or at any other offset a free value, and changes nothing of the block. How the free value
is drawn (`Config.busyRead` at the count `draws`, kept in `rdata`) is the model's choice (log entries 4 and 5). -/
def Obligations.ReadWhileBusy : Prop :=
  ∀ (s : State) (o : BitVec 16) (rest : List Turn), s.rst = false → s.busy = true → o.toNat % 4 = 0 →
    s.turns = .host ⟨32, o, .read⟩ :: rest →
    step s = .next (if o.toNat = 4 then { s with turns := rest, rdata := statusWord s }
      else { s with turns := rest, rdata := Config.busyRead s.draws, draws := s.draws + 1 })

/-- R66: a read has no side effect, and while idle a repeated read returns the same value. -/
def Obligations.ReadsHaveNoSideEffect : Prop :=
  (∀ (s : State) (o : BitVec 16) (rest : List Turn), s.rst = false → o.toNat % 4 = 0 →
    s.turns = .host ⟨32, o, .read⟩ :: rest →
    ∃ t, step s = .next t ∧ SameData s t ∧ SameStatus s t ∧ t.overrun = s.overrun ∧ t.rst = s.rst ∧ t.turns = rest) ∧
  ∀ (s : State) (o : BitVec 16) (rest : List Turn), s.rst = false → s.busy = false → o.toNat % 4 = 0 →
    s.turns = .host ⟨32, o, .read⟩ :: .host ⟨32, o, .read⟩ :: rest →
    ∃ t u, step s = .next t ∧ step t = .next u ∧ u.rdata = t.rdata

/-- R22, R26-R31: the fields of the `STATUS` word. -/
def Obligations.StatusWordFields : Prop :=
  ∀ s : State, (statusWord s).getLsbD 0 = s.busy ∧ (statusWord s).getLsbD 1 = s.done ∧ (statusWord s).getLsbD 2 = s.err ∧
    (statusWord s).getLsbD 3 = s.overrun ∧ (statusWord s).extractLsb' 6 26 = 0 ∧
    (statusWord s).extractLsb' 4 2 = (match s.animState with | .idle => 0 | .collect => 1 | .emit => 2)

/-- R31: the reserved bits of `STATUS` read 0, and a write to it while idle clears `OVERRUN` when bit 3 is 1 and does nothing else. -/
def Obligations.StatusWriteClearsOnlyOverrun : Prop :=
  (∀ s : State, statusWord s >>> 6 = 0) ∧
  ∀ (s : State) (v : Word) (rest : List Turn), s.rst = false → s.busy = false →
    s.turns = .host ⟨32, 0x004, .write v⟩ :: rest →
    step s = .next { s with turns := rest, overrun := s.overrun && !v.getLsbD 3 }

/-- R22, R26-R39, R43-R49: what an idle read of each register returns: its fields and 0 above them, the status word for `STATUS`, and 0 for
`CMD`. -/
def Obligations.RegisterReads : Prop :=
  ∀ (s : State) (o : BitVec 16) (v : Nat) (rest : List Turn),
    (o, v) ∈ ([(0x000, s.palCapSel.toNat), (0x004, (statusWord s).toNat), (0x008, 0), (0x00C, s.arg.toNat),
      (0x010, s.errCode.toNat), (0x014, s.errInfo.toNat),
      (0x018, s.pixX.toNat), (0x01C, s.pixY.toNat), (0x020, s.pixWdata.toNat), (0x024, s.pixRdata.toNat), (0x028, s.palLen.toNat),
      (0x02C, s.bitWidth.toNat), (0x030, s.frameLen.toNat), (0x034, s.outLen.toNat), (0x038, s.inLen.toNat),
      (0x03C, s.animLen.toNat), (0x040, s.frameCount.toNat), (0x044, s.period.toNat), (0x048, s.chunkCount.toNat),
      (0x04C, s.chunkIdx.toNat)] : List (BitVec 16 × Nat)) →
    s.rst = false → s.busy = false → s.turns = .host ⟨32, o, .read⟩ :: rest →
    ∃ t, step s = .next t ∧ t.rdata.toNat = v

/-- R22, R25, R33, R36, R37, R45: a write to an RW register while idle stores exactly its defined fields; every other offset reads as
before, and the grid and the session are as before. -/
def Obligations.OperandRegistersHoldDefinedFields : Prop :=
  ∀ (s : State) (o : BitVec 16) (m v : Word) (rest : List Turn),
    (o, m) ∈ ([(0x000, 0x1), (0x00C, 0xFFFF), (0x018, 0xFFFF), (0x01C, 0xFFFF), (0x020, 0xFFFFFF), (0x038, 0xFFFF)] :
      List (BitVec 16 × Word)) →
    s.rst = false → s.busy = false → s.turns = .host ⟨32, o, .write v⟩ :: rest →
    ∃ t, step s = .next t ∧ readTarget t (target o.toNat) = v &&& m ∧
      (∀ o' : Nat, target o' ≠ target o.toNat → readTarget t (target o') = readTarget s (target o')) ∧
      SameGrid s t ∧ SameSession s t ∧ SameStatus s t ∧ SamePort { s with turns := rest } t

/-- R67: a write while idle that is neither to an RW register, `STATUS`, `CMD` nor the IN window is dropped. -/
def Obligations.OtherWritesAreDropped : Prop :=
  ∀ (s : State) (o : BitVec 16) (v : Word) (rest : List Turn), s.rst = false → s.busy = false → o.toNat % 4 = 0 →
    o.toNat ∉ [0x000, 0x004, 0x008, 0x00C, 0x018, 0x01C, 0x020, 0x038] → ¬ (0x8000 ≤ o.toNat ∧ o.toNat < 0x9000) →
    s.turns = .host ⟨32, o, .write v⟩ :: rest → step s = .next { s with turns := rest }

/-- R64: an unmapped offset reads 0 and ignores writes, except that a write while busy sets `OVERRUN`. -/
def Obligations.UnmappedOffsets : Prop :=
  ∀ (s : State) (o : BitVec 16) (v : Word) (rest : List Turn), s.rst = false → o.toNat % 4 = 0 →
    ((0x050 ≤ o.toNat ∧ o.toNat ≤ 0xFFC) ∨ (0x3000 ≤ o.toNat ∧ o.toNat ≤ 0x3FFF) ∨ 0x9000 ≤ o.toNat) →
    (s.busy = false → s.turns = .host ⟨32, o, .read⟩ :: rest → step s = .next { s with turns := rest, rdata := 0 }) ∧
    (s.busy = false → s.turns = .host ⟨32, o, .write v⟩ :: rest → step s = .next { s with turns := rest }) ∧
    (s.busy = true → s.turns = .host ⟨32, o, .write v⟩ :: rest →
      step s = .next { s with turns := rest, overrun := true })

/-- R41-R44, R61: what an idle read of a result window returns, word by word and byte by byte, 0 beyond the length. -/
def Obligations.ResultWindowReads : Prop :=
  ∀ (s : State) (rest : List Turn), s.rst = false → s.busy = false →
    (∀ i < 1024, s.turns = .host ⟨32, BitVec.ofNat 16 (0x1000 + 4 * i), .read⟩ :: rest →
      ∃ t, step s = .next t ∧ t.rdata.toNat = if i < s.palLen.toNat then (palEntry s i).toNat else 0) ∧
    (∀ i < 1024, s.turns = .host ⟨32, BitVec.ofNat 16 (0x2000 + 4 * i), .read⟩ :: rest →
      ∃ t, step s = .next t ∧ t.rdata.toNat = if s.palLen ≠ 0 then (idxEntry s i).toNat else 0) ∧
    (∀ k < 2048, s.turns = .host ⟨32, BitVec.ofNat 16 (0x4000 + 4 * k), .read⟩ :: rest →
      ∃ t, step s = .next t ∧ ∀ n < 4, t.rdata.extractLsb' (8 * n) 8 =
        if 4 * k + n < s.outLen.toNat then outByte s (4 * k + n) else 0) ∧
    (∀ k < 2048, s.turns = .host ⟨32, BitVec.ofNat 16 (0x6000 + 4 * k), .read⟩ :: rest →
      ∃ t, step s = .next t ∧ ∀ n < 4, t.rdata.extractLsb' (8 * n) 8 =
        if 4 * k + n < s.frameLen.toNat then frameByte s (4 * k + n) else 0)

/-- R45, R61: a word written to the IN window while idle puts its bytes there low first, every other byte and everything else is as before,
and the word reads back; and an idle read of an IN word returns its four bytes low first, whatever `IN_LEN` is. -/
def Obligations.InWindowWords : Prop :=
  (∀ (s : State) (k : Nat) (v : Word) (rest : List Turn), k < 1024 → s.rst = false → s.busy = false →
    s.turns = .host ⟨32, BitVec.ofNat 16 (0x8000 + 4 * k), .write v⟩ :: rest →
    ∃ t, step s = .next t ∧ (∀ n < 4, inByte t (4 * k + n) = v.extractLsb' (8 * n) 8) ∧
      (∀ j, j < 4 * k ∨ 4 * k + 4 ≤ j → inByte t j = inByte s j) ∧
      readTarget t (target (0x8000 + 4 * k)) = v ∧
      t.inLen = s.inLen ∧ SameOperands s t ∧ t.pixRdata = s.pixRdata ∧ SameGrid s t ∧ SamePalette s t ∧ SameFrame s t ∧
      SameOut s t ∧ SameSession s t ∧ SameStatus s t ∧ SamePort { s with turns := rest } t) ∧
  ∀ (s : State) (k : Nat) (rest : List Turn), k < 1024 → s.rst = false → s.busy = false →
    s.turns = .host ⟨32, BitVec.ofNat 16 (0x8000 + 4 * k), .read⟩ :: rest →
    ∃ t, step s = .next t ∧ ∀ n < 4, t.rdata.extractLsb' (8 * n) 8 = inByte s (4 * k + n)

/-- R62: an access of another width, or at an offset that is no multiple of 4, has no step, in any state. -/
def Obligations.OtherAccessesAreRefused : Prop :=
  ∀ (s : State) (a : Access) (rest : List Turn), s.turns = .host a :: rest → (a.bits ≠ 32 ∨ a.offset.toNat % 4 ≠ 0) →
    ∃ r, step s = .refused r

/-- R300: while `rst` is asserted no access has a step and the engine takes none; its release leaves the reset state. The name of the refusal and
that the engine's turn then answers the same state are the model's choice (log entries 3 and 16). -/
def Obligations.NothingRunsWhileResetIsAsserted : Prop :=
  ∀ s : State, s.rst = true →
    (∀ a rest, s.turns = .host a :: rest → step s = .refused .accessInReset) ∧
    (s.turns = [] → step s = .next s) ∧
    (∀ rest, s.turns = .engine :: rest → step s = .next { s with turns := rest }) ∧
    ∀ rest, s.turns = .reset false :: rest → ∃ u, step s = .next u ∧ AtReset u ∧ u.turns = rest ∧ u.config = s.config

/-- R302, R55: a reset asserted at any time, with a command pending or not, abandons it, and after release the state is the reset state. -/
def Obligations.ResetAbandonsPendingCommand : Prop :=
  ∀ (s : State) (rest : List Turn), s.turns = .reset true :: .reset false :: rest →
    ∃ t u, step s = .next t ∧ t.pending = none ∧ step t = .next u ∧ AtReset u ∧ u.turns = rest ∧ u.config = s.config

/-- R301: the reset state. -/
def Obligations.ResetStateIsQuiet : Prop :=
  AtReset State.reset ∧ State.reset.busy = false ∧ State.reset.done = false ∧ State.reset.err = false ∧
    State.reset.overrun = false ∧ State.reset.animState = .idle ∧ State.reset.errCode = 0 ∧
    paletteCap State.reset = 1024 ∧ State.reset.palLen = 0 ∧ State.reset.frameLen = 0 ∧ State.reset.outLen = 0 ∧
    State.reset.inLen = 0 ∧ State.reset.animLen = 0

/-! ### Control and pixel grid commands -/

/-- R261, R82, R83: the execution of NOP completes and changes nothing else (that clearing the error is the acceptance's part is log entry 19);
and from an idle state a `CMD` write of its word and the engine's turn, listed or not, leave `DONE` set, no error indication, and everything
else, `OVERRUN` among it, as before (R277). -/
def Obligations.NopOnlyCompletes : Prop :=
  (∀ s : State, ∃ t, exec .nop s = .next t ∧ Succeeded s t ∧ SameData s t ∧ SamePort s t) ∧
  ∀ (s : State) (rest : List Turn), s.rst = false → s.busy = false →
    (s.turns = .host ⟨32, 0x008, .write 0x00000000⟩ :: .engine :: rest ∨
      (s.turns = [.host ⟨32, 0x008, .write 0x00000000⟩] ∧ rest = [])) →
    ∃ t u, step s = .next t ∧ step t = .next u ∧ u.done = true ∧ u.err = false ∧ u.errCode = 0 ∧ u.errInfo = 0 ∧
      u.busy = false ∧ u.pending = none ∧ SameData s u ∧ SamePort { s with turns := rest } u

/-- R262: SOFT_RESET leaves every register at its reset value with `DONE` set, the grid black and `IN` as it was. -/
def Obligations.SoftResetRestoresRegisters : Prop :=
  ∀ s : State, ∃ t, exec .softReset s = .next t ∧ (∀ r, r ≠ .status → readReg t r = 0) ∧ statusWord t = 2 ∧
    t.pending = none ∧ (∀ a, pixel t a = 0) ∧ (∀ j, inByte t j = inByte s j) ∧ (∀ i, palWindow t i = 0) ∧
    (∀ i, idxWindow t i = 0) ∧ (∀ j, frameWindow t j = 0) ∧ (∀ j, outWindow t j = 0) ∧
    SamePort { s with overrun := false } t

/-- R111: GRID_CLEAR makes every cell black and changes nothing else. -/
def Obligations.GridClearBlackensTheGrid : Prop :=
  ∀ s : State, ∃ t, exec .gridClear s = .next t ∧ Succeeded s t ∧ (∀ a, pixel t a = 0) ∧ SameOperands s t ∧
    t.pixRdata = s.pixRdata ∧ SamePalette s t ∧ SameFrame s t ∧ SameOut s t ∧ SameIn s t ∧ SameSession s t ∧ SamePort s t

/-- R112: PIX_GET reads cell `y*32 + x` into `PIX_RDATA` in bounds, and fails with OUT_OF_BOUNDS and no other change out of bounds. -/
def Obligations.PixGetReadsTheCell : Prop :=
  (∀ s : State, s.pixX.toNat < 32 → s.pixY.toNat < 32 →
    ∃ t, exec .pixGet s = .next t ∧ Succeeded s t ∧ t.pixRdata = pixel s (s.pixY.toNat * 32 + s.pixX.toNat) ∧
      SameOperands s t ∧ SameGrid s t ∧ SamePalette s t ∧ SameFrame s t ∧ SameOut s t ∧ SameIn s t ∧ SameSession s t ∧
      SamePort s t) ∧
  ∀ s : State, 32 ≤ s.pixX.toNat ∨ 32 ≤ s.pixY.toNat →
    ∃ t, exec .pixGet s = .next t ∧ Failed .outOfBounds 0 t ∧ SameData s t ∧ SamePort s t

/-- R113: PIX_SET in bounds returns the previous colour of the cell and writes `PIX_WDATA` there and nowhere else; out of bounds it fails
with OUT_OF_BOUNDS and no other change. -/
def Obligations.PixSetSwapsTheCell : Prop :=
  (∀ s : State, s.pixX.toNat < 32 → s.pixY.toNat < 32 →
    ∃ t, exec .pixSet s = .next t ∧ Succeeded s t ∧ t.pixRdata = pixel s (s.pixY.toNat * 32 + s.pixX.toNat) ∧
      pixel t (s.pixY.toNat * 32 + s.pixX.toNat) = s.pixWdata ∧
      (∀ a, a ≠ s.pixY.toNat * 32 + s.pixX.toNat → pixel t a = pixel s a) ∧
      SameOperands s t ∧ SamePalette s t ∧ SameFrame s t ∧ SameOut s t ∧ SameIn s t ∧ SameSession s t ∧ SamePort s t) ∧
  ∀ s : State, 32 ≤ s.pixX.toNat ∨ 32 ≤ s.pixY.toNat →
    ∃ t, exec .pixSet s = .next t ∧ Failed .outOfBounds 0 t ∧ SameData s t ∧ SamePort s t

/-! ### Palette encoder -/

/-- R131: `bw(P)` is the least `b >= 1` with `2^b >= P`, and 1 to 10 for a palette of 1 to 1024 entries. -/
def Obligations.BitWidthIsLeast : Prop :=
  ∀ p : Nat, 1 ≤ p → 1 ≤ bw p ∧ p ≤ 2 ^ bw p ∧ (∀ b, 1 ≤ b → p ≤ 2 ^ b → bw p ≤ b) ∧ bw p = max 1 (Nat.clog 2 p) ∧
    (p ≤ 1024 → bw p ≤ 10)

/-- R135: the properties (a) to (h) of a palette stage, over every state's grid. -/
def Obligations.PaletteIsFirstOccurrenceOrder : Prop :=
  ∀ s : State,
    (1 ≤ (encodedGrid s).palette.length ∧ (encodedGrid s).palette.length ≤ 1024) ∧
    ((encodedGrid s).palette[0]? = some (pixel s 0) ∧ (encodedGrid s).indices[0]? = some 0) ∧
    ((encodedGrid s).palette.Nodup ∧ ∀ k, k ∈ (encodedGrid s).palette ↔ ∃ t < 1024, pixel s t = k) ∧
    ((encodedGrid s).palette.map (fun k => (gridKeys s).idxOf k)).Pairwise (· < ·) ∧
    ((encodedGrid s).indices.length = 1024 ∧
      ∀ t < 1024, ∃ i, (encodedGrid s).indices[t]? = some i ∧ i < (encodedGrid s).palette.length ∧
        (encodedGrid s).palette[i]? = some (pixel s t)) ∧
    (∀ t < 1024, ∃ i, (encodedGrid s).indices[t]? = some i ∧
      i ≤ (((encodedGrid s).indices.take t).map (· + 1)).foldr max 0) ∧
    (∀ s' : State, (∀ t < 1024, pixel s' t = pixel s t) → encodedGrid s' = encodedGrid s) ∧
    (s.palCapSel = false → paletteStage s = .ok (encodedGrid s)) ∧
    ((∃ p, paletteStage s = .error p) ↔ s.palCapSel = true ∧ 256 < (encodedGrid s).palette.length)

/-- R136, R133, R134: PALETTE_ENCODE within the cap stores the palette stage's results and changes nothing else; beyond it, it fails with the full
distinct count and leaves no readable palette. That the memories behind it are then as before, and in the first case the entries beyond the new
palette, is the model's choice (log entries 11 and 22). -/
def Obligations.PaletteEncodeStoresPalette : Prop :=
  (∀ s : State, (encodedGrid s).palette.length ≤ (if s.palCapSel then 256 else 1024) →
    ∃ t, exec .paletteEncode s = .next t ∧ Succeeded s t ∧ PaletteStored (encodedGrid s) s t ∧ SameOperands s t ∧
      t.pixRdata = s.pixRdata ∧ SameGrid s t ∧ SameFrame s t ∧ SameOut s t ∧ SameIn s t ∧ SameSession s t ∧ SamePort s t) ∧
  ∀ s : State, (if s.palCapSel then 256 else 1024) < (encodedGrid s).palette.length →
    ∃ t, exec .paletteEncode s = .next t ∧ Failed .paletteTooLarge (encodedGrid s).palette.length t ∧
      PaletteDropped s t ∧ SameOperands s t ∧ t.pixRdata = s.pixRdata ∧ SameGrid s t ∧ SameFrame s t ∧ SameOut s t ∧
      SameIn s t ∧ SameSession s t ∧ SamePort s t

/-! ### Bit packer -/

/-- R151: the closed form of the packer, bit by bit. -/
def Obligations.PackClosedForm : Prop :=
  ∀ (seq : List Nat) (width : Nat), 1 ≤ width → width ≤ 10 →
    ∀ j (h : j < (pack seq width).length), ∀ b < 8, (pack seq width)[j].getLsbD b =
      match seq[(8 * j + b) / width]? with
      | some v => (v % 2 ^ width).testBit ((8 * j + b) % width)
      | none => false

/-- R152: the packed length, and that 1024 symbols give exactly `128*bw` bytes. -/
def Obligations.PackedLength : Prop :=
  ∀ (seq : List Nat) (width : Nat), 1 ≤ width → width ≤ 10 →
    (pack seq width).length = (seq.length * width + 7) / 8 ∧
    (seq.length = 1024 → (pack seq width).length = 128 * width)

/-- R156: unpacking what was packed gives the sequence back. -/
def Obligations.UnpackOfPackIsIdentity : Prop :=
  ∀ (seq : List Nat) (width : Nat), 1 ≤ width → width ≤ 10 → (∀ v ∈ seq, v < 2 ^ width) →
    unpack (pack seq width) width seq.length = seq

/-! ### Frames -/

/-- R91, R171: the frame record of a grid, field by field, and its length. -/
def Obligations.FrameRecordLayout : Prop :=
  ∀ (s : State) (tc : BitVec 16) (r : Encoded) (f : List Byte), r = encodedGrid s → f = frameRecord tc r →
    f.length = 8 + 3 * r.palette.length + 128 * bw r.palette.length ∧ 139 ≤ f.length ∧ f.length ≤ 4360 ∧
    f[0]? = some 0xAA ∧
    f[1]? = some (BitVec.ofNat 8 f.length) ∧ f[2]? = some (BitVec.ofNat 8 (f.length / 256)) ∧
    f[3]? = some (BitVec.ofNat 8 tc.toNat) ∧ f[4]? = some (BitVec.ofNat 8 (tc.toNat / 256)) ∧
    f[5]? = some 0x03 ∧
    f[6]? = some (BitVec.ofNat 8 r.palette.length) ∧ f[7]? = some (BitVec.ofNat 8 (r.palette.length / 256)) ∧
    (∀ (i : Nat) (k : Key), r.palette[i]? = some k →
      f[8 + 3 * i]? = some (BitVec.ofNat 8 (k.toNat / 65536)) ∧
      f[8 + 3 * i + 1]? = some (BitVec.ofNat 8 (k.toNat / 256)) ∧
      f[8 + 3 * i + 2]? = some (BitVec.ofNat 8 k.toNat)) ∧
    f.drop (8 + 3 * r.palette.length) = pack r.indices (bw r.palette.length)

/-- R174: from the bytes of a frame record alone a reader recovers the palette length, the indices and the colour of every cell. -/
def Obligations.FrameIsSelfDescribing : Prop :=
  ∀ (s : State) (tc : BitVec 16) (f : List Byte), f = frameRecord tc (encodedGrid s) →
    ∃ p : Nat, p = (f.getD 6 0).toNat + 256 * (f.getD 7 0).toNat ∧ p = (encodedGrid s).palette.length ∧
      unpack (f.drop (8 + 3 * p)) (bw p) 1024 = (encodedGrid s).indices ∧
      ∀ t < 1024, ∃ i, (unpack (f.drop (8 + 3 * p)) (bw p) 1024)[t]? = some i ∧ i < p ∧
        (pixel s t).toNat = (f.getD (8 + 3 * i) 0).toNat * 65536 + (f.getD (8 + 3 * i + 1) 0).toNat * 256 +
          (f.getD (8 + 3 * i + 2) 0).toNat

/-- R173, R170: FRAME_BUILD within the cap stores the palette and the frame record with time code `ARG`, and changes nothing else; beyond it, it
fails with the distinct count and leaves no readable palette or frame. That the memories behind them are then as before, and in the first case
the entries and bytes beyond the new lengths, is the model's choice (log entries 11 and 22). -/
def Obligations.FrameBuildStoresFrame : Prop :=
  (∀ s : State, (encodedGrid s).palette.length ≤ (if s.palCapSel then 256 else 1024) →
    ∃ t, exec .frameBuild s = .next t ∧ Succeeded s t ∧ PaletteStored (encodedGrid s) s t ∧
      FrameStored (frameRecord s.arg (encodedGrid s)) s t ∧ SameOperands s t ∧ t.pixRdata = s.pixRdata ∧ SameGrid s t ∧
      SameOut s t ∧ SameIn s t ∧ SameSession s t ∧ SamePort s t) ∧
  ∀ s : State, (if s.palCapSel then 256 else 1024) < (encodedGrid s).palette.length →
    ∃ t, exec .frameBuild s = .next t ∧ Failed .paletteTooLarge (encodedGrid s).palette.length t ∧ PaletteDropped s t ∧
      FrameDropped s t ∧ SameOperands s t ∧ t.pixRdata = s.pixRdata ∧ SameGrid s t ∧ SameOut s t ∧ SameIn s t ∧
      SameSession s t ∧ SamePort s t

/-! ### Messages -/

/-- R90, R190, R191: the message envelope, byte by byte, with its additive checksum modulo 65536. -/
def Obligations.MessageEnvelope : Prop :=
  ∀ (p m : List Byte), p.length ≤ 65533 → m = message p →
    m.length = p.length + 6 ∧ m[0]? = some 0x01 ∧
    m[1]? = some (BitVec.ofNat 8 (p.length + 2)) ∧ m[2]? = some (BitVec.ofNat 8 ((p.length + 2) / 256)) ∧
    (∀ i < p.length, m[3 + i]? = p[i]?) ∧
    (∃ c, c = ((p.length + 2) % 256 + (p.length + 2) / 256 + (p.map (fun b => b.toNat)).sum) % 65536 ∧
      m[3 + p.length]? = some (BitVec.ofNat 8 c) ∧ m[4 + p.length]? = some (BitVec.ofNat 8 (c / 256))) ∧
    m[5 + p.length]? = some 0x02

/-- R195: the checksum does not depend on the order of the payload bytes, and `k` bytes 0xFF give `lo(k+2) + hi(k+2) + 255*k`
modulo 65536. -/
def Obligations.ChecksumIsAdditive : Prop :=
  (∀ p q : List Byte, p.Perm q → checksum (lengthField p) p = checksum (lengthField q) q) ∧
  ∀ k ≤ 65533, (checksum (lengthField (List.replicate k 0xFF)) (List.replicate k 0xFF)).toNat =
    ((k + 2) % 256 + (k + 2) / 256 + 255 * k) % 65536

/-- R193: MSG_RAW frames `IN[0..IN_LEN)` up to 4096 bytes; beyond, it fails with CAPACITY and leaves no readable message. That the bytes of `OUT`
beyond a shorter message are as before is the model's choice (log entry 22). -/
def Obligations.MsgRawFramesTheInput : Prop :=
  (∀ s : State, s.inLen.toNat ≤ 4096 →
    ∃ t, exec .msgRaw s = .next t ∧ Succeeded s t ∧ OutStored (message ((List.range s.inLen.toNat).map (inByte s))) s t ∧
      SameOperands s t ∧ t.pixRdata = s.pixRdata ∧ SameGrid s t ∧ SamePalette s t ∧ SameFrame s t ∧ SameIn s t ∧
      SameSession s t ∧ SamePort s t) ∧
  ∀ s : State, 4096 < s.inLen.toNat →
    ∃ t, exec .msgRaw s = .next t ∧ Failed .capacity 0 t ∧ OutDropped s t ∧ SameOperands s t ∧ t.pixRdata = s.pixRdata ∧
      SameGrid s t ∧ SamePalette s t ∧ SameFrame s t ∧ SameIn s t ∧ SameSession s t ∧ SamePort s t

/-- R240: MSG_BRIGHTNESS with a level up to 100 produces its eight bytes; beyond, it fails with OUT_OF_RANGE and leaves no readable message. That
the bytes of `OUT` beyond the eight are as before is the model's choice (log entry 22). -/
def Obligations.MsgBrightnessBytes : Prop :=
  (∀ s : State, s.arg.toNat ≤ 100 →
    ∃ t, exec .msgBrightness s = .next t ∧ Succeeded s t ∧
      OutStored [0x01, 0x04, 0x00, 0x74, BitVec.ofNat 8 s.arg.toNat, BitVec.ofNat 8 (120 + s.arg.toNat), 0x00, 0x02] s t ∧
      SameOperands s t ∧ t.pixRdata = s.pixRdata ∧ SameGrid s t ∧ SamePalette s t ∧ SameFrame s t ∧ SameIn s t ∧
      SameSession s t ∧ SamePort s t) ∧
  ∀ s : State, 100 < s.arg.toNat →
    ∃ t, exec .msgBrightness s = .next t ∧ Failed .outOfRange 0 t ∧ OutDropped s t ∧ SameOperands s t ∧
      t.pixRdata = s.pixRdata ∧ SameGrid s t ∧ SamePalette s t ∧ SameFrame s t ∧ SameIn s t ∧ SameSession s t ∧ SamePort s t

/-- R241: MSG_STATIC_IMAGE within the cap stores the palette, the frame of time code 0 and its message of 11 more bytes; beyond it, it fails with
the distinct count and leaves no readable palette, frame or message. That the memories behind them are then as before, and in the first case
the entries and bytes beyond the new lengths, is the model's choice (log entries 11 and 22). -/
def Obligations.MsgStaticImageStoresMessage : Prop :=
  (∀ s : State, (encodedGrid s).palette.length ≤ (if s.palCapSel then 256 else 1024) →
    ∃ t, exec .msgStaticImage s = .next t ∧ Succeeded s t ∧ PaletteStored (encodedGrid s) s t ∧
      FrameStored (frameRecord 0 (encodedGrid s)) s t ∧
      OutStored (message ([0x44, 0x00, 0x0A, 0x0A, 0x04] ++ frameRecord 0 (encodedGrid s))) s t ∧
      t.outLen.toNat = t.frameLen.toNat + 11 ∧
      SameOperands s t ∧ t.pixRdata = s.pixRdata ∧ SameGrid s t ∧ SameIn s t ∧ SameSession s t ∧ SamePort s t) ∧
  ∀ s : State, (if s.palCapSel then 256 else 1024) < (encodedGrid s).palette.length →
    ∃ t, exec .msgStaticImage s = .next t ∧ Failed .paletteTooLarge (encodedGrid s).palette.length t ∧
      PaletteDropped s t ∧ FrameDropped s t ∧ OutDropped s t ∧ SameOperands s t ∧ t.pixRdata = s.pixRdata ∧ SameGrid s t ∧
      SameIn s t ∧ SameSession s t ∧ SamePort s t

/-! ### Animation -/

/-- R211: ANIM_BEGIN opens or restarts a session in every state, latching `PERIOD` from `ARG`. That the discarded bytes of `ALLFRAMES` stay behind
`ANIM_LEN = 0` is the model's choice (log entry 15). -/
def Obligations.AnimBeginOpensSession : Prop :=
  ∀ s : State, ∃ t, exec .animBegin s = .next t ∧ Succeeded s t ∧ t.period = s.arg ∧ t.animLen = 0 ∧ t.frameCount = 0 ∧
    t.chunkCount = 0 ∧ t.chunkIdx = 0 ∧ t.animState = .collect ∧ (∀ j, animByte t j = animByte s j) ∧ SameOperands s t ∧
    t.pixRdata = s.pixRdata ∧ SameGrid s t ∧ SamePalette s t ∧ SameFrame s t ∧ SameOut s t ∧ SameIn s t ∧ SamePort s t

/-- R213, R212: ANIM_ADD_FRAME in COLLECT, with a time code that fits, a palette within the cap and room in the buffer, stores the frame of
time code `FRAME_COUNT * PERIOD` and appends it to `ALLFRAMES`. (`FRAME_COUNT + 1` wraps only in states no run reaches, log entry 13.) That
every entry and byte beyond the new lengths is as before is the model's choice (log entry 22). -/
def Obligations.AnimAddFrameAppends : Prop :=
  ∀ (s : State) (f : List Byte), s.animState = .collect → s.frameCount.toNat * s.period.toNat ≤ 65535 →
    (encodedGrid s).palette.length ≤ (if s.palCapSel then 256 else 1024) →
    f = frameRecord (BitVec.ofNat 16 (s.frameCount.toNat * s.period.toNat)) (encodedGrid s) →
    s.config.Legal → s.animLen.toNat + f.length ≤ s.config.animCap →
    ∃ t, exec .animAddFrame s = .next t ∧ Succeeded s t ∧ PaletteStored (encodedGrid s) s t ∧ FrameStored f s t ∧
      t.animLen.toNat = s.animLen.toNat + f.length ∧
      (∀ j (h : j < f.length), animByte t (s.animLen.toNat + j) = f[j]) ∧
      (∀ j, j < s.animLen.toNat ∨ s.animLen.toNat + f.length ≤ j → animByte t j = animByte s j) ∧
      t.frameCount = s.frameCount + 1 ∧ t.animState = .collect ∧ t.period = s.period ∧ t.chunkCount = s.chunkCount ∧
      t.chunkIdx = s.chunkIdx ∧ SameOperands s t ∧ t.pixRdata = s.pixRdata ∧ SameGrid s t ∧ SameOut s t ∧ SameIn s t ∧
      SamePort s t

/-- R213, R272, R276: the errors of ANIM_ADD_FRAME in their order, what each drops, and that each but SEQUENCE aborts the session. That the
memories behind a dropped palette, frame and session are as before is the model's choice (log entries 11 and 15). -/
def Obligations.AnimAddFrameErrors : Prop :=
  ∀ (s : State) (f : List Byte),
    f = frameRecord (BitVec.ofNat 16 (s.frameCount.toNat * s.period.toNat)) (encodedGrid s) →
    (s.animState ≠ .collect →
      ∃ t, exec .animAddFrame s = .next t ∧ Failed .sequence 0 t ∧ SameData s t ∧ SamePort s t) ∧
    (s.animState = .collect → 65535 < s.frameCount.toNat * s.period.toNat →
      ∃ t, exec .animAddFrame s = .next t ∧ Failed .fieldOverflow 0 t ∧ Aborted s t ∧ SamePalette s t ∧ SameFrame s t ∧
        SameOperands s t ∧ t.pixRdata = s.pixRdata ∧ SameGrid s t ∧ SameOut s t ∧ SameIn s t ∧ SamePort s t) ∧
    (s.animState = .collect → s.frameCount.toNat * s.period.toNat ≤ 65535 →
      (if s.palCapSel then 256 else 1024) < (encodedGrid s).palette.length →
      ∃ t, exec .animAddFrame s = .next t ∧ Failed .paletteTooLarge (encodedGrid s).palette.length t ∧ Aborted s t ∧
        PaletteDropped s t ∧ FrameDropped s t ∧ SameOperands s t ∧ t.pixRdata = s.pixRdata ∧ SameGrid s t ∧ SameOut s t ∧
        SameIn s t ∧ SamePort s t) ∧
    (s.animState = .collect → s.frameCount.toNat * s.period.toNat ≤ 65535 →
      (encodedGrid s).palette.length ≤ (if s.palCapSel then 256 else 1024) →
      s.config.animCap < s.animLen.toNat + f.length →
      ∃ t, exec .animAddFrame s = .next t ∧ Failed .capacity 0 t ∧ Aborted s t ∧ PaletteDropped s t ∧ FrameDropped s t ∧
        SameOperands s t ∧ t.pixRdata = s.pixRdata ∧ SameGrid s t ∧ SameOut s t ∧ SameIn s t ∧ SamePort s t)

/-- R214: ANIM_END in COLLECT fixes the chunk count and goes to EMIT, or to IDLE for no chunk; elsewhere it fails with SEQUENCE and no other
change. -/
def Obligations.AnimEndFixesChunkCount : Prop :=
  (∀ s : State, s.animState = .collect →
    ∃ t, exec .animEnd s = .next t ∧ Succeeded s t ∧ t.chunkCount.toNat = (s.animLen.toNat + 199) / 200 ∧
      t.chunkIdx = 0 ∧ t.animState = (if s.animLen = 0 then .idle else .emit) ∧ t.animLen = s.animLen ∧
      t.frameCount = s.frameCount ∧ t.period = s.period ∧ (∀ j, animByte t j = animByte s j) ∧ SameOperands s t ∧
      t.pixRdata = s.pixRdata ∧ SameGrid s t ∧ SamePalette s t ∧ SameFrame s t ∧ SameOut s t ∧ SameIn s t ∧ SamePort s t) ∧
  ∀ s : State, s.animState ≠ .collect →
    ∃ t, exec .animEnd s = .next t ∧ Failed .sequence 0 t ∧ SameData s t ∧ SamePort s t

/-- R217, R215: ANIM_NEXT_CHUNK in EMIT, where the chunk index is below the chunk count (an invariant), stores the message of the chunk,
advances the index, and goes to IDLE after the last chunk. (The index byte drops bits only in states no run reaches, log entry 13.) That the
bytes of `OUT` beyond a shorter message are as before is the model's choice (log entry 22). -/
def Obligations.AnimNextChunkEmits : Prop :=
  ∀ (s : State) (i : Nat), s.animState = .emit → i = s.chunkIdx.toNat → i < s.chunkCount.toNat →
    ∃ t, exec .animNextChunk s = .next t ∧ Succeeded s t ∧
      OutStored (message ([0x49, BitVec.ofNat 8 s.animLen.toNat, BitVec.ofNat 8 (s.animLen.toNat / 256), BitVec.ofNat 8 i] ++
        (List.range' (i * 200) (min s.animLen.toNat ((i + 1) * 200) - i * 200)).map (animByte s))) s t ∧
      t.chunkIdx.toNat = i + 1 ∧ t.animState = (if i + 1 = s.chunkCount.toNat then .idle else .emit) ∧
      t.animLen = s.animLen ∧ t.frameCount = s.frameCount ∧ t.period = s.period ∧ t.chunkCount = s.chunkCount ∧
      (∀ j, animByte t j = animByte s j) ∧ SameOperands s t ∧ t.pixRdata = s.pixRdata ∧ SameGrid s t ∧ SamePalette s t ∧
      SameFrame s t ∧ SameIn s t ∧ SamePort s t

/-- R217, R276 (a): ANIM_NEXT_CHUNK outside EMIT fails with SEQUENCE and leaves no readable message (the model's reading against R210, log
entry 12). -/
def Obligations.AnimNextChunkOutOfSequence : Prop :=
  ∀ s : State, s.animState ≠ .emit →
    ∃ t, exec .animNextChunk s = .next t ∧ Failed .sequence 0 t ∧ OutDropped s t ∧ SameOperands s t ∧
      t.pixRdata = s.pixRdata ∧ SameGrid s t ∧ SamePalette s t ∧ SameFrame s t ∧ SameIn s t ∧ SameSession s t ∧ SamePort s t

/-- R218: the runs of ANIM_NEXT_CHUNK from a session just ended give `CHUNK_COUNT` messages whose slices, without envelope, command byte and
3-byte chunk header, concatenate to `ALLFRAMES[0..ANIM_LEN)`; the indices are 0, 1, ... in order, and the session is over. -/
def Obligations.ChunksReassembleTheAnimation : Prop :=
  ∀ s : State, SessionInv s → s.animState = .emit → s.chunkIdx = 0 →
    (runChunks s.chunkCount.toNat s).1.length = s.chunkCount.toNat ∧
    (runChunks s.chunkCount.toNat s).1.flatMap sliceOfMessage = (List.range s.animLen.toNat).map (animByte s) ∧
    (∀ i < s.chunkCount.toNat, ∃ m, (runChunks s.chunkCount.toNat s).1[i]? = some m ∧
      (m[6]?).map (fun b => b.toNat) = some i) ∧
    (runChunks s.chunkCount.toNat s).2.animState = .idle

/-! ### The whole machine -/

/-- R54, R72: no command but SOFT_RESET changes an operand register or `IN`, and none changes `OVERRUN`. -/
def Obligations.CommandsKeepHostOwnedState : Prop :=
  ∀ (i : Instr) (s t : State), i ≠ .softReset → exec i s = .next t → SameOperands s t ∧ SameIn s t ∧ SamePort s t

/-- R54: no host write, at any offset and of any value, changes a result register or a result memory. -/
def Obligations.HostWritesKeepResults : Prop :=
  ∀ (s t : State) (o : BitVec 16) (v : Word) (rest : List Turn), s.turns = .host ⟨32, o, .write v⟩ :: rest →
    step s = .next t → t.pixRdata = s.pixRdata ∧ SameGrid s t ∧ SamePalette s t ∧ SameFrame s t ∧ SameOut s t ∧ SameSession s t

/-- R44, R39, R43, R219, R40, R38: no command but SOFT_RESET writes a result that is not its class's. -/
def Obligations.CommandsWriteOnlyTheirClass : Prop :=
  ∀ (i : Instr) (s t : State), i ≠ .softReset → exec i s = .next t →
    (i ∉ [.msgRaw, .msgBrightness, .msgStaticImage, .animNextChunk] → SameOut s t) ∧
    (i ∉ [.paletteEncode, .frameBuild, .msgStaticImage, .animAddFrame] → SamePalette s t) ∧
    (i ∉ [.frameBuild, .msgStaticImage, .animAddFrame] → SameFrame s t) ∧
    (i ∉ [.animBegin, .animAddFrame, .animEnd, .animNextChunk] → SameSession s t) ∧
    (i ∉ [.gridClear, .pixSet] → SameGrid s t) ∧
    (i ∉ [.pixGet, .pixSet] → t.pixRdata = s.pixRdata)

/-- R273, R276 (d): a command that fails leaves every memory, the operands and `PIX_RDATA` as they were (for `PALMEM` and `IDXMEM` of a failed
palette stage and `ALLFRAMES` of an aborted session this is the model's choice, log entries 11 and 15). -/
def Obligations.FailedCommandsKeepMemories : Prop :=
  ∀ (i : Instr) (s t : State), s.err = false → exec i s = .next t → t.err = true →
    SameOperands s t ∧ t.pixRdata = s.pixRdata ∧ SameGrid s t ∧ SameIn s t ∧ (∀ a, palEntry t a = palEntry s a) ∧
      (∀ a, idxEntry t a = idxEntry s a) ∧ (∀ a, frameByte t a = frameByte s a) ∧ (∀ a, outByte t a = outByte s a) ∧
      (∀ a, animByte t a = animByte s a) ∧ t.period = s.period

/-- R83, R321: with the engine's turn next, listed or not, a pending word, whatever it is, completes in one step: `BUSY` falls, nothing is
pending, and exactly one of `DONE` and `ERR` is set. -/
def Obligations.PendingCommandCompletes : Prop :=
  ∀ (s : State) (w : Word), s.rst = false → (s.turns = [] ∨ ∃ rest, s.turns = .engine :: rest) → s.pending = some w →
    s.done = false → s.err = false →
    ∃ t, step s = .next t ∧ t.busy = false ∧ t.pending = none ∧ (t.done = true ↔ t.err = false)

/-- R278: a write dropped while busy does not disturb the pending command, which completes as if the write had not happened, with `OVERRUN`
set (but by SOFT_RESET, which clears it). -/
def Obligations.DroppedWriteDoesNotDisturbCommand : Prop :=
  ∀ (i : Instr) (s t : State), exec i s = .next t →
    exec i { s with overrun := true } = .next (if i = .softReset then t else { t with overrun := true })

/-- R279 (b): a write of `ARG` and the completion of the pending command may come in either order: before the completion the write is
dropped with `OVERRUN`, after it the write is performed. -/
def Obligations.WriteAndCompletionInEitherOrder : Prop :=
  ∀ (s t : State) (i : Instr) (v : Word), s.rst = false → s.busy = true → s.pending = some (encode i) → i ≠ .softReset →
    exec i { s with turns := [] } = .next t →
    (s.turns = [.host ⟨32, 0x00C, .write v⟩, .engine] →
      ∃ a b, step s = .next a ∧ step a = .next b ∧ b = { t with overrun := true }) ∧
    (s.turns = [.engine, .host ⟨32, 0x00C, .write v⟩] →
      ∃ a b, step s = .next a ∧ step a = .next b ∧ b = { t with arg := v.extractLsb' 0 16 })

/-! ### Invariants -/

/-- R26-R28, R34, R35, R52, R270, R300: the status protocol is kept by every step: `BUSY` exactly while a command is pending, never `DONE` and
`ERR` together, `ERR` exactly with a code, no code above 7, and no busy block under reset. -/
def Obligations.StatusProtocolIsInvariant : Prop :=
  ∀ s t : State, StatusInv s → step s = .next t → StatusInv t

/-- R39, R42: the palette registers are kept consistent by every step: `PAL_LEN` at most 1024, `BITWIDTH = bw(PAL_LEN)` or both 0, every index
below `PAL_LEN`. -/
def Obligations.PaletteRegistersAreInvariant : Prop :=
  ∀ s t : State, PaletteInv s → step s = .next t → PaletteInv t

/-- R10, R43, R44: a readable frame is always 139 to 4360 bytes and a readable message 6 to 4371. -/
def Obligations.ReadableLengthsAreInvariant : Prop :=
  ∀ s t : State, LengthInv s → step s = .next t → LengthInv t

/-- R46, R49, R210, R216, R220: the session registers are kept consistent by every step: `ANIM_LEN <= ANIM_CAP`, `CHUNK_IDX <= CHUNK_COUNT <= 256`,
and what each session state says of them. -/
def Obligations.SessionIsInvariant : Prop :=
  ∀ s t : State, SessionInv s → step s = .next t → SessionInv t

/-- R40-R46: every memory keeps its canonical form, with no cell beyond its size. -/
def Obligations.MemoryFormIsInvariant : Prop :=
  ∀ s t : State, Memory.wf s → step s = .next t → Memory.wf t

/-- The invariants hold in the reset state. -/
def Obligations.InvariantsHoldAtReset : Prop :=
  StatusInv State.reset ∧ PaletteInv State.reset ∧ LengthInv State.reset ∧ SessionInv State.reset ∧ Memory.wf State.reset
end

