-- ==== Sys2Proof/Laws/BitPacker.lean ====
section
/-! SUPPORT. What the packer's loops give: the bytes of one number. -/

namespace Sys2Proof.Machine

/-- The `n` low bytes of a number, lowest first. -/
def natBytes (v n : Nat) : List Byte := (List.range n).map (fun j => BitVec.ofNat 8 (v >>> (8 * j)))

@[simp] theorem natBytes_length (v n : Nat) : (natBytes v n).length = n := by simp [natBytes]

theorem natBytes_zero (v : Nat) : natBytes v 0 = [] := rfl

theorem natBytes_add (v m n : Nat) : natBytes v (m + n) = natBytes v m ++ natBytes (v >>> (8 * m)) n := by
  simp only [natBytes, List.range_add, List.map_append, List.map_map]
  congr 1
  apply List.map_congr_left
  intro j _
  simp only [Function.comp, ← Nat.shiftRight_add, Nat.mul_add]

theorem natBytes_succ (v n : Nat) : natBytes v (n + 1) = BitVec.ofNat 8 v :: natBytes (v >>> 8) n := by
  rw [Nat.add_comm, natBytes_add]; simp [natBytes]

/-- Bytes below bit `8 * n` do not see what lies at or above it. -/
theorem natBytes_congr {v v' n : Nat} (h : v % 2 ^ (8 * n) = v' % 2 ^ (8 * n)) : natBytes v n = natBytes v' n := by
  apply List.map_congr_left
  intro j hj
  have hj : j < n := List.mem_range.mp hj
  apply BitVec.eq_of_getLsbD_eq
  intro i hi
  have e : ∀ x : Nat, (x % 2 ^ (8 * n)).testBit (8 * j + i) = x.testBit (8 * j + i) := by
    intro x; rw [Nat.testBit_mod_two_pow]; simp; intro h; omega
  have := congrArg (fun x => x.testBit (8 * j + i)) h
  simp only [e] at this
  simpa [BitVec.getLsbD_ofNat, hi, Nat.testBit_shiftRight, ← BitVec.getLsbD_eq_getElem] using this

theorem natBytes_getElem (v n j : Nat) (h : j < (natBytes v n).length) :
    (natBytes v n)[j] = BitVec.ofNat 8 (v >>> (8 * j)) := by simp [natBytes]

/-- The number whose bits are the stream of a sequence: symbol `t` from bit `t * bw` on. -/
def streamValue (bw : Nat) : List Nat → Nat
  | [] => 0
  | v :: vs => v % 2 ^ bw + 2 ^ bw * streamValue bw vs

/-- Everything the inner loop does: it emits the whole bytes held and keeps the rest. -/
theorem drain_spec (fuel : Nat) (acc : BitVec 16) (held : Nat) (hf : held ≤ fuel) :
    drain fuel acc held = (natBytes acc.toNat (held / 8), acc >>> (8 * (held / 8)), held % 8) := by
  induction fuel generalizing acc held with
  | zero => obtain rfl : held = 0 := by omega
            simp [drain, natBytes_zero]
  | succ n ih =>
    by_cases h : 8 ≤ held
    · have e1 : held / 8 = (held - 8) / 8 + 1 := by omega
      have e2 : held % 8 = (held - 8) % 8 := by omega
      rw [drain, if_pos h, ih _ _ (by omega), e1, e2, natBytes_succ]
      refine Prod.ext ?_ (Prod.ext ?_ rfl)
      · simp only [BitVec.toNat_ushiftRight]
        congr 1
      · simp only [Nat.mul_add, Nat.mul_one, ← BitVec.shiftRight_add]
        rw [Nat.add_comm]
    · have e1 : held / 8 = 0 := by omega
      have e2 : held % 8 = held := by omega
      rw [drain, if_neg h, e1, e2]
      simp [natBytes_zero]

theorem add_two_pow_mul_mod {a b m n : Nat} (h : m ≤ n) : (a + 2 ^ n * b) % 2 ^ m = a % 2 ^ m := by
  obtain ⟨d, rfl⟩ := Nat.exists_eq_add_of_le h
  rw [Nat.pow_add, Nat.mul_assoc, Nat.add_mul_mod_self_left]

theorem add_two_pow_mul_shiftRight {a b m n : Nat} (h : m ≤ n) :
    (a + 2 ^ n * b) >>> m = a >>> m + 2 ^ (n - m) * b := by
  obtain ⟨d, rfl⟩ := Nat.exists_eq_add_of_le h
  rw [Nat.shiftRight_eq_div_pow, Nat.shiftRight_eq_div_pow, Nat.pow_add, Nat.mul_assoc,
    Nat.add_mul_div_left _ _ (Nat.two_pow_pos m), Nat.add_sub_cancel_left]

/-- Everything the outer loop does (R150) from a legal accumulator on: the bytes of the held bits with the stream above them. The
accumulator never loses a bit because `held + bw <= 16` (R153): for width 10 the held count is always even. -/
theorem packFrom_spec (bw : Nat) (hb : bw ≤ 10) (vs : List Nat) (acc : BitVec 16) (held : Nat) (hh : held < 8)
    (heven : bw = 10 → held % 2 = 0) (hacc : acc.toNat < 2 ^ held) :
    packFrom bw vs acc held =
      natBytes (acc.toNat + 2 ^ held * streamValue bw vs) ((held + bw * vs.length + 7) / 8) := by
  induction vs generalizing acc held with
  | nil =>
    by_cases h : 0 < held
    · have e : (held + bw * ([] : List Nat).length + 7) / 8 = 0 + 1 := by simp; omega
      rw [packFrom, if_pos h, e, natBytes_succ, natBytes_zero]
      congr 1
    · obtain rfl : held = 0 := by omega
      simp [packFrom, natBytes_zero]
  | cons v vs ih =>
    have hsum : held + bw ≤ 16 := by
      rcases Nat.lt_or_eq_of_le hb with h | h
      · omega
      · have := heven h; omega
    have hv : v % 2 ^ bw < 2 ^ bw := Nat.mod_lt _ (Nat.two_pow_pos bw)
    have hlt : acc.toNat + 2 ^ held * (v % 2 ^ bw) < 2 ^ (held + bw) := by
      rw [Nat.pow_add]
      calc acc.toNat + 2 ^ held * (v % 2 ^ bw) < 2 ^ held + 2 ^ held * (v % 2 ^ bw) := by omega
        _ = 2 ^ held * (v % 2 ^ bw + 1) := by ring
        _ ≤ 2 ^ held * 2 ^ bw := Nat.mul_le_mul_left _ hv
    have hlt16 : acc.toNat + 2 ^ held * (v % 2 ^ bw) < 2 ^ 16 :=
      lt_of_lt_of_le hlt (Nat.pow_le_pow_right (by omega) hsum)
    have hacc' : (acc ||| (BitVec.ofNat 16 (v % 2 ^ bw) <<< held)).toNat = acc.toNat + 2 ^ held * (v % 2 ^ bw) := by
      have h1 : v % 2 ^ bw < 2 ^ 16 := lt_of_lt_of_le hv (Nat.pow_le_pow_right (by omega) (by omega))
      have h2 : 2 ^ held * (v % 2 ^ bw) < 2 ^ 16 := by omega
      rw [BitVec.toNat_or, BitVec.toNat_shiftLeft, BitVec.toNat_ofNat, Nat.mod_eq_of_lt h1, Nat.shiftLeft_eq,
        Nat.mul_comm _ (2 ^ held), Nat.mod_eq_of_lt h2, Nat.lor_comm, Nat.add_comm]
      exact (Nat.two_pow_add_eq_or_of_lt hacc _).symm
    simp only [packFrom, drain_spec _ _ _ le_rfl]
    have hk : 8 * ((held + bw) / 8) ≤ held + bw := by omega
    have hrest : ((acc ||| (BitVec.ofNat 16 (v % 2 ^ bw) <<< held)) >>> (8 * ((held + bw) / 8))).toNat
        = (acc.toNat + 2 ^ held * (v % 2 ^ bw)) >>> (8 * ((held + bw) / 8)) := by
      rw [BitVec.toNat_ushiftRight, hacc']
    have hsmall : (acc.toNat + 2 ^ held * (v % 2 ^ bw)) >>> (8 * ((held + bw) / 8)) < 2 ^ ((held + bw) % 8) := by
      rw [Nat.shiftRight_eq_div_pow, Nat.div_lt_iff_lt_mul (Nat.two_pow_pos _), ← Nat.pow_add]
      rw [show (held + bw) % 8 + 8 * ((held + bw) / 8) = held + bw by omega]
      exact hlt
    rw [ih _ _ (Nat.mod_lt _ (by omega)) (by intro h; have := heven h; omega) (by rw [hrest]; exact hsmall), hrest, hacc']
    have hN : acc.toNat + 2 ^ held * streamValue bw (v :: vs)
        = (acc.toNat + 2 ^ held * (v % 2 ^ bw)) + 2 ^ (held + bw) * streamValue bw vs := by
      rw [streamValue, Nat.pow_add]; ring
    have hlen : (held + bw * (v :: vs).length + 7) / 8
        = (held + bw) / 8 + ((held + bw) % 8 + bw * vs.length + 7) / 8 := by
      rw [List.length_cons, Nat.mul_succ]; omega
    rw [hN, hlen, natBytes_add]
    congr 1
    · exact natBytes_congr (add_two_pow_mul_mod hk).symm
    · rw [add_two_pow_mul_shiftRight hk, show held + bw - 8 * ((held + bw) / 8) = (held + bw) % 8 by omega]

/-- The packed bytes are the bytes of the stream's number. -/
theorem pack_eq_natBytes (seq : List Nat) (bw : Nat) (hb : bw ≤ 10) :
    pack seq bw = natBytes (streamValue bw seq) ((bw * seq.length + 7) / 8) := by
  rw [pack, packFrom_spec bw hb seq 0 0 (by omega) (by simp) (by simp)]
  simp

theorem streamValue_testBit (bw : Nat) (hb : 1 ≤ bw) (seq : List Nat) (s : Nat) :
    (streamValue bw seq).testBit s = streamBit seq bw s := by
  induction seq generalizing s with
  | nil => simp [streamValue, streamBit]
  | cons v vs ih =>
    have hv : v % 2 ^ bw < 2 ^ bw := Nat.mod_lt _ (Nat.two_pow_pos bw)
    rw [streamValue, Nat.add_comm, Nat.testBit_two_pow_mul_add _ hv]
    by_cases h : s < bw
    · simp [h, streamBit, Nat.div_eq_of_lt h, Nat.mod_eq_of_lt h]
    · have h' : bw ≤ s := by omega
      have e1 : s / bw = (s - bw) / bw + 1 := by
        rw [Nat.div_eq_sub_div (by omega) h']
      have e2 : s % bw = (s - bw) % bw := Nat.mod_eq_sub_mod h'
      rw [if_neg h, ih, streamBit, streamBit, e1, e2]
      simp

end Sys2Proof.Machine
end

