-- ==== Sys2Proof/Laws/State.lean ====
section
/-! SUPPORT. What each named update of the state does to each field, true by unfolding the update once. -/

namespace Sys2Proof.Machine

/-! ### accept -/

@[simp] theorem accept_palCapSel (w : Word) (s : State) : (accept w s).palCapSel = s.palCapSel := rfl
@[simp] theorem accept_busy (w : Word) (s : State) : (accept w s).busy = true := rfl
@[simp] theorem accept_done (w : Word) (s : State) : (accept w s).done = false := rfl
@[simp] theorem accept_err (w : Word) (s : State) : (accept w s).err = false := rfl
@[simp] theorem accept_overrun (w : Word) (s : State) : (accept w s).overrun = s.overrun := rfl
@[simp] theorem accept_animState (w : Word) (s : State) : (accept w s).animState = s.animState := rfl
@[simp] theorem accept_arg (w : Word) (s : State) : (accept w s).arg = s.arg := rfl
@[simp] theorem accept_errCode (w : Word) (s : State) : (accept w s).errCode = 0 := rfl
@[simp] theorem accept_errInfo (w : Word) (s : State) : (accept w s).errInfo = 0 := rfl
@[simp] theorem accept_pixX (w : Word) (s : State) : (accept w s).pixX = s.pixX := rfl
@[simp] theorem accept_pixY (w : Word) (s : State) : (accept w s).pixY = s.pixY := rfl
@[simp] theorem accept_pixWdata (w : Word) (s : State) : (accept w s).pixWdata = s.pixWdata := rfl
@[simp] theorem accept_pixRdata (w : Word) (s : State) : (accept w s).pixRdata = s.pixRdata := rfl
@[simp] theorem accept_palLen (w : Word) (s : State) : (accept w s).palLen = s.palLen := rfl
@[simp] theorem accept_bitWidth (w : Word) (s : State) : (accept w s).bitWidth = s.bitWidth := rfl
@[simp] theorem accept_frameLen (w : Word) (s : State) : (accept w s).frameLen = s.frameLen := rfl
@[simp] theorem accept_outLen (w : Word) (s : State) : (accept w s).outLen = s.outLen := rfl
@[simp] theorem accept_inLen (w : Word) (s : State) : (accept w s).inLen = s.inLen := rfl
@[simp] theorem accept_animLen (w : Word) (s : State) : (accept w s).animLen = s.animLen := rfl
@[simp] theorem accept_frameCount (w : Word) (s : State) : (accept w s).frameCount = s.frameCount := rfl
@[simp] theorem accept_period (w : Word) (s : State) : (accept w s).period = s.period := rfl
@[simp] theorem accept_chunkCount (w : Word) (s : State) : (accept w s).chunkCount = s.chunkCount := rfl
@[simp] theorem accept_chunkIdx (w : Word) (s : State) : (accept w s).chunkIdx = s.chunkIdx := rfl
@[simp] theorem accept_pixmem (w : Word) (s : State) : (accept w s).pixmem = s.pixmem := rfl
@[simp] theorem accept_palmem (w : Word) (s : State) : (accept w s).palmem = s.palmem := rfl
@[simp] theorem accept_idxmem (w : Word) (s : State) : (accept w s).idxmem = s.idxmem := rfl
@[simp] theorem accept_framebuf (w : Word) (s : State) : (accept w s).framebuf = s.framebuf := rfl
@[simp] theorem accept_out (w : Word) (s : State) : (accept w s).out = s.out := rfl
@[simp] theorem accept_inbuf (w : Word) (s : State) : (accept w s).inbuf = s.inbuf := rfl
@[simp] theorem accept_allframes (w : Word) (s : State) : (accept w s).allframes = s.allframes := rfl
@[simp] theorem accept_pending (w : Word) (s : State) : (accept w s).pending = some w := rfl
@[simp] theorem accept_rst (w : Word) (s : State) : (accept w s).rst = s.rst := rfl
@[simp] theorem accept_config (w : Word) (s : State) : (accept w s).config = s.config := rfl
@[simp] theorem accept_turns (w : Word) (s : State) : (accept w s).turns = s.turns := rfl
@[simp] theorem accept_rdata (w : Word) (s : State) : (accept w s).rdata = s.rdata := rfl
@[simp] theorem accept_powerOns (w : Word) (s : State) : (accept w s).powerOns = s.powerOns := rfl
@[simp] theorem accept_draws (w : Word) (s : State) : (accept w s).draws = s.draws := rfl

/-! ### complete -/

@[simp] theorem complete_palCapSel (s : State) : (complete s).palCapSel = s.palCapSel := rfl
@[simp] theorem complete_busy (s : State) : (complete s).busy = false := rfl
@[simp] theorem complete_done (s : State) : (complete s).done = true := rfl
@[simp] theorem complete_err (s : State) : (complete s).err = s.err := rfl
@[simp] theorem complete_overrun (s : State) : (complete s).overrun = s.overrun := rfl
@[simp] theorem complete_animState (s : State) : (complete s).animState = s.animState := rfl
@[simp] theorem complete_arg (s : State) : (complete s).arg = s.arg := rfl
@[simp] theorem complete_errCode (s : State) : (complete s).errCode = s.errCode := rfl
@[simp] theorem complete_errInfo (s : State) : (complete s).errInfo = s.errInfo := rfl
@[simp] theorem complete_pixX (s : State) : (complete s).pixX = s.pixX := rfl
@[simp] theorem complete_pixY (s : State) : (complete s).pixY = s.pixY := rfl
@[simp] theorem complete_pixWdata (s : State) : (complete s).pixWdata = s.pixWdata := rfl
@[simp] theorem complete_pixRdata (s : State) : (complete s).pixRdata = s.pixRdata := rfl
@[simp] theorem complete_palLen (s : State) : (complete s).palLen = s.palLen := rfl
@[simp] theorem complete_bitWidth (s : State) : (complete s).bitWidth = s.bitWidth := rfl
@[simp] theorem complete_frameLen (s : State) : (complete s).frameLen = s.frameLen := rfl
@[simp] theorem complete_outLen (s : State) : (complete s).outLen = s.outLen := rfl
@[simp] theorem complete_inLen (s : State) : (complete s).inLen = s.inLen := rfl
@[simp] theorem complete_animLen (s : State) : (complete s).animLen = s.animLen := rfl
@[simp] theorem complete_frameCount (s : State) : (complete s).frameCount = s.frameCount := rfl
@[simp] theorem complete_period (s : State) : (complete s).period = s.period := rfl
@[simp] theorem complete_chunkCount (s : State) : (complete s).chunkCount = s.chunkCount := rfl
@[simp] theorem complete_chunkIdx (s : State) : (complete s).chunkIdx = s.chunkIdx := rfl
@[simp] theorem complete_pixmem (s : State) : (complete s).pixmem = s.pixmem := rfl
@[simp] theorem complete_palmem (s : State) : (complete s).palmem = s.palmem := rfl
@[simp] theorem complete_idxmem (s : State) : (complete s).idxmem = s.idxmem := rfl
@[simp] theorem complete_framebuf (s : State) : (complete s).framebuf = s.framebuf := rfl
@[simp] theorem complete_out (s : State) : (complete s).out = s.out := rfl
@[simp] theorem complete_inbuf (s : State) : (complete s).inbuf = s.inbuf := rfl
@[simp] theorem complete_allframes (s : State) : (complete s).allframes = s.allframes := rfl
@[simp] theorem complete_pending (s : State) : (complete s).pending = none := rfl
@[simp] theorem complete_rst (s : State) : (complete s).rst = s.rst := rfl
@[simp] theorem complete_config (s : State) : (complete s).config = s.config := rfl
@[simp] theorem complete_turns (s : State) : (complete s).turns = s.turns := rfl
@[simp] theorem complete_rdata (s : State) : (complete s).rdata = s.rdata := rfl
@[simp] theorem complete_powerOns (s : State) : (complete s).powerOns = s.powerOns := rfl
@[simp] theorem complete_draws (s : State) : (complete s).draws = s.draws := rfl

/-! ### storeOut -/

@[simp] theorem storeOut_palCapSel (m : List Byte) (s : State) : (storeOut m s).palCapSel = s.palCapSel := rfl
@[simp] theorem storeOut_busy (m : List Byte) (s : State) : (storeOut m s).busy = s.busy := rfl
@[simp] theorem storeOut_done (m : List Byte) (s : State) : (storeOut m s).done = s.done := rfl
@[simp] theorem storeOut_err (m : List Byte) (s : State) : (storeOut m s).err = s.err := rfl
@[simp] theorem storeOut_overrun (m : List Byte) (s : State) : (storeOut m s).overrun = s.overrun := rfl
@[simp] theorem storeOut_animState (m : List Byte) (s : State) : (storeOut m s).animState = s.animState := rfl
@[simp] theorem storeOut_arg (m : List Byte) (s : State) : (storeOut m s).arg = s.arg := rfl
@[simp] theorem storeOut_errCode (m : List Byte) (s : State) : (storeOut m s).errCode = s.errCode := rfl
@[simp] theorem storeOut_errInfo (m : List Byte) (s : State) : (storeOut m s).errInfo = s.errInfo := rfl
@[simp] theorem storeOut_pixX (m : List Byte) (s : State) : (storeOut m s).pixX = s.pixX := rfl
@[simp] theorem storeOut_pixY (m : List Byte) (s : State) : (storeOut m s).pixY = s.pixY := rfl
@[simp] theorem storeOut_pixWdata (m : List Byte) (s : State) : (storeOut m s).pixWdata = s.pixWdata := rfl
@[simp] theorem storeOut_pixRdata (m : List Byte) (s : State) : (storeOut m s).pixRdata = s.pixRdata := rfl
@[simp] theorem storeOut_palLen (m : List Byte) (s : State) : (storeOut m s).palLen = s.palLen := rfl
@[simp] theorem storeOut_bitWidth (m : List Byte) (s : State) : (storeOut m s).bitWidth = s.bitWidth := rfl
@[simp] theorem storeOut_frameLen (m : List Byte) (s : State) : (storeOut m s).frameLen = s.frameLen := rfl
@[simp] theorem storeOut_outLen (m : List Byte) (s : State) : (storeOut m s).outLen = BitVec.ofNat 16 m.length := rfl
@[simp] theorem storeOut_inLen (m : List Byte) (s : State) : (storeOut m s).inLen = s.inLen := rfl
@[simp] theorem storeOut_animLen (m : List Byte) (s : State) : (storeOut m s).animLen = s.animLen := rfl
@[simp] theorem storeOut_frameCount (m : List Byte) (s : State) : (storeOut m s).frameCount = s.frameCount := rfl
@[simp] theorem storeOut_period (m : List Byte) (s : State) : (storeOut m s).period = s.period := rfl
@[simp] theorem storeOut_chunkCount (m : List Byte) (s : State) : (storeOut m s).chunkCount = s.chunkCount := rfl
@[simp] theorem storeOut_chunkIdx (m : List Byte) (s : State) : (storeOut m s).chunkIdx = s.chunkIdx := rfl
@[simp] theorem storeOut_pixmem (m : List Byte) (s : State) : (storeOut m s).pixmem = s.pixmem := rfl
@[simp] theorem storeOut_palmem (m : List Byte) (s : State) : (storeOut m s).palmem = s.palmem := rfl
@[simp] theorem storeOut_idxmem (m : List Byte) (s : State) : (storeOut m s).idxmem = s.idxmem := rfl
@[simp] theorem storeOut_framebuf (m : List Byte) (s : State) : (storeOut m s).framebuf = s.framebuf := rfl
@[simp] theorem storeOut_out (m : List Byte) (s : State) : (storeOut m s).out = storeBlock 0 m s.out := rfl
@[simp] theorem storeOut_inbuf (m : List Byte) (s : State) : (storeOut m s).inbuf = s.inbuf := rfl
@[simp] theorem storeOut_allframes (m : List Byte) (s : State) : (storeOut m s).allframes = s.allframes := rfl
@[simp] theorem storeOut_pending (m : List Byte) (s : State) : (storeOut m s).pending = s.pending := rfl
@[simp] theorem storeOut_rst (m : List Byte) (s : State) : (storeOut m s).rst = s.rst := rfl
@[simp] theorem storeOut_config (m : List Byte) (s : State) : (storeOut m s).config = s.config := rfl
@[simp] theorem storeOut_turns (m : List Byte) (s : State) : (storeOut m s).turns = s.turns := rfl
@[simp] theorem storeOut_rdata (m : List Byte) (s : State) : (storeOut m s).rdata = s.rdata := rfl
@[simp] theorem storeOut_powerOns (m : List Byte) (s : State) : (storeOut m s).powerOns = s.powerOns := rfl
@[simp] theorem storeOut_draws (m : List Byte) (s : State) : (storeOut m s).draws = s.draws := rfl

/-! ### storeFrame -/

@[simp] theorem storeFrame_palCapSel (f : List Byte) (s : State) : (storeFrame f s).palCapSel = s.palCapSel := rfl
@[simp] theorem storeFrame_busy (f : List Byte) (s : State) : (storeFrame f s).busy = s.busy := rfl
@[simp] theorem storeFrame_done (f : List Byte) (s : State) : (storeFrame f s).done = s.done := rfl
@[simp] theorem storeFrame_err (f : List Byte) (s : State) : (storeFrame f s).err = s.err := rfl
@[simp] theorem storeFrame_overrun (f : List Byte) (s : State) : (storeFrame f s).overrun = s.overrun := rfl
@[simp] theorem storeFrame_animState (f : List Byte) (s : State) : (storeFrame f s).animState = s.animState := rfl
@[simp] theorem storeFrame_arg (f : List Byte) (s : State) : (storeFrame f s).arg = s.arg := rfl
@[simp] theorem storeFrame_errCode (f : List Byte) (s : State) : (storeFrame f s).errCode = s.errCode := rfl
@[simp] theorem storeFrame_errInfo (f : List Byte) (s : State) : (storeFrame f s).errInfo = s.errInfo := rfl
@[simp] theorem storeFrame_pixX (f : List Byte) (s : State) : (storeFrame f s).pixX = s.pixX := rfl
@[simp] theorem storeFrame_pixY (f : List Byte) (s : State) : (storeFrame f s).pixY = s.pixY := rfl
@[simp] theorem storeFrame_pixWdata (f : List Byte) (s : State) : (storeFrame f s).pixWdata = s.pixWdata := rfl
@[simp] theorem storeFrame_pixRdata (f : List Byte) (s : State) : (storeFrame f s).pixRdata = s.pixRdata := rfl
@[simp] theorem storeFrame_palLen (f : List Byte) (s : State) : (storeFrame f s).palLen = s.palLen := rfl
@[simp] theorem storeFrame_bitWidth (f : List Byte) (s : State) : (storeFrame f s).bitWidth = s.bitWidth := rfl
@[simp] theorem storeFrame_frameLen (f : List Byte) (s : State) : (storeFrame f s).frameLen = BitVec.ofNat 16 f.length := rfl
@[simp] theorem storeFrame_outLen (f : List Byte) (s : State) : (storeFrame f s).outLen = s.outLen := rfl
@[simp] theorem storeFrame_inLen (f : List Byte) (s : State) : (storeFrame f s).inLen = s.inLen := rfl
@[simp] theorem storeFrame_animLen (f : List Byte) (s : State) : (storeFrame f s).animLen = s.animLen := rfl
@[simp] theorem storeFrame_frameCount (f : List Byte) (s : State) : (storeFrame f s).frameCount = s.frameCount := rfl
@[simp] theorem storeFrame_period (f : List Byte) (s : State) : (storeFrame f s).period = s.period := rfl
@[simp] theorem storeFrame_chunkCount (f : List Byte) (s : State) : (storeFrame f s).chunkCount = s.chunkCount := rfl
@[simp] theorem storeFrame_chunkIdx (f : List Byte) (s : State) : (storeFrame f s).chunkIdx = s.chunkIdx := rfl
@[simp] theorem storeFrame_pixmem (f : List Byte) (s : State) : (storeFrame f s).pixmem = s.pixmem := rfl
@[simp] theorem storeFrame_palmem (f : List Byte) (s : State) : (storeFrame f s).palmem = s.palmem := rfl
@[simp] theorem storeFrame_idxmem (f : List Byte) (s : State) : (storeFrame f s).idxmem = s.idxmem := rfl
@[simp] theorem storeFrame_framebuf (f : List Byte) (s : State) : (storeFrame f s).framebuf = storeBlock 0 f s.framebuf := rfl
@[simp] theorem storeFrame_out (f : List Byte) (s : State) : (storeFrame f s).out = s.out := rfl
@[simp] theorem storeFrame_inbuf (f : List Byte) (s : State) : (storeFrame f s).inbuf = s.inbuf := rfl
@[simp] theorem storeFrame_allframes (f : List Byte) (s : State) : (storeFrame f s).allframes = s.allframes := rfl
@[simp] theorem storeFrame_pending (f : List Byte) (s : State) : (storeFrame f s).pending = s.pending := rfl
@[simp] theorem storeFrame_rst (f : List Byte) (s : State) : (storeFrame f s).rst = s.rst := rfl
@[simp] theorem storeFrame_config (f : List Byte) (s : State) : (storeFrame f s).config = s.config := rfl
@[simp] theorem storeFrame_turns (f : List Byte) (s : State) : (storeFrame f s).turns = s.turns := rfl
@[simp] theorem storeFrame_rdata (f : List Byte) (s : State) : (storeFrame f s).rdata = s.rdata := rfl
@[simp] theorem storeFrame_powerOns (f : List Byte) (s : State) : (storeFrame f s).powerOns = s.powerOns := rfl
@[simp] theorem storeFrame_draws (f : List Byte) (s : State) : (storeFrame f s).draws = s.draws := rfl

/-! ### storePalette -/

@[simp] theorem storePalette_palCapSel (r : Encoded) (s : State) : (storePalette r s).palCapSel = s.palCapSel := rfl
@[simp] theorem storePalette_busy (r : Encoded) (s : State) : (storePalette r s).busy = s.busy := rfl
@[simp] theorem storePalette_done (r : Encoded) (s : State) : (storePalette r s).done = s.done := rfl
@[simp] theorem storePalette_err (r : Encoded) (s : State) : (storePalette r s).err = s.err := rfl
@[simp] theorem storePalette_overrun (r : Encoded) (s : State) : (storePalette r s).overrun = s.overrun := rfl
@[simp] theorem storePalette_animState (r : Encoded) (s : State) : (storePalette r s).animState = s.animState := rfl
@[simp] theorem storePalette_arg (r : Encoded) (s : State) : (storePalette r s).arg = s.arg := rfl
@[simp] theorem storePalette_errCode (r : Encoded) (s : State) : (storePalette r s).errCode = s.errCode := rfl
@[simp] theorem storePalette_errInfo (r : Encoded) (s : State) : (storePalette r s).errInfo = s.errInfo := rfl
@[simp] theorem storePalette_pixX (r : Encoded) (s : State) : (storePalette r s).pixX = s.pixX := rfl
@[simp] theorem storePalette_pixY (r : Encoded) (s : State) : (storePalette r s).pixY = s.pixY := rfl
@[simp] theorem storePalette_pixWdata (r : Encoded) (s : State) : (storePalette r s).pixWdata = s.pixWdata := rfl
@[simp] theorem storePalette_pixRdata (r : Encoded) (s : State) : (storePalette r s).pixRdata = s.pixRdata := rfl
@[simp] theorem storePalette_palLen (r : Encoded) (s : State) : (storePalette r s).palLen = BitVec.ofNat 11 r.palette.length := rfl
@[simp] theorem storePalette_bitWidth (r : Encoded) (s : State) : (storePalette r s).bitWidth = BitVec.ofNat 4 (bw r.palette.length) := rfl
@[simp] theorem storePalette_frameLen (r : Encoded) (s : State) : (storePalette r s).frameLen = s.frameLen := rfl
@[simp] theorem storePalette_outLen (r : Encoded) (s : State) : (storePalette r s).outLen = s.outLen := rfl
@[simp] theorem storePalette_inLen (r : Encoded) (s : State) : (storePalette r s).inLen = s.inLen := rfl
@[simp] theorem storePalette_animLen (r : Encoded) (s : State) : (storePalette r s).animLen = s.animLen := rfl
@[simp] theorem storePalette_frameCount (r : Encoded) (s : State) : (storePalette r s).frameCount = s.frameCount := rfl
@[simp] theorem storePalette_period (r : Encoded) (s : State) : (storePalette r s).period = s.period := rfl
@[simp] theorem storePalette_chunkCount (r : Encoded) (s : State) : (storePalette r s).chunkCount = s.chunkCount := rfl
@[simp] theorem storePalette_chunkIdx (r : Encoded) (s : State) : (storePalette r s).chunkIdx = s.chunkIdx := rfl
@[simp] theorem storePalette_pixmem (r : Encoded) (s : State) : (storePalette r s).pixmem = s.pixmem := rfl
@[simp] theorem storePalette_palmem (r : Encoded) (s : State) : (storePalette r s).palmem = storeBlock 0 r.palette s.palmem := rfl
@[simp] theorem storePalette_idxmem (r : Encoded) (s : State) :
    (storePalette r s).idxmem = storeBlock 0 (r.indices.map (BitVec.ofNat 10)) s.idxmem := rfl
@[simp] theorem storePalette_framebuf (r : Encoded) (s : State) : (storePalette r s).framebuf = s.framebuf := rfl
@[simp] theorem storePalette_out (r : Encoded) (s : State) : (storePalette r s).out = s.out := rfl
@[simp] theorem storePalette_inbuf (r : Encoded) (s : State) : (storePalette r s).inbuf = s.inbuf := rfl
@[simp] theorem storePalette_allframes (r : Encoded) (s : State) : (storePalette r s).allframes = s.allframes := rfl
@[simp] theorem storePalette_pending (r : Encoded) (s : State) : (storePalette r s).pending = s.pending := rfl
@[simp] theorem storePalette_rst (r : Encoded) (s : State) : (storePalette r s).rst = s.rst := rfl
@[simp] theorem storePalette_config (r : Encoded) (s : State) : (storePalette r s).config = s.config := rfl
@[simp] theorem storePalette_turns (r : Encoded) (s : State) : (storePalette r s).turns = s.turns := rfl
@[simp] theorem storePalette_rdata (r : Encoded) (s : State) : (storePalette r s).rdata = s.rdata := rfl
@[simp] theorem storePalette_powerOns (r : Encoded) (s : State) : (storePalette r s).powerOns = s.powerOns := rfl
@[simp] theorem storePalette_draws (r : Encoded) (s : State) : (storePalette r s).draws = s.draws := rfl

/-! ### failCommand -/

@[simp] theorem failCommand_palCapSel (c : Option Instr) (e : CmdError) (info : BitVec 16) (s : State) :
    (failCommand c e info s).palCapSel = s.palCapSel := rfl
@[simp] theorem failCommand_busy (c : Option Instr) (e : CmdError) (info : BitVec 16) (s : State) :
    (failCommand c e info s).busy = false := rfl
@[simp] theorem failCommand_done (c : Option Instr) (e : CmdError) (info : BitVec 16) (s : State) :
    (failCommand c e info s).done = false := rfl
@[simp] theorem failCommand_err (c : Option Instr) (e : CmdError) (info : BitVec 16) (s : State) :
    (failCommand c e info s).err = true := rfl
@[simp] theorem failCommand_overrun (c : Option Instr) (e : CmdError) (info : BitVec 16) (s : State) :
    (failCommand c e info s).overrun = s.overrun := rfl
@[simp] theorem failCommand_animState (c : Option Instr) (e : CmdError) (info : BitVec 16) (s : State) :
    (failCommand c e info s).animState = if abortsSession c e then .idle else s.animState := rfl
@[simp] theorem failCommand_arg (c : Option Instr) (e : CmdError) (info : BitVec 16) (s : State) :
    (failCommand c e info s).arg = s.arg := rfl
@[simp] theorem failCommand_errCode (c : Option Instr) (e : CmdError) (info : BitVec 16) (s : State) :
    (failCommand c e info s).errCode = e.code := rfl
@[simp] theorem failCommand_errInfo (c : Option Instr) (e : CmdError) (info : BitVec 16) (s : State) :
    (failCommand c e info s).errInfo = info := rfl
@[simp] theorem failCommand_pixX (c : Option Instr) (e : CmdError) (info : BitVec 16) (s : State) :
    (failCommand c e info s).pixX = s.pixX := rfl
@[simp] theorem failCommand_pixY (c : Option Instr) (e : CmdError) (info : BitVec 16) (s : State) :
    (failCommand c e info s).pixY = s.pixY := rfl
@[simp] theorem failCommand_pixWdata (c : Option Instr) (e : CmdError) (info : BitVec 16) (s : State) :
    (failCommand c e info s).pixWdata = s.pixWdata := rfl
@[simp] theorem failCommand_pixRdata (c : Option Instr) (e : CmdError) (info : BitVec 16) (s : State) :
    (failCommand c e info s).pixRdata = s.pixRdata := rfl
@[simp] theorem failCommand_palLen (c : Option Instr) (e : CmdError) (info : BitVec 16) (s : State) :
    (failCommand c e info s).palLen = if dropsPalette c e then 0 else s.palLen := rfl
@[simp] theorem failCommand_bitWidth (c : Option Instr) (e : CmdError) (info : BitVec 16) (s : State) :
    (failCommand c e info s).bitWidth = if dropsPalette c e then 0 else s.bitWidth := rfl
@[simp] theorem failCommand_frameLen (c : Option Instr) (e : CmdError) (info : BitVec 16) (s : State) :
    (failCommand c e info s).frameLen = if dropsFrame c e then 0 else s.frameLen := rfl
@[simp] theorem failCommand_outLen (c : Option Instr) (e : CmdError) (info : BitVec 16) (s : State) :
    (failCommand c e info s).outLen = if dropsMessage c then 0 else s.outLen := rfl
@[simp] theorem failCommand_inLen (c : Option Instr) (e : CmdError) (info : BitVec 16) (s : State) :
    (failCommand c e info s).inLen = s.inLen := rfl
@[simp] theorem failCommand_animLen (c : Option Instr) (e : CmdError) (info : BitVec 16) (s : State) :
    (failCommand c e info s).animLen = if abortsSession c e then 0 else s.animLen := rfl
@[simp] theorem failCommand_frameCount (c : Option Instr) (e : CmdError) (info : BitVec 16) (s : State) :
    (failCommand c e info s).frameCount = if abortsSession c e then 0 else s.frameCount := rfl
@[simp] theorem failCommand_period (c : Option Instr) (e : CmdError) (info : BitVec 16) (s : State) :
    (failCommand c e info s).period = s.period := rfl
@[simp] theorem failCommand_chunkCount (c : Option Instr) (e : CmdError) (info : BitVec 16) (s : State) :
    (failCommand c e info s).chunkCount = if abortsSession c e then 0 else s.chunkCount := rfl
@[simp] theorem failCommand_chunkIdx (c : Option Instr) (e : CmdError) (info : BitVec 16) (s : State) :
    (failCommand c e info s).chunkIdx = if abortsSession c e then 0 else s.chunkIdx := rfl
@[simp] theorem failCommand_pixmem (c : Option Instr) (e : CmdError) (info : BitVec 16) (s : State) :
    (failCommand c e info s).pixmem = s.pixmem := rfl
@[simp] theorem failCommand_palmem (c : Option Instr) (e : CmdError) (info : BitVec 16) (s : State) :
    (failCommand c e info s).palmem = s.palmem := rfl
@[simp] theorem failCommand_idxmem (c : Option Instr) (e : CmdError) (info : BitVec 16) (s : State) :
    (failCommand c e info s).idxmem = s.idxmem := rfl
@[simp] theorem failCommand_framebuf (c : Option Instr) (e : CmdError) (info : BitVec 16) (s : State) :
    (failCommand c e info s).framebuf = s.framebuf := rfl
@[simp] theorem failCommand_out (c : Option Instr) (e : CmdError) (info : BitVec 16) (s : State) :
    (failCommand c e info s).out = s.out := rfl
@[simp] theorem failCommand_inbuf (c : Option Instr) (e : CmdError) (info : BitVec 16) (s : State) :
    (failCommand c e info s).inbuf = s.inbuf := rfl
@[simp] theorem failCommand_allframes (c : Option Instr) (e : CmdError) (info : BitVec 16) (s : State) :
    (failCommand c e info s).allframes = s.allframes := rfl
@[simp] theorem failCommand_pending (c : Option Instr) (e : CmdError) (info : BitVec 16) (s : State) :
    (failCommand c e info s).pending = none := rfl
@[simp] theorem failCommand_rst (c : Option Instr) (e : CmdError) (info : BitVec 16) (s : State) :
    (failCommand c e info s).rst = s.rst := rfl
@[simp] theorem failCommand_config (c : Option Instr) (e : CmdError) (info : BitVec 16) (s : State) :
    (failCommand c e info s).config = s.config := rfl
@[simp] theorem failCommand_turns (c : Option Instr) (e : CmdError) (info : BitVec 16) (s : State) :
    (failCommand c e info s).turns = s.turns := rfl
@[simp] theorem failCommand_rdata (c : Option Instr) (e : CmdError) (info : BitVec 16) (s : State) :
    (failCommand c e info s).rdata = s.rdata := rfl
@[simp] theorem failCommand_powerOns (c : Option Instr) (e : CmdError) (info : BitVec 16) (s : State) :
    (failCommand c e info s).powerOns = s.powerOns := rfl
@[simp] theorem failCommand_draws (c : Option Instr) (e : CmdError) (info : BitVec 16) (s : State) :
    (failCommand c e info s).draws = s.draws := rfl

/-! ### softResetState -/

@[simp] theorem softResetState_palCapSel (s : State) : (softResetState s).palCapSel = false := rfl
@[simp] theorem softResetState_busy (s : State) : (softResetState s).busy = s.busy := rfl
@[simp] theorem softResetState_done (s : State) : (softResetState s).done = false := rfl
@[simp] theorem softResetState_err (s : State) : (softResetState s).err = false := rfl
@[simp] theorem softResetState_overrun (s : State) : (softResetState s).overrun = false := rfl
@[simp] theorem softResetState_animState (s : State) : (softResetState s).animState = .idle := rfl
@[simp] theorem softResetState_arg (s : State) : (softResetState s).arg = 0 := rfl
@[simp] theorem softResetState_errCode (s : State) : (softResetState s).errCode = 0 := rfl
@[simp] theorem softResetState_errInfo (s : State) : (softResetState s).errInfo = 0 := rfl
@[simp] theorem softResetState_pixX (s : State) : (softResetState s).pixX = 0 := rfl
@[simp] theorem softResetState_pixY (s : State) : (softResetState s).pixY = 0 := rfl
@[simp] theorem softResetState_pixWdata (s : State) : (softResetState s).pixWdata = 0 := rfl
@[simp] theorem softResetState_pixRdata (s : State) : (softResetState s).pixRdata = 0 := rfl
@[simp] theorem softResetState_palLen (s : State) : (softResetState s).palLen = 0 := rfl
@[simp] theorem softResetState_bitWidth (s : State) : (softResetState s).bitWidth = 0 := rfl
@[simp] theorem softResetState_frameLen (s : State) : (softResetState s).frameLen = 0 := rfl
@[simp] theorem softResetState_outLen (s : State) : (softResetState s).outLen = 0 := rfl
@[simp] theorem softResetState_inLen (s : State) : (softResetState s).inLen = 0 := rfl
@[simp] theorem softResetState_animLen (s : State) : (softResetState s).animLen = 0 := rfl
@[simp] theorem softResetState_frameCount (s : State) : (softResetState s).frameCount = 0 := rfl
@[simp] theorem softResetState_period (s : State) : (softResetState s).period = 0 := rfl
@[simp] theorem softResetState_chunkCount (s : State) : (softResetState s).chunkCount = 0 := rfl
@[simp] theorem softResetState_chunkIdx (s : State) : (softResetState s).chunkIdx = 0 := rfl
@[simp] theorem softResetState_pixmem (s : State) : (softResetState s).pixmem = [] := rfl
@[simp] theorem softResetState_palmem (s : State) : (softResetState s).palmem = s.palmem := rfl
@[simp] theorem softResetState_idxmem (s : State) : (softResetState s).idxmem = s.idxmem := rfl
@[simp] theorem softResetState_framebuf (s : State) : (softResetState s).framebuf = s.framebuf := rfl
@[simp] theorem softResetState_out (s : State) : (softResetState s).out = s.out := rfl
@[simp] theorem softResetState_inbuf (s : State) : (softResetState s).inbuf = s.inbuf := rfl
@[simp] theorem softResetState_allframes (s : State) : (softResetState s).allframes = s.allframes := rfl
@[simp] theorem softResetState_pending (s : State) : (softResetState s).pending = s.pending := rfl
@[simp] theorem softResetState_rst (s : State) : (softResetState s).rst = s.rst := rfl
@[simp] theorem softResetState_config (s : State) : (softResetState s).config = s.config := rfl
@[simp] theorem softResetState_turns (s : State) : (softResetState s).turns = s.turns := rfl
@[simp] theorem softResetState_rdata (s : State) : (softResetState s).rdata = s.rdata := rfl
@[simp] theorem softResetState_powerOns (s : State) : (softResetState s).powerOns = s.powerOns := rfl
@[simp] theorem softResetState_draws (s : State) : (softResetState s).draws = s.draws := rfl

/-! ### resetBlock -/

@[simp] theorem resetBlock_palCapSel (asserted : Bool) (s : State) : (resetBlock asserted s).palCapSel = State.reset.palCapSel := rfl
@[simp] theorem resetBlock_busy (asserted : Bool) (s : State) : (resetBlock asserted s).busy = State.reset.busy := rfl
@[simp] theorem resetBlock_done (asserted : Bool) (s : State) : (resetBlock asserted s).done = State.reset.done := rfl
@[simp] theorem resetBlock_err (asserted : Bool) (s : State) : (resetBlock asserted s).err = State.reset.err := rfl
@[simp] theorem resetBlock_overrun (asserted : Bool) (s : State) : (resetBlock asserted s).overrun = State.reset.overrun := rfl
@[simp] theorem resetBlock_animState (asserted : Bool) (s : State) : (resetBlock asserted s).animState = State.reset.animState := rfl
@[simp] theorem resetBlock_arg (asserted : Bool) (s : State) : (resetBlock asserted s).arg = State.reset.arg := rfl
@[simp] theorem resetBlock_errCode (asserted : Bool) (s : State) : (resetBlock asserted s).errCode = State.reset.errCode := rfl
@[simp] theorem resetBlock_errInfo (asserted : Bool) (s : State) : (resetBlock asserted s).errInfo = State.reset.errInfo := rfl
@[simp] theorem resetBlock_pixX (asserted : Bool) (s : State) : (resetBlock asserted s).pixX = State.reset.pixX := rfl
@[simp] theorem resetBlock_pixY (asserted : Bool) (s : State) : (resetBlock asserted s).pixY = State.reset.pixY := rfl
@[simp] theorem resetBlock_pixWdata (asserted : Bool) (s : State) : (resetBlock asserted s).pixWdata = State.reset.pixWdata := rfl
@[simp] theorem resetBlock_pixRdata (asserted : Bool) (s : State) : (resetBlock asserted s).pixRdata = State.reset.pixRdata := rfl
@[simp] theorem resetBlock_palLen (asserted : Bool) (s : State) : (resetBlock asserted s).palLen = State.reset.palLen := rfl
@[simp] theorem resetBlock_bitWidth (asserted : Bool) (s : State) : (resetBlock asserted s).bitWidth = State.reset.bitWidth := rfl
@[simp] theorem resetBlock_frameLen (asserted : Bool) (s : State) : (resetBlock asserted s).frameLen = State.reset.frameLen := rfl
@[simp] theorem resetBlock_outLen (asserted : Bool) (s : State) : (resetBlock asserted s).outLen = State.reset.outLen := rfl
@[simp] theorem resetBlock_inLen (asserted : Bool) (s : State) : (resetBlock asserted s).inLen = State.reset.inLen := rfl
@[simp] theorem resetBlock_animLen (asserted : Bool) (s : State) : (resetBlock asserted s).animLen = State.reset.animLen := rfl
@[simp] theorem resetBlock_frameCount (asserted : Bool) (s : State) : (resetBlock asserted s).frameCount = State.reset.frameCount := rfl
@[simp] theorem resetBlock_period (asserted : Bool) (s : State) : (resetBlock asserted s).period = State.reset.period := rfl
@[simp] theorem resetBlock_chunkCount (asserted : Bool) (s : State) : (resetBlock asserted s).chunkCount = State.reset.chunkCount := rfl
@[simp] theorem resetBlock_chunkIdx (asserted : Bool) (s : State) : (resetBlock asserted s).chunkIdx = State.reset.chunkIdx := rfl
@[simp] theorem resetBlock_pixmem (asserted : Bool) (s : State) : (resetBlock asserted s).pixmem = State.reset.pixmem := rfl
@[simp] theorem resetBlock_palmem (asserted : Bool) (s : State) : (resetBlock asserted s).palmem = State.reset.palmem := rfl
@[simp] theorem resetBlock_idxmem (asserted : Bool) (s : State) : (resetBlock asserted s).idxmem = State.reset.idxmem := rfl
@[simp] theorem resetBlock_framebuf (asserted : Bool) (s : State) : (resetBlock asserted s).framebuf = State.reset.framebuf := rfl
@[simp] theorem resetBlock_out (asserted : Bool) (s : State) : (resetBlock asserted s).out = State.reset.out := rfl
@[simp] theorem resetBlock_inbuf (asserted : Bool) (s : State) : (resetBlock asserted s).inbuf = State.reset.inbuf := rfl
@[simp] theorem resetBlock_allframes (asserted : Bool) (s : State) : (resetBlock asserted s).allframes = State.reset.allframes := rfl
@[simp] theorem resetBlock_pending (asserted : Bool) (s : State) : (resetBlock asserted s).pending = State.reset.pending := rfl
@[simp] theorem resetBlock_rst (asserted : Bool) (s : State) : (resetBlock asserted s).rst = asserted := rfl
@[simp] theorem resetBlock_config (asserted : Bool) (s : State) : (resetBlock asserted s).config = s.config := rfl
@[simp] theorem resetBlock_turns (asserted : Bool) (s : State) : (resetBlock asserted s).turns = s.turns := rfl
@[simp] theorem resetBlock_rdata (asserted : Bool) (s : State) : (resetBlock asserted s).rdata = s.rdata := rfl
@[simp] theorem resetBlock_powerOns (asserted : Bool) (s : State) : (resetBlock asserted s).powerOns = s.powerOns + 1 := rfl
@[simp] theorem resetBlock_draws (asserted : Bool) (s : State) : (resetBlock asserted s).draws = s.draws := rfl

/-! ### storeBuilt -/

@[simp] theorem storeBuilt_palCapSel (r : Encoded) (f : List Byte) (s : State) : (storeBuilt r f s).palCapSel = s.palCapSel := rfl
@[simp] theorem storeBuilt_busy (r : Encoded) (f : List Byte) (s : State) : (storeBuilt r f s).busy = s.busy := rfl
@[simp] theorem storeBuilt_done (r : Encoded) (f : List Byte) (s : State) : (storeBuilt r f s).done = s.done := rfl
@[simp] theorem storeBuilt_err (r : Encoded) (f : List Byte) (s : State) : (storeBuilt r f s).err = s.err := rfl
@[simp] theorem storeBuilt_overrun (r : Encoded) (f : List Byte) (s : State) : (storeBuilt r f s).overrun = s.overrun := rfl
@[simp] theorem storeBuilt_animState (r : Encoded) (f : List Byte) (s : State) : (storeBuilt r f s).animState = s.animState := rfl
@[simp] theorem storeBuilt_arg (r : Encoded) (f : List Byte) (s : State) : (storeBuilt r f s).arg = s.arg := rfl
@[simp] theorem storeBuilt_errCode (r : Encoded) (f : List Byte) (s : State) : (storeBuilt r f s).errCode = s.errCode := rfl
@[simp] theorem storeBuilt_errInfo (r : Encoded) (f : List Byte) (s : State) : (storeBuilt r f s).errInfo = s.errInfo := rfl
@[simp] theorem storeBuilt_pixX (r : Encoded) (f : List Byte) (s : State) : (storeBuilt r f s).pixX = s.pixX := rfl
@[simp] theorem storeBuilt_pixY (r : Encoded) (f : List Byte) (s : State) : (storeBuilt r f s).pixY = s.pixY := rfl
@[simp] theorem storeBuilt_pixWdata (r : Encoded) (f : List Byte) (s : State) : (storeBuilt r f s).pixWdata = s.pixWdata := rfl
@[simp] theorem storeBuilt_pixRdata (r : Encoded) (f : List Byte) (s : State) : (storeBuilt r f s).pixRdata = s.pixRdata := rfl
@[simp] theorem storeBuilt_palLen (r : Encoded) (f : List Byte) (s : State) :
    (storeBuilt r f s).palLen = BitVec.ofNat 11 r.palette.length := rfl
@[simp] theorem storeBuilt_bitWidth (r : Encoded) (f : List Byte) (s : State) :
    (storeBuilt r f s).bitWidth = BitVec.ofNat 4 (bw r.palette.length) := rfl
@[simp] theorem storeBuilt_frameLen (r : Encoded) (f : List Byte) (s : State) :
    (storeBuilt r f s).frameLen = BitVec.ofNat 16 f.length := rfl
@[simp] theorem storeBuilt_outLen (r : Encoded) (f : List Byte) (s : State) : (storeBuilt r f s).outLen = s.outLen := rfl
@[simp] theorem storeBuilt_inLen (r : Encoded) (f : List Byte) (s : State) : (storeBuilt r f s).inLen = s.inLen := rfl
@[simp] theorem storeBuilt_animLen (r : Encoded) (f : List Byte) (s : State) : (storeBuilt r f s).animLen = s.animLen := rfl
@[simp] theorem storeBuilt_frameCount (r : Encoded) (f : List Byte) (s : State) : (storeBuilt r f s).frameCount = s.frameCount := rfl
@[simp] theorem storeBuilt_period (r : Encoded) (f : List Byte) (s : State) : (storeBuilt r f s).period = s.period := rfl
@[simp] theorem storeBuilt_chunkCount (r : Encoded) (f : List Byte) (s : State) : (storeBuilt r f s).chunkCount = s.chunkCount := rfl
@[simp] theorem storeBuilt_chunkIdx (r : Encoded) (f : List Byte) (s : State) : (storeBuilt r f s).chunkIdx = s.chunkIdx := rfl
@[simp] theorem storeBuilt_pixmem (r : Encoded) (f : List Byte) (s : State) : (storeBuilt r f s).pixmem = s.pixmem := rfl
@[simp] theorem storeBuilt_palmem (r : Encoded) (f : List Byte) (s : State) :
    (storeBuilt r f s).palmem = storeBlock 0 r.palette s.palmem := rfl
@[simp] theorem storeBuilt_idxmem (r : Encoded) (f : List Byte) (s : State) :
    (storeBuilt r f s).idxmem = storeBlock 0 (r.indices.map (BitVec.ofNat 10)) s.idxmem := rfl
@[simp] theorem storeBuilt_framebuf (r : Encoded) (f : List Byte) (s : State) :
    (storeBuilt r f s).framebuf = storeBlock 0 f s.framebuf := rfl
@[simp] theorem storeBuilt_out (r : Encoded) (f : List Byte) (s : State) : (storeBuilt r f s).out = s.out := rfl
@[simp] theorem storeBuilt_inbuf (r : Encoded) (f : List Byte) (s : State) : (storeBuilt r f s).inbuf = s.inbuf := rfl
@[simp] theorem storeBuilt_allframes (r : Encoded) (f : List Byte) (s : State) : (storeBuilt r f s).allframes = s.allframes := rfl
@[simp] theorem storeBuilt_pending (r : Encoded) (f : List Byte) (s : State) : (storeBuilt r f s).pending = s.pending := rfl
@[simp] theorem storeBuilt_rst (r : Encoded) (f : List Byte) (s : State) : (storeBuilt r f s).rst = s.rst := rfl
@[simp] theorem storeBuilt_config (r : Encoded) (f : List Byte) (s : State) : (storeBuilt r f s).config = s.config := rfl
@[simp] theorem storeBuilt_turns (r : Encoded) (f : List Byte) (s : State) : (storeBuilt r f s).turns = s.turns := rfl
@[simp] theorem storeBuilt_rdata (r : Encoded) (f : List Byte) (s : State) : (storeBuilt r f s).rdata = s.rdata := rfl
@[simp] theorem storeBuilt_powerOns (r : Encoded) (f : List Byte) (s : State) : (storeBuilt r f s).powerOns = s.powerOns := rfl
@[simp] theorem storeBuilt_draws (r : Encoded) (f : List Byte) (s : State) : (storeBuilt r f s).draws = s.draws := rfl

/-! ### appendFrame -/

@[simp] theorem appendFrame_palCapSel (r : Encoded) (f : List Byte) (s : State) : (appendFrame r f s).palCapSel = s.palCapSel := rfl
@[simp] theorem appendFrame_busy (r : Encoded) (f : List Byte) (s : State) : (appendFrame r f s).busy = s.busy := rfl
@[simp] theorem appendFrame_done (r : Encoded) (f : List Byte) (s : State) : (appendFrame r f s).done = s.done := rfl
@[simp] theorem appendFrame_err (r : Encoded) (f : List Byte) (s : State) : (appendFrame r f s).err = s.err := rfl
@[simp] theorem appendFrame_overrun (r : Encoded) (f : List Byte) (s : State) : (appendFrame r f s).overrun = s.overrun := rfl
@[simp] theorem appendFrame_animState (r : Encoded) (f : List Byte) (s : State) : (appendFrame r f s).animState = s.animState := rfl
@[simp] theorem appendFrame_arg (r : Encoded) (f : List Byte) (s : State) : (appendFrame r f s).arg = s.arg := rfl
@[simp] theorem appendFrame_errCode (r : Encoded) (f : List Byte) (s : State) : (appendFrame r f s).errCode = s.errCode := rfl
@[simp] theorem appendFrame_errInfo (r : Encoded) (f : List Byte) (s : State) : (appendFrame r f s).errInfo = s.errInfo := rfl
@[simp] theorem appendFrame_pixX (r : Encoded) (f : List Byte) (s : State) : (appendFrame r f s).pixX = s.pixX := rfl
@[simp] theorem appendFrame_pixY (r : Encoded) (f : List Byte) (s : State) : (appendFrame r f s).pixY = s.pixY := rfl
@[simp] theorem appendFrame_pixWdata (r : Encoded) (f : List Byte) (s : State) : (appendFrame r f s).pixWdata = s.pixWdata := rfl
@[simp] theorem appendFrame_pixRdata (r : Encoded) (f : List Byte) (s : State) : (appendFrame r f s).pixRdata = s.pixRdata := rfl
@[simp] theorem appendFrame_palLen (r : Encoded) (f : List Byte) (s : State) :
    (appendFrame r f s).palLen = BitVec.ofNat 11 r.palette.length := rfl
@[simp] theorem appendFrame_bitWidth (r : Encoded) (f : List Byte) (s : State) :
    (appendFrame r f s).bitWidth = BitVec.ofNat 4 (bw r.palette.length) := rfl
@[simp] theorem appendFrame_frameLen (r : Encoded) (f : List Byte) (s : State) :
    (appendFrame r f s).frameLen = BitVec.ofNat 16 f.length := rfl
@[simp] theorem appendFrame_outLen (r : Encoded) (f : List Byte) (s : State) : (appendFrame r f s).outLen = s.outLen := rfl
@[simp] theorem appendFrame_inLen (r : Encoded) (f : List Byte) (s : State) : (appendFrame r f s).inLen = s.inLen := rfl
@[simp] theorem appendFrame_animLen (r : Encoded) (f : List Byte) (s : State) :
    (appendFrame r f s).animLen = BitVec.ofNat 16 (s.animLen.toNat + f.length) := rfl
@[simp] theorem appendFrame_frameCount (r : Encoded) (f : List Byte) (s : State) : (appendFrame r f s).frameCount = s.frameCount + 1 := rfl
@[simp] theorem appendFrame_period (r : Encoded) (f : List Byte) (s : State) : (appendFrame r f s).period = s.period := rfl
@[simp] theorem appendFrame_chunkCount (r : Encoded) (f : List Byte) (s : State) : (appendFrame r f s).chunkCount = s.chunkCount := rfl
@[simp] theorem appendFrame_chunkIdx (r : Encoded) (f : List Byte) (s : State) : (appendFrame r f s).chunkIdx = s.chunkIdx := rfl
@[simp] theorem appendFrame_pixmem (r : Encoded) (f : List Byte) (s : State) : (appendFrame r f s).pixmem = s.pixmem := rfl
@[simp] theorem appendFrame_palmem (r : Encoded) (f : List Byte) (s : State) :
    (appendFrame r f s).palmem = storeBlock 0 r.palette s.palmem := rfl
@[simp] theorem appendFrame_idxmem (r : Encoded) (f : List Byte) (s : State) :
    (appendFrame r f s).idxmem = storeBlock 0 (r.indices.map (BitVec.ofNat 10)) s.idxmem := rfl
@[simp] theorem appendFrame_framebuf (r : Encoded) (f : List Byte) (s : State) :
    (appendFrame r f s).framebuf = storeBlock 0 f s.framebuf := rfl
@[simp] theorem appendFrame_out (r : Encoded) (f : List Byte) (s : State) : (appendFrame r f s).out = s.out := rfl
@[simp] theorem appendFrame_inbuf (r : Encoded) (f : List Byte) (s : State) : (appendFrame r f s).inbuf = s.inbuf := rfl
@[simp] theorem appendFrame_allframes (r : Encoded) (f : List Byte) (s : State) :
    (appendFrame r f s).allframes = storeBlock s.animLen.toNat f s.allframes := rfl
@[simp] theorem appendFrame_pending (r : Encoded) (f : List Byte) (s : State) : (appendFrame r f s).pending = s.pending := rfl
@[simp] theorem appendFrame_rst (r : Encoded) (f : List Byte) (s : State) : (appendFrame r f s).rst = s.rst := rfl
@[simp] theorem appendFrame_config (r : Encoded) (f : List Byte) (s : State) : (appendFrame r f s).config = s.config := rfl
@[simp] theorem appendFrame_turns (r : Encoded) (f : List Byte) (s : State) : (appendFrame r f s).turns = s.turns := rfl
@[simp] theorem appendFrame_rdata (r : Encoded) (f : List Byte) (s : State) : (appendFrame r f s).rdata = s.rdata := rfl
@[simp] theorem appendFrame_powerOns (r : Encoded) (f : List Byte) (s : State) : (appendFrame r f s).powerOns = s.powerOns := rfl
@[simp] theorem appendFrame_draws (r : Encoded) (f : List Byte) (s : State) : (appendFrame r f s).draws = s.draws := rfl

/-! ### clearGrid -/

@[simp] theorem clearGrid_palCapSel (s : State) : (clearGrid s).palCapSel = s.palCapSel := rfl
@[simp] theorem clearGrid_busy (s : State) : (clearGrid s).busy = s.busy := rfl
@[simp] theorem clearGrid_done (s : State) : (clearGrid s).done = s.done := rfl
@[simp] theorem clearGrid_err (s : State) : (clearGrid s).err = s.err := rfl
@[simp] theorem clearGrid_overrun (s : State) : (clearGrid s).overrun = s.overrun := rfl
@[simp] theorem clearGrid_animState (s : State) : (clearGrid s).animState = s.animState := rfl
@[simp] theorem clearGrid_arg (s : State) : (clearGrid s).arg = s.arg := rfl
@[simp] theorem clearGrid_errCode (s : State) : (clearGrid s).errCode = s.errCode := rfl
@[simp] theorem clearGrid_errInfo (s : State) : (clearGrid s).errInfo = s.errInfo := rfl
@[simp] theorem clearGrid_pixX (s : State) : (clearGrid s).pixX = s.pixX := rfl
@[simp] theorem clearGrid_pixY (s : State) : (clearGrid s).pixY = s.pixY := rfl
@[simp] theorem clearGrid_pixWdata (s : State) : (clearGrid s).pixWdata = s.pixWdata := rfl
@[simp] theorem clearGrid_pixRdata (s : State) : (clearGrid s).pixRdata = s.pixRdata := rfl
@[simp] theorem clearGrid_palLen (s : State) : (clearGrid s).palLen = s.palLen := rfl
@[simp] theorem clearGrid_bitWidth (s : State) : (clearGrid s).bitWidth = s.bitWidth := rfl
@[simp] theorem clearGrid_frameLen (s : State) : (clearGrid s).frameLen = s.frameLen := rfl
@[simp] theorem clearGrid_outLen (s : State) : (clearGrid s).outLen = s.outLen := rfl
@[simp] theorem clearGrid_inLen (s : State) : (clearGrid s).inLen = s.inLen := rfl
@[simp] theorem clearGrid_animLen (s : State) : (clearGrid s).animLen = s.animLen := rfl
@[simp] theorem clearGrid_frameCount (s : State) : (clearGrid s).frameCount = s.frameCount := rfl
@[simp] theorem clearGrid_period (s : State) : (clearGrid s).period = s.period := rfl
@[simp] theorem clearGrid_chunkCount (s : State) : (clearGrid s).chunkCount = s.chunkCount := rfl
@[simp] theorem clearGrid_chunkIdx (s : State) : (clearGrid s).chunkIdx = s.chunkIdx := rfl
@[simp] theorem clearGrid_pixmem (s : State) : (clearGrid s).pixmem = [] := rfl
@[simp] theorem clearGrid_palmem (s : State) : (clearGrid s).palmem = s.palmem := rfl
@[simp] theorem clearGrid_idxmem (s : State) : (clearGrid s).idxmem = s.idxmem := rfl
@[simp] theorem clearGrid_framebuf (s : State) : (clearGrid s).framebuf = s.framebuf := rfl
@[simp] theorem clearGrid_out (s : State) : (clearGrid s).out = s.out := rfl
@[simp] theorem clearGrid_inbuf (s : State) : (clearGrid s).inbuf = s.inbuf := rfl
@[simp] theorem clearGrid_allframes (s : State) : (clearGrid s).allframes = s.allframes := rfl
@[simp] theorem clearGrid_pending (s : State) : (clearGrid s).pending = s.pending := rfl
@[simp] theorem clearGrid_rst (s : State) : (clearGrid s).rst = s.rst := rfl
@[simp] theorem clearGrid_config (s : State) : (clearGrid s).config = s.config := rfl
@[simp] theorem clearGrid_turns (s : State) : (clearGrid s).turns = s.turns := rfl
@[simp] theorem clearGrid_rdata (s : State) : (clearGrid s).rdata = s.rdata := rfl
@[simp] theorem clearGrid_powerOns (s : State) : (clearGrid s).powerOns = s.powerOns := rfl
@[simp] theorem clearGrid_draws (s : State) : (clearGrid s).draws = s.draws := rfl

/-! ### latchPixel -/

@[simp] theorem latchPixel_palCapSel (s : State) : (latchPixel s).palCapSel = s.palCapSel := rfl
@[simp] theorem latchPixel_busy (s : State) : (latchPixel s).busy = s.busy := rfl
@[simp] theorem latchPixel_done (s : State) : (latchPixel s).done = s.done := rfl
@[simp] theorem latchPixel_err (s : State) : (latchPixel s).err = s.err := rfl
@[simp] theorem latchPixel_overrun (s : State) : (latchPixel s).overrun = s.overrun := rfl
@[simp] theorem latchPixel_animState (s : State) : (latchPixel s).animState = s.animState := rfl
@[simp] theorem latchPixel_arg (s : State) : (latchPixel s).arg = s.arg := rfl
@[simp] theorem latchPixel_errCode (s : State) : (latchPixel s).errCode = s.errCode := rfl
@[simp] theorem latchPixel_errInfo (s : State) : (latchPixel s).errInfo = s.errInfo := rfl
@[simp] theorem latchPixel_pixX (s : State) : (latchPixel s).pixX = s.pixX := rfl
@[simp] theorem latchPixel_pixY (s : State) : (latchPixel s).pixY = s.pixY := rfl
@[simp] theorem latchPixel_pixWdata (s : State) : (latchPixel s).pixWdata = s.pixWdata := rfl
@[simp] theorem latchPixel_pixRdata (s : State) : (latchPixel s).pixRdata = pixel s (operandCell s) := rfl
@[simp] theorem latchPixel_palLen (s : State) : (latchPixel s).palLen = s.palLen := rfl
@[simp] theorem latchPixel_bitWidth (s : State) : (latchPixel s).bitWidth = s.bitWidth := rfl
@[simp] theorem latchPixel_frameLen (s : State) : (latchPixel s).frameLen = s.frameLen := rfl
@[simp] theorem latchPixel_outLen (s : State) : (latchPixel s).outLen = s.outLen := rfl
@[simp] theorem latchPixel_inLen (s : State) : (latchPixel s).inLen = s.inLen := rfl
@[simp] theorem latchPixel_animLen (s : State) : (latchPixel s).animLen = s.animLen := rfl
@[simp] theorem latchPixel_frameCount (s : State) : (latchPixel s).frameCount = s.frameCount := rfl
@[simp] theorem latchPixel_period (s : State) : (latchPixel s).period = s.period := rfl
@[simp] theorem latchPixel_chunkCount (s : State) : (latchPixel s).chunkCount = s.chunkCount := rfl
@[simp] theorem latchPixel_chunkIdx (s : State) : (latchPixel s).chunkIdx = s.chunkIdx := rfl
@[simp] theorem latchPixel_pixmem (s : State) : (latchPixel s).pixmem = s.pixmem := rfl
@[simp] theorem latchPixel_palmem (s : State) : (latchPixel s).palmem = s.palmem := rfl
@[simp] theorem latchPixel_idxmem (s : State) : (latchPixel s).idxmem = s.idxmem := rfl
@[simp] theorem latchPixel_framebuf (s : State) : (latchPixel s).framebuf = s.framebuf := rfl
@[simp] theorem latchPixel_out (s : State) : (latchPixel s).out = s.out := rfl
@[simp] theorem latchPixel_inbuf (s : State) : (latchPixel s).inbuf = s.inbuf := rfl
@[simp] theorem latchPixel_allframes (s : State) : (latchPixel s).allframes = s.allframes := rfl
@[simp] theorem latchPixel_pending (s : State) : (latchPixel s).pending = s.pending := rfl
@[simp] theorem latchPixel_rst (s : State) : (latchPixel s).rst = s.rst := rfl
@[simp] theorem latchPixel_config (s : State) : (latchPixel s).config = s.config := rfl
@[simp] theorem latchPixel_turns (s : State) : (latchPixel s).turns = s.turns := rfl
@[simp] theorem latchPixel_rdata (s : State) : (latchPixel s).rdata = s.rdata := rfl
@[simp] theorem latchPixel_powerOns (s : State) : (latchPixel s).powerOns = s.powerOns := rfl
@[simp] theorem latchPixel_draws (s : State) : (latchPixel s).draws = s.draws := rfl

/-! ### writePixel -/

@[simp] theorem writePixel_palCapSel (s : State) : (writePixel s).palCapSel = s.palCapSel := rfl
@[simp] theorem writePixel_busy (s : State) : (writePixel s).busy = s.busy := rfl
@[simp] theorem writePixel_done (s : State) : (writePixel s).done = s.done := rfl
@[simp] theorem writePixel_err (s : State) : (writePixel s).err = s.err := rfl
@[simp] theorem writePixel_overrun (s : State) : (writePixel s).overrun = s.overrun := rfl
@[simp] theorem writePixel_animState (s : State) : (writePixel s).animState = s.animState := rfl
@[simp] theorem writePixel_arg (s : State) : (writePixel s).arg = s.arg := rfl
@[simp] theorem writePixel_errCode (s : State) : (writePixel s).errCode = s.errCode := rfl
@[simp] theorem writePixel_errInfo (s : State) : (writePixel s).errInfo = s.errInfo := rfl
@[simp] theorem writePixel_pixX (s : State) : (writePixel s).pixX = s.pixX := rfl
@[simp] theorem writePixel_pixY (s : State) : (writePixel s).pixY = s.pixY := rfl
@[simp] theorem writePixel_pixWdata (s : State) : (writePixel s).pixWdata = s.pixWdata := rfl
@[simp] theorem writePixel_pixRdata (s : State) : (writePixel s).pixRdata = s.pixRdata := rfl
@[simp] theorem writePixel_palLen (s : State) : (writePixel s).palLen = s.palLen := rfl
@[simp] theorem writePixel_bitWidth (s : State) : (writePixel s).bitWidth = s.bitWidth := rfl
@[simp] theorem writePixel_frameLen (s : State) : (writePixel s).frameLen = s.frameLen := rfl
@[simp] theorem writePixel_outLen (s : State) : (writePixel s).outLen = s.outLen := rfl
@[simp] theorem writePixel_inLen (s : State) : (writePixel s).inLen = s.inLen := rfl
@[simp] theorem writePixel_animLen (s : State) : (writePixel s).animLen = s.animLen := rfl
@[simp] theorem writePixel_frameCount (s : State) : (writePixel s).frameCount = s.frameCount := rfl
@[simp] theorem writePixel_period (s : State) : (writePixel s).period = s.period := rfl
@[simp] theorem writePixel_chunkCount (s : State) : (writePixel s).chunkCount = s.chunkCount := rfl
@[simp] theorem writePixel_chunkIdx (s : State) : (writePixel s).chunkIdx = s.chunkIdx := rfl
@[simp] theorem writePixel_pixmem (s : State) : (writePixel s).pixmem = storePixel (operandCell s) (operandColour s) s.pixmem := rfl
@[simp] theorem writePixel_palmem (s : State) : (writePixel s).palmem = s.palmem := rfl
@[simp] theorem writePixel_idxmem (s : State) : (writePixel s).idxmem = s.idxmem := rfl
@[simp] theorem writePixel_framebuf (s : State) : (writePixel s).framebuf = s.framebuf := rfl
@[simp] theorem writePixel_out (s : State) : (writePixel s).out = s.out := rfl
@[simp] theorem writePixel_inbuf (s : State) : (writePixel s).inbuf = s.inbuf := rfl
@[simp] theorem writePixel_allframes (s : State) : (writePixel s).allframes = s.allframes := rfl
@[simp] theorem writePixel_pending (s : State) : (writePixel s).pending = s.pending := rfl
@[simp] theorem writePixel_rst (s : State) : (writePixel s).rst = s.rst := rfl
@[simp] theorem writePixel_config (s : State) : (writePixel s).config = s.config := rfl
@[simp] theorem writePixel_turns (s : State) : (writePixel s).turns = s.turns := rfl
@[simp] theorem writePixel_rdata (s : State) : (writePixel s).rdata = s.rdata := rfl
@[simp] theorem writePixel_powerOns (s : State) : (writePixel s).powerOns = s.powerOns := rfl
@[simp] theorem writePixel_draws (s : State) : (writePixel s).draws = s.draws := rfl

/-! ### openSession -/

@[simp] theorem openSession_palCapSel (s : State) : (openSession s).palCapSel = s.palCapSel := rfl
@[simp] theorem openSession_busy (s : State) : (openSession s).busy = s.busy := rfl
@[simp] theorem openSession_done (s : State) : (openSession s).done = s.done := rfl
@[simp] theorem openSession_err (s : State) : (openSession s).err = s.err := rfl
@[simp] theorem openSession_overrun (s : State) : (openSession s).overrun = s.overrun := rfl
@[simp] theorem openSession_animState (s : State) : (openSession s).animState = .collect := rfl
@[simp] theorem openSession_arg (s : State) : (openSession s).arg = s.arg := rfl
@[simp] theorem openSession_errCode (s : State) : (openSession s).errCode = s.errCode := rfl
@[simp] theorem openSession_errInfo (s : State) : (openSession s).errInfo = s.errInfo := rfl
@[simp] theorem openSession_pixX (s : State) : (openSession s).pixX = s.pixX := rfl
@[simp] theorem openSession_pixY (s : State) : (openSession s).pixY = s.pixY := rfl
@[simp] theorem openSession_pixWdata (s : State) : (openSession s).pixWdata = s.pixWdata := rfl
@[simp] theorem openSession_pixRdata (s : State) : (openSession s).pixRdata = s.pixRdata := rfl
@[simp] theorem openSession_palLen (s : State) : (openSession s).palLen = s.palLen := rfl
@[simp] theorem openSession_bitWidth (s : State) : (openSession s).bitWidth = s.bitWidth := rfl
@[simp] theorem openSession_frameLen (s : State) : (openSession s).frameLen = s.frameLen := rfl
@[simp] theorem openSession_outLen (s : State) : (openSession s).outLen = s.outLen := rfl
@[simp] theorem openSession_inLen (s : State) : (openSession s).inLen = s.inLen := rfl
@[simp] theorem openSession_animLen (s : State) : (openSession s).animLen = 0 := rfl
@[simp] theorem openSession_frameCount (s : State) : (openSession s).frameCount = 0 := rfl
@[simp] theorem openSession_period (s : State) : (openSession s).period = s.arg := rfl
@[simp] theorem openSession_chunkCount (s : State) : (openSession s).chunkCount = 0 := rfl
@[simp] theorem openSession_chunkIdx (s : State) : (openSession s).chunkIdx = 0 := rfl
@[simp] theorem openSession_pixmem (s : State) : (openSession s).pixmem = s.pixmem := rfl
@[simp] theorem openSession_palmem (s : State) : (openSession s).palmem = s.palmem := rfl
@[simp] theorem openSession_idxmem (s : State) : (openSession s).idxmem = s.idxmem := rfl
@[simp] theorem openSession_framebuf (s : State) : (openSession s).framebuf = s.framebuf := rfl
@[simp] theorem openSession_out (s : State) : (openSession s).out = s.out := rfl
@[simp] theorem openSession_inbuf (s : State) : (openSession s).inbuf = s.inbuf := rfl
@[simp] theorem openSession_allframes (s : State) : (openSession s).allframes = s.allframes := rfl
@[simp] theorem openSession_pending (s : State) : (openSession s).pending = s.pending := rfl
@[simp] theorem openSession_rst (s : State) : (openSession s).rst = s.rst := rfl
@[simp] theorem openSession_config (s : State) : (openSession s).config = s.config := rfl
@[simp] theorem openSession_turns (s : State) : (openSession s).turns = s.turns := rfl
@[simp] theorem openSession_rdata (s : State) : (openSession s).rdata = s.rdata := rfl
@[simp] theorem openSession_powerOns (s : State) : (openSession s).powerOns = s.powerOns := rfl
@[simp] theorem openSession_draws (s : State) : (openSession s).draws = s.draws := rfl

/-! ### fixChunks -/

@[simp] theorem fixChunks_palCapSel (s : State) : (fixChunks s).palCapSel = s.palCapSel := rfl
@[simp] theorem fixChunks_busy (s : State) : (fixChunks s).busy = s.busy := rfl
@[simp] theorem fixChunks_done (s : State) : (fixChunks s).done = s.done := rfl
@[simp] theorem fixChunks_err (s : State) : (fixChunks s).err = s.err := rfl
@[simp] theorem fixChunks_overrun (s : State) : (fixChunks s).overrun = s.overrun := rfl
@[simp] theorem fixChunks_animState (s : State) : (fixChunks s).animState = if chunksOf s = 0 then .idle else .emit := rfl
@[simp] theorem fixChunks_arg (s : State) : (fixChunks s).arg = s.arg := rfl
@[simp] theorem fixChunks_errCode (s : State) : (fixChunks s).errCode = s.errCode := rfl
@[simp] theorem fixChunks_errInfo (s : State) : (fixChunks s).errInfo = s.errInfo := rfl
@[simp] theorem fixChunks_pixX (s : State) : (fixChunks s).pixX = s.pixX := rfl
@[simp] theorem fixChunks_pixY (s : State) : (fixChunks s).pixY = s.pixY := rfl
@[simp] theorem fixChunks_pixWdata (s : State) : (fixChunks s).pixWdata = s.pixWdata := rfl
@[simp] theorem fixChunks_pixRdata (s : State) : (fixChunks s).pixRdata = s.pixRdata := rfl
@[simp] theorem fixChunks_palLen (s : State) : (fixChunks s).palLen = s.palLen := rfl
@[simp] theorem fixChunks_bitWidth (s : State) : (fixChunks s).bitWidth = s.bitWidth := rfl
@[simp] theorem fixChunks_frameLen (s : State) : (fixChunks s).frameLen = s.frameLen := rfl
@[simp] theorem fixChunks_outLen (s : State) : (fixChunks s).outLen = s.outLen := rfl
@[simp] theorem fixChunks_inLen (s : State) : (fixChunks s).inLen = s.inLen := rfl
@[simp] theorem fixChunks_animLen (s : State) : (fixChunks s).animLen = s.animLen := rfl
@[simp] theorem fixChunks_frameCount (s : State) : (fixChunks s).frameCount = s.frameCount := rfl
@[simp] theorem fixChunks_period (s : State) : (fixChunks s).period = s.period := rfl
@[simp] theorem fixChunks_chunkCount (s : State) : (fixChunks s).chunkCount = BitVec.ofNat 9 (chunksOf s) := rfl
@[simp] theorem fixChunks_chunkIdx (s : State) : (fixChunks s).chunkIdx = 0 := rfl
@[simp] theorem fixChunks_pixmem (s : State) : (fixChunks s).pixmem = s.pixmem := rfl
@[simp] theorem fixChunks_palmem (s : State) : (fixChunks s).palmem = s.palmem := rfl
@[simp] theorem fixChunks_idxmem (s : State) : (fixChunks s).idxmem = s.idxmem := rfl
@[simp] theorem fixChunks_framebuf (s : State) : (fixChunks s).framebuf = s.framebuf := rfl
@[simp] theorem fixChunks_out (s : State) : (fixChunks s).out = s.out := rfl
@[simp] theorem fixChunks_inbuf (s : State) : (fixChunks s).inbuf = s.inbuf := rfl
@[simp] theorem fixChunks_allframes (s : State) : (fixChunks s).allframes = s.allframes := rfl
@[simp] theorem fixChunks_pending (s : State) : (fixChunks s).pending = s.pending := rfl
@[simp] theorem fixChunks_rst (s : State) : (fixChunks s).rst = s.rst := rfl
@[simp] theorem fixChunks_config (s : State) : (fixChunks s).config = s.config := rfl
@[simp] theorem fixChunks_turns (s : State) : (fixChunks s).turns = s.turns := rfl
@[simp] theorem fixChunks_rdata (s : State) : (fixChunks s).rdata = s.rdata := rfl
@[simp] theorem fixChunks_powerOns (s : State) : (fixChunks s).powerOns = s.powerOns := rfl
@[simp] theorem fixChunks_draws (s : State) : (fixChunks s).draws = s.draws := rfl

/-! ### advanceChunk -/

@[simp] theorem advanceChunk_palCapSel (s : State) : (advanceChunk s).palCapSel = s.palCapSel := rfl
@[simp] theorem advanceChunk_busy (s : State) : (advanceChunk s).busy = s.busy := rfl
@[simp] theorem advanceChunk_done (s : State) : (advanceChunk s).done = s.done := rfl
@[simp] theorem advanceChunk_err (s : State) : (advanceChunk s).err = s.err := rfl
@[simp] theorem advanceChunk_overrun (s : State) : (advanceChunk s).overrun = s.overrun := rfl
@[simp] theorem advanceChunk_animState (s : State) :
    (advanceChunk s).animState = if s.chunkIdx.toNat + 1 = s.chunkCount.toNat then .idle else s.animState := rfl
@[simp] theorem advanceChunk_arg (s : State) : (advanceChunk s).arg = s.arg := rfl
@[simp] theorem advanceChunk_errCode (s : State) : (advanceChunk s).errCode = s.errCode := rfl
@[simp] theorem advanceChunk_errInfo (s : State) : (advanceChunk s).errInfo = s.errInfo := rfl
@[simp] theorem advanceChunk_pixX (s : State) : (advanceChunk s).pixX = s.pixX := rfl
@[simp] theorem advanceChunk_pixY (s : State) : (advanceChunk s).pixY = s.pixY := rfl
@[simp] theorem advanceChunk_pixWdata (s : State) : (advanceChunk s).pixWdata = s.pixWdata := rfl
@[simp] theorem advanceChunk_pixRdata (s : State) : (advanceChunk s).pixRdata = s.pixRdata := rfl
@[simp] theorem advanceChunk_palLen (s : State) : (advanceChunk s).palLen = s.palLen := rfl
@[simp] theorem advanceChunk_bitWidth (s : State) : (advanceChunk s).bitWidth = s.bitWidth := rfl
@[simp] theorem advanceChunk_frameLen (s : State) : (advanceChunk s).frameLen = s.frameLen := rfl
@[simp] theorem advanceChunk_outLen (s : State) : (advanceChunk s).outLen = s.outLen := rfl
@[simp] theorem advanceChunk_inLen (s : State) : (advanceChunk s).inLen = s.inLen := rfl
@[simp] theorem advanceChunk_animLen (s : State) : (advanceChunk s).animLen = s.animLen := rfl
@[simp] theorem advanceChunk_frameCount (s : State) : (advanceChunk s).frameCount = s.frameCount := rfl
@[simp] theorem advanceChunk_period (s : State) : (advanceChunk s).period = s.period := rfl
@[simp] theorem advanceChunk_chunkCount (s : State) : (advanceChunk s).chunkCount = s.chunkCount := rfl
@[simp] theorem advanceChunk_chunkIdx (s : State) : (advanceChunk s).chunkIdx = s.chunkIdx + 1 := rfl
@[simp] theorem advanceChunk_pixmem (s : State) : (advanceChunk s).pixmem = s.pixmem := rfl
@[simp] theorem advanceChunk_palmem (s : State) : (advanceChunk s).palmem = s.palmem := rfl
@[simp] theorem advanceChunk_idxmem (s : State) : (advanceChunk s).idxmem = s.idxmem := rfl
@[simp] theorem advanceChunk_framebuf (s : State) : (advanceChunk s).framebuf = s.framebuf := rfl
@[simp] theorem advanceChunk_out (s : State) : (advanceChunk s).out = s.out := rfl
@[simp] theorem advanceChunk_inbuf (s : State) : (advanceChunk s).inbuf = s.inbuf := rfl
@[simp] theorem advanceChunk_allframes (s : State) : (advanceChunk s).allframes = s.allframes := rfl
@[simp] theorem advanceChunk_pending (s : State) : (advanceChunk s).pending = s.pending := rfl
@[simp] theorem advanceChunk_rst (s : State) : (advanceChunk s).rst = s.rst := rfl
@[simp] theorem advanceChunk_config (s : State) : (advanceChunk s).config = s.config := rfl
@[simp] theorem advanceChunk_turns (s : State) : (advanceChunk s).turns = s.turns := rfl
@[simp] theorem advanceChunk_rdata (s : State) : (advanceChunk s).rdata = s.rdata := rfl
@[simp] theorem advanceChunk_powerOns (s : State) : (advanceChunk s).powerOns = s.powerOns := rfl
@[simp] theorem advanceChunk_draws (s : State) : (advanceChunk s).draws = s.draws := rfl

end Sys2Proof.Machine
end

