-- ==== Sys2Proof/Laws/Memory.lean ====
section
/-! SUPPORT. Reading a memory after writing it, and the canonical form: what the memory operations do, said once. -/

namespace Sys2Proof.Machine

variable {w : Nat}

/-! ### Looking up a cell -/

theorem lookupCell_append (m n : Mem w) (a : Nat) :
    lookupCell (m ++ n) a = (lookupCell m a).or (lookupCell n a) := by
  induction m with
  | nil => simp [lookupCell]
  | cons c m ih =>
    obtain ⟨b, v⟩ := c
    by_cases h : b = a <;> simp [lookupCell, h, ih]

theorem lookupCell_filter (p : Nat → Bool) (m : Mem w) (a : Nat) :
    lookupCell (m.filter (fun c => p c.1)) a = if p a then lookupCell m a else none := by
  induction m with
  | nil => simp [lookupCell]
  | cons c m ih =>
    obtain ⟨b, v⟩ := c
    by_cases h : b = a
    · subst h
      by_cases hp : p b
      · simp [lookupCell, hp]
      · simp [hp] at ih ⊢
        exact ih
    · by_cases hp : p b <;> simp [lookupCell, h, hp, ih]

theorem lookupCell_blockCells (vs : List (BitVec w)) (base a : Nat) :
    lookupCell (blockCells base vs) a = if base ≤ a then vs[a - base]? else none := by
  induction vs generalizing base with
  | nil => simp [blockCells, lookupCell]
  | cons v vs ih =>
    by_cases h : base = a
    · subst h; simp [blockCells, lookupCell]
    · rw [blockCells, lookupCell, if_neg h, ih]
      by_cases hle : base ≤ a
      · rw [if_pos (by omega), if_pos hle]
        obtain ⟨d, rfl⟩ : ∃ d, a = base + 1 + d := ⟨a - (base + 1), by omega⟩
        have e : base + 1 + d - base = d + 1 := by omega
        simp [e]
      · rw [if_neg (by omega), if_neg hle]

/-- Everything a block write does: the written addresses hold the block, every other address is as before. -/
theorem lookupCell_storeBlock (vs : List (BitVec w)) (base a : Nat) (m : Mem w) :
    lookupCell (storeBlock base vs m) a =
      if base ≤ a ∧ a < base + vs.length then vs[a - base]? else lookupCell m a := by
  rw [storeBlock, spliceCells, lookupCell_append, lookupCell_append, lookupCell_filter (fun b => decide (b < base)),
    lookupCell_filter (fun b => decide (base + vs.length ≤ b)), lookupCell_blockCells]
  by_cases h1 : base ≤ a
  · by_cases h2 : a < base + vs.length
    · have h3 : a - base < vs.length := by omega
      simp [h1, h2, Nat.not_lt.mpr h1, List.getElem?_eq_getElem h3]
    · have h3 : vs[a - base]? = none := by simp; omega
      simp [h1, h2, Nat.not_lt.mpr h1, h3, Nat.not_lt.mp h2]
  · have h2 : a < base := by omega
    have h3 : ¬ base + vs.length ≤ a := by omega
    simp [h1, h2, h3]

/-- Everything a pixel write does to the listed cells. -/
theorem lookupCell_storePixel (t a : Nat) (k : Key) (m : Mem 24) :
    lookupCell (storePixel t k m) a = if a = t then (if k = 0#24 then none else some k) else lookupCell m a := by
  rw [storePixel, spliceCells, lookupCell_append, lookupCell_append, lookupCell_filter (fun b => decide (b < t)),
    lookupCell_filter (fun b => decide (t + 1 ≤ b))]
  rcases Nat.lt_trichotomy a t with h | h | h
  · by_cases hk : k = 0#24 <;> simp [hk, lookupCell, h, h.ne, h.ne', show ¬ t + 1 ≤ a by omega]
  · subst h; by_cases hk : k = 0#24 <;> simp [hk, lookupCell]
  · by_cases hk : k = 0#24 <;> simp [hk, lookupCell, Nat.not_lt.mpr h.le, h.ne, h.ne', show t + 1 ≤ a by omega]

/-! ### Reading the memories after the named updates -/

/-- One cell after a block write. -/
theorem readCell_storeBlock (s t : State) (b : Bank) (base : Nat) (vs : List (BitVec w)) (m : Mem w) (a : Nat)
    (hu : unlisted t b a = unlisted s b a) :
    readCell t b (storeBlock base vs m) a =
      if h : base ≤ a ∧ a < base + vs.length then vs[a - base]'(by omega) else readCell s b m a := by
  rw [readCell, lookupCell_storeBlock]
  by_cases h : base ≤ a ∧ a < base + vs.length
  · have h3 : a - base < vs.length := by omega
    simp [h, List.getElem?_eq_getElem h3]
  · rw [if_neg h, dif_neg h, readCell, hu]

@[simp] theorem unlisted_of_powerOns (s t : State) (b : Bank) (a : Nat) (h : t.powerOns = s.powerOns) :
    unlisted t b a = unlisted s b a := by
  cases b <;> simp [unlisted, h]

/-! A cell depends only on its memory and on the reset its unlisted contents come from. -/

theorem pixel_congr {s t : State} (hm : t.pixmem = s.pixmem) (hp : t.powerOns = s.powerOns) (a : Nat) : pixel t a = pixel s a := by
  rw [pixel, pixel, readCell, readCell, hm, unlisted_of_powerOns s t _ a hp]

theorem palEntry_congr {s t : State} (hm : t.palmem = s.palmem) (hp : t.powerOns = s.powerOns) (a : Nat) : palEntry t a = palEntry s a := by
  rw [palEntry, palEntry, readCell, readCell, hm, unlisted_of_powerOns s t _ a hp]

theorem idxEntry_congr {s t : State} (hm : t.idxmem = s.idxmem) (hp : t.powerOns = s.powerOns) (a : Nat) : idxEntry t a = idxEntry s a := by
  rw [idxEntry, idxEntry, readCell, readCell, hm, unlisted_of_powerOns s t _ a hp]

theorem frameByte_congr {s t : State} (hm : t.framebuf = s.framebuf) (hp : t.powerOns = s.powerOns) (a : Nat) : frameByte t a = frameByte s a := by
  rw [frameByte, frameByte, readCell, readCell, hm, unlisted_of_powerOns s t _ a hp]

theorem outByte_congr {s t : State} (hm : t.out = s.out) (hp : t.powerOns = s.powerOns) (a : Nat) : outByte t a = outByte s a := by
  rw [outByte, outByte, readCell, readCell, hm, unlisted_of_powerOns s t _ a hp]

theorem inByte_congr {s t : State} (hm : t.inbuf = s.inbuf) (hp : t.powerOns = s.powerOns) (a : Nat) : inByte t a = inByte s a := by
  rw [inByte, inByte, readCell, readCell, hm, unlisted_of_powerOns s t _ a hp]

theorem animByte_congr {s t : State} (hm : t.allframes = s.allframes) (hp : t.powerOns = s.powerOns) (a : Nat) : animByte t a = animByte s a := by
  rw [animByte, animByte, readCell, readCell, hm, unlisted_of_powerOns s t _ a hp]

/-- `PIXMEM` after a pixel write: the cell holds the colour, every other cell is as before. -/
theorem pixel_storePixel (s : State) (t a : Nat) (k : Key) :
    pixel { s with pixmem := storePixel t k s.pixmem } a = if a = t then k else pixel s a := by
  by_cases h : a = t <;> by_cases hk : k = 0#24 <;> simp [pixel, readCell, lookupCell_storePixel, h, hk, unlisted]

theorem outByte_storeOut (m : List Byte) (s : State) (j : Nat) :
    outByte (storeOut m s) j = if h : j < m.length then m[j] else outByte s j := by
  have := readCell_storeBlock s (storeOut m s) .out 0 m s.out j rfl
  simpa [outByte] using this

theorem frameByte_storeFrame (f : List Byte) (s : State) (j : Nat) :
    frameByte (storeFrame f s) j = if h : j < f.length then f[j] else frameByte s j := by
  have := readCell_storeBlock s (storeFrame f s) .frame 0 f s.framebuf j rfl
  simpa [frameByte] using this

theorem palEntry_storePalette (r : Encoded) (s : State) (i : Nat) :
    palEntry (storePalette r s) i = if h : i < r.palette.length then r.palette[i] else palEntry s i := by
  have := readCell_storeBlock s (storePalette r s) .pal 0 r.palette s.palmem i rfl
  simpa [palEntry] using this

theorem idxEntry_storePalette (r : Encoded) (s : State) (t : Nat) :
    idxEntry (storePalette r s) t =
      if h : t < r.indices.length then BitVec.ofNat 10 r.indices[t] else idxEntry s t := by
  have := readCell_storeBlock s (storePalette r s) .idx 0 (r.indices.map (BitVec.ofNat 10)) s.idxmem t rfl
  simpa [idxEntry] using this

theorem inByte_storeIn (s : State) (base : Nat) (vs : List Byte) (j : Nat) :
    inByte { s with inbuf := storeBlock base vs s.inbuf } j =
      if h : base ≤ j ∧ j < base + vs.length then vs[j - base]'(by omega) else inByte s j :=
  readCell_storeBlock s { s with inbuf := storeBlock base vs s.inbuf } .input base vs s.inbuf j rfl

theorem animByte_appendFrame (r : Encoded) (f : List Byte) (s : State) (j : Nat) :
    animByte (appendFrame r f s) j =
      if h : s.animLen.toNat ≤ j ∧ j < s.animLen.toNat + f.length then f[j - s.animLen.toNat]'(by omega)
      else animByte s j :=
  readCell_storeBlock s (appendFrame r f s) .anim s.animLen.toNat f s.allframes j rfl

/-! ### The canonical form -/

theorem mem_blockCells (vs : List (BitVec w)) (base : Nat) (c : Nat × BitVec w) (h : c ∈ blockCells base vs) :
    base ≤ c.1 ∧ c.1 < base + vs.length := by
  induction vs generalizing base with
  | nil => simp [blockCells] at h
  | cons v vs ih =>
    simp only [blockCells, List.mem_cons] at h
    rcases h with rfl | h
    · simp
    · have := ih (base + 1) h
      simp only [List.length_cons]; omega

theorem blockCells_pairwise (vs : List (BitVec w)) (base : Nat) :
    (blockCells base vs).Pairwise (fun a b => a.1 < b.1) := by
  induction vs generalizing base with
  | nil => simp [blockCells]
  | cons v vs ih =>
    rw [blockCells, List.pairwise_cons]
    exact ⟨fun c hc => by have := mem_blockCells vs (base + 1) c hc; simp only; omega, ih (base + 1)⟩

/-- Replacing a block of addresses by rising cells of that block keeps the canonical form. -/
theorem spliceCells_wf {size base len : Nat} {cells m : Mem w} (hm : Mem.Wf size m)
    (hc : cells.Pairwise (fun a b => a.1 < b.1)) (hr : ∀ c ∈ cells, base ≤ c.1 ∧ c.1 < base + len)
    (hsize : base + len ≤ size) : Mem.Wf size (spliceCells base len cells m) := by
  obtain ⟨hp, hb⟩ := hm
  refine ⟨?_, ?_⟩
  · rw [spliceCells, List.pairwise_append, List.pairwise_append]
    refine ⟨⟨hp.filter _, hc, ?_⟩, hp.filter _, ?_⟩
    · intro a ha b hb'
      have h1 : a.1 < base := by simpa using (List.mem_filter.mp ha).2
      have h2 := hr b hb'
      omega
    · intro a ha b hb'
      have h2 : base + len ≤ b.1 := by simpa using (List.mem_filter.mp hb').2
      rcases List.mem_append.mp ha with ha | ha
      · have h1 : a.1 < base := by simpa using (List.mem_filter.mp ha).2
        omega
      · have h1 := hr a ha
        omega
  · intro c hc'
    rw [spliceCells, List.mem_append, List.mem_append] at hc'
    rcases hc' with (h | h) | h
    · exact hb c (List.mem_filter.mp h).1
    · have := hr c h; omega
    · exact hb c (List.mem_filter.mp h).1

theorem storeBlock_wf {size base : Nat} {vs : List (BitVec w)} {m : Mem w} (hm : Mem.Wf size m)
    (h : base + vs.length ≤ size) : Mem.Wf size (storeBlock base vs m) :=
  spliceCells_wf hm (blockCells_pairwise vs base) (mem_blockCells vs base) h

theorem storePixel_wf {t : Nat} {k : Key} {m : Mem 24} (hm : Mem.Wf 1024 m) (h : t < 1024) :
    Mem.Wf 1024 (storePixel t k m) := by
  refine spliceCells_wf hm ?_ ?_ (by omega)
  · by_cases hk : k = 0#24 <;> simp [hk]
  · by_cases hk : k = 0#24 <;> simp [hk]

theorem storePixel_no_black {t : Nat} {k : Key} {m : Mem 24} (hm : ∀ c ∈ m, c.2 ≠ 0#24) :
    ∀ c ∈ storePixel t k m, c.2 ≠ 0#24 := by
  intro c hc
  rw [storePixel, spliceCells, List.mem_append, List.mem_append] at hc
  rcases hc with (h | h) | h
  · exact hm c (List.mem_filter.mp h).1
  · split at h
    · simp at h
    · rename_i hk
      rw [List.mem_singleton.mp h]; exact hk
  · exact hm c (List.mem_filter.mp h).1

theorem Memory.wf_reset : Memory.wf State.reset := by simp [Memory.wf, Mem.Wf, State.reset]

end Sys2Proof.Machine
end

