-- ==== Sys2Proof/Laws/Cells.lean ====
section
/-! SUPPORT. The cells of each memory after a named update that does not write it. -/

namespace Sys2Proof.Machine

@[simp] theorem pixel_accept (w : Word) (s : State) (a : Nat) : pixel (accept w s) a = pixel s a := pixel_congr rfl rfl a
@[simp] theorem palEntry_accept (w : Word) (s : State) (a : Nat) : palEntry (accept w s) a = palEntry s a := palEntry_congr rfl rfl a
@[simp] theorem idxEntry_accept (w : Word) (s : State) (a : Nat) : idxEntry (accept w s) a = idxEntry s a := idxEntry_congr rfl rfl a
@[simp] theorem frameByte_accept (w : Word) (s : State) (a : Nat) : frameByte (accept w s) a = frameByte s a := frameByte_congr rfl rfl a
@[simp] theorem outByte_accept (w : Word) (s : State) (a : Nat) : outByte (accept w s) a = outByte s a := outByte_congr rfl rfl a
@[simp] theorem inByte_accept (w : Word) (s : State) (a : Nat) : inByte (accept w s) a = inByte s a := inByte_congr rfl rfl a
@[simp] theorem animByte_accept (w : Word) (s : State) (a : Nat) : animByte (accept w s) a = animByte s a := animByte_congr rfl rfl a

@[simp] theorem pixel_complete (s : State) (a : Nat) : pixel (complete s) a = pixel s a := pixel_congr rfl rfl a
@[simp] theorem palEntry_complete (s : State) (a : Nat) : palEntry (complete s) a = palEntry s a := palEntry_congr rfl rfl a
@[simp] theorem idxEntry_complete (s : State) (a : Nat) : idxEntry (complete s) a = idxEntry s a := idxEntry_congr rfl rfl a
@[simp] theorem frameByte_complete (s : State) (a : Nat) : frameByte (complete s) a = frameByte s a := frameByte_congr rfl rfl a
@[simp] theorem outByte_complete (s : State) (a : Nat) : outByte (complete s) a = outByte s a := outByte_congr rfl rfl a
@[simp] theorem inByte_complete (s : State) (a : Nat) : inByte (complete s) a = inByte s a := inByte_congr rfl rfl a
@[simp] theorem animByte_complete (s : State) (a : Nat) : animByte (complete s) a = animByte s a := animByte_congr rfl rfl a

@[simp] theorem pixel_failCommand (c : Option Instr) (e : CmdError) (info : BitVec 16) (s : State) (a : Nat) : pixel (failCommand c e info s) a = pixel s a := pixel_congr rfl rfl a
@[simp] theorem palEntry_failCommand (c : Option Instr) (e : CmdError) (info : BitVec 16) (s : State) (a : Nat) : palEntry (failCommand c e info s) a = palEntry s a := palEntry_congr rfl rfl a
@[simp] theorem idxEntry_failCommand (c : Option Instr) (e : CmdError) (info : BitVec 16) (s : State) (a : Nat) : idxEntry (failCommand c e info s) a = idxEntry s a := idxEntry_congr rfl rfl a
@[simp] theorem frameByte_failCommand (c : Option Instr) (e : CmdError) (info : BitVec 16) (s : State) (a : Nat) : frameByte (failCommand c e info s) a = frameByte s a := frameByte_congr rfl rfl a
@[simp] theorem outByte_failCommand (c : Option Instr) (e : CmdError) (info : BitVec 16) (s : State) (a : Nat) : outByte (failCommand c e info s) a = outByte s a := outByte_congr rfl rfl a
@[simp] theorem inByte_failCommand (c : Option Instr) (e : CmdError) (info : BitVec 16) (s : State) (a : Nat) : inByte (failCommand c e info s) a = inByte s a := inByte_congr rfl rfl a
@[simp] theorem animByte_failCommand (c : Option Instr) (e : CmdError) (info : BitVec 16) (s : State) (a : Nat) : animByte (failCommand c e info s) a = animByte s a := animByte_congr rfl rfl a

@[simp] theorem pixel_storeOut (m : List Byte) (s : State) (a : Nat) : pixel (storeOut m s) a = pixel s a := pixel_congr rfl rfl a
@[simp] theorem palEntry_storeOut (m : List Byte) (s : State) (a : Nat) : palEntry (storeOut m s) a = palEntry s a := palEntry_congr rfl rfl a
@[simp] theorem idxEntry_storeOut (m : List Byte) (s : State) (a : Nat) : idxEntry (storeOut m s) a = idxEntry s a := idxEntry_congr rfl rfl a
@[simp] theorem frameByte_storeOut (m : List Byte) (s : State) (a : Nat) : frameByte (storeOut m s) a = frameByte s a := frameByte_congr rfl rfl a
@[simp] theorem inByte_storeOut (m : List Byte) (s : State) (a : Nat) : inByte (storeOut m s) a = inByte s a := inByte_congr rfl rfl a
@[simp] theorem animByte_storeOut (m : List Byte) (s : State) (a : Nat) : animByte (storeOut m s) a = animByte s a := animByte_congr rfl rfl a

@[simp] theorem pixel_storeFrame (f : List Byte) (s : State) (a : Nat) : pixel (storeFrame f s) a = pixel s a := pixel_congr rfl rfl a
@[simp] theorem palEntry_storeFrame (f : List Byte) (s : State) (a : Nat) : palEntry (storeFrame f s) a = palEntry s a := palEntry_congr rfl rfl a
@[simp] theorem idxEntry_storeFrame (f : List Byte) (s : State) (a : Nat) : idxEntry (storeFrame f s) a = idxEntry s a := idxEntry_congr rfl rfl a
@[simp] theorem outByte_storeFrame (f : List Byte) (s : State) (a : Nat) : outByte (storeFrame f s) a = outByte s a := outByte_congr rfl rfl a
@[simp] theorem inByte_storeFrame (f : List Byte) (s : State) (a : Nat) : inByte (storeFrame f s) a = inByte s a := inByte_congr rfl rfl a
@[simp] theorem animByte_storeFrame (f : List Byte) (s : State) (a : Nat) : animByte (storeFrame f s) a = animByte s a := animByte_congr rfl rfl a

@[simp] theorem pixel_storePalette (r : Encoded) (s : State) (a : Nat) : pixel (storePalette r s) a = pixel s a := pixel_congr rfl rfl a
@[simp] theorem frameByte_storePalette (r : Encoded) (s : State) (a : Nat) : frameByte (storePalette r s) a = frameByte s a := frameByte_congr rfl rfl a
@[simp] theorem outByte_storePalette (r : Encoded) (s : State) (a : Nat) : outByte (storePalette r s) a = outByte s a := outByte_congr rfl rfl a
@[simp] theorem inByte_storePalette (r : Encoded) (s : State) (a : Nat) : inByte (storePalette r s) a = inByte s a := inByte_congr rfl rfl a
@[simp] theorem animByte_storePalette (r : Encoded) (s : State) (a : Nat) : animByte (storePalette r s) a = animByte s a := animByte_congr rfl rfl a

@[simp] theorem palEntry_softResetState (s : State) (a : Nat) : palEntry (softResetState s) a = palEntry s a := palEntry_congr rfl rfl a
@[simp] theorem idxEntry_softResetState (s : State) (a : Nat) : idxEntry (softResetState s) a = idxEntry s a := idxEntry_congr rfl rfl a
@[simp] theorem frameByte_softResetState (s : State) (a : Nat) : frameByte (softResetState s) a = frameByte s a := frameByte_congr rfl rfl a
@[simp] theorem outByte_softResetState (s : State) (a : Nat) : outByte (softResetState s) a = outByte s a := outByte_congr rfl rfl a
@[simp] theorem inByte_softResetState (s : State) (a : Nat) : inByte (softResetState s) a = inByte s a := inByte_congr rfl rfl a
@[simp] theorem animByte_softResetState (s : State) (a : Nat) : animByte (softResetState s) a = animByte s a := animByte_congr rfl rfl a

@[simp] theorem pixel_appendFrame (r : Encoded) (f : List Byte) (s : State) (a : Nat) : pixel (appendFrame r f s) a = pixel s a := pixel_congr rfl rfl a
@[simp] theorem outByte_appendFrame (r : Encoded) (f : List Byte) (s : State) (a : Nat) : outByte (appendFrame r f s) a = outByte s a := outByte_congr rfl rfl a
@[simp] theorem inByte_appendFrame (r : Encoded) (f : List Byte) (s : State) (a : Nat) : inByte (appendFrame r f s) a = inByte s a := inByte_congr rfl rfl a

@[simp] theorem pixel_storeBuilt (r : Encoded) (f : List Byte) (s : State) (a : Nat) : pixel (storeBuilt r f s) a = pixel s a := pixel_congr rfl rfl a
@[simp] theorem outByte_storeBuilt (r : Encoded) (f : List Byte) (s : State) (a : Nat) : outByte (storeBuilt r f s) a = outByte s a := outByte_congr rfl rfl a
@[simp] theorem inByte_storeBuilt (r : Encoded) (f : List Byte) (s : State) (a : Nat) : inByte (storeBuilt r f s) a = inByte s a := inByte_congr rfl rfl a
@[simp] theorem animByte_storeBuilt (r : Encoded) (f : List Byte) (s : State) (a : Nat) : animByte (storeBuilt r f s) a = animByte s a := animByte_congr rfl rfl a

@[simp] theorem palEntry_clearGrid (s : State) (a : Nat) : palEntry (clearGrid s) a = palEntry s a := palEntry_congr rfl rfl a
@[simp] theorem idxEntry_clearGrid (s : State) (a : Nat) : idxEntry (clearGrid s) a = idxEntry s a := idxEntry_congr rfl rfl a
@[simp] theorem frameByte_clearGrid (s : State) (a : Nat) : frameByte (clearGrid s) a = frameByte s a := frameByte_congr rfl rfl a
@[simp] theorem outByte_clearGrid (s : State) (a : Nat) : outByte (clearGrid s) a = outByte s a := outByte_congr rfl rfl a
@[simp] theorem inByte_clearGrid (s : State) (a : Nat) : inByte (clearGrid s) a = inByte s a := inByte_congr rfl rfl a
@[simp] theorem animByte_clearGrid (s : State) (a : Nat) : animByte (clearGrid s) a = animByte s a := animByte_congr rfl rfl a

@[simp] theorem pixel_latchPixel (s : State) (a : Nat) : pixel (latchPixel s) a = pixel s a := pixel_congr rfl rfl a
@[simp] theorem palEntry_latchPixel (s : State) (a : Nat) : palEntry (latchPixel s) a = palEntry s a := palEntry_congr rfl rfl a
@[simp] theorem idxEntry_latchPixel (s : State) (a : Nat) : idxEntry (latchPixel s) a = idxEntry s a := idxEntry_congr rfl rfl a
@[simp] theorem frameByte_latchPixel (s : State) (a : Nat) : frameByte (latchPixel s) a = frameByte s a := frameByte_congr rfl rfl a
@[simp] theorem outByte_latchPixel (s : State) (a : Nat) : outByte (latchPixel s) a = outByte s a := outByte_congr rfl rfl a
@[simp] theorem inByte_latchPixel (s : State) (a : Nat) : inByte (latchPixel s) a = inByte s a := inByte_congr rfl rfl a
@[simp] theorem animByte_latchPixel (s : State) (a : Nat) : animByte (latchPixel s) a = animByte s a := animByte_congr rfl rfl a

@[simp] theorem palEntry_writePixel (s : State) (a : Nat) : palEntry (writePixel s) a = palEntry s a := palEntry_congr rfl rfl a
@[simp] theorem idxEntry_writePixel (s : State) (a : Nat) : idxEntry (writePixel s) a = idxEntry s a := idxEntry_congr rfl rfl a
@[simp] theorem frameByte_writePixel (s : State) (a : Nat) : frameByte (writePixel s) a = frameByte s a := frameByte_congr rfl rfl a
@[simp] theorem outByte_writePixel (s : State) (a : Nat) : outByte (writePixel s) a = outByte s a := outByte_congr rfl rfl a
@[simp] theorem inByte_writePixel (s : State) (a : Nat) : inByte (writePixel s) a = inByte s a := inByte_congr rfl rfl a
@[simp] theorem animByte_writePixel (s : State) (a : Nat) : animByte (writePixel s) a = animByte s a := animByte_congr rfl rfl a

@[simp] theorem pixel_openSession (s : State) (a : Nat) : pixel (openSession s) a = pixel s a := pixel_congr rfl rfl a
@[simp] theorem palEntry_openSession (s : State) (a : Nat) : palEntry (openSession s) a = palEntry s a := palEntry_congr rfl rfl a
@[simp] theorem idxEntry_openSession (s : State) (a : Nat) : idxEntry (openSession s) a = idxEntry s a := idxEntry_congr rfl rfl a
@[simp] theorem frameByte_openSession (s : State) (a : Nat) : frameByte (openSession s) a = frameByte s a := frameByte_congr rfl rfl a
@[simp] theorem outByte_openSession (s : State) (a : Nat) : outByte (openSession s) a = outByte s a := outByte_congr rfl rfl a
@[simp] theorem inByte_openSession (s : State) (a : Nat) : inByte (openSession s) a = inByte s a := inByte_congr rfl rfl a
@[simp] theorem animByte_openSession (s : State) (a : Nat) : animByte (openSession s) a = animByte s a := animByte_congr rfl rfl a

@[simp] theorem pixel_fixChunks (s : State) (a : Nat) : pixel (fixChunks s) a = pixel s a := pixel_congr rfl rfl a
@[simp] theorem palEntry_fixChunks (s : State) (a : Nat) : palEntry (fixChunks s) a = palEntry s a := palEntry_congr rfl rfl a
@[simp] theorem idxEntry_fixChunks (s : State) (a : Nat) : idxEntry (fixChunks s) a = idxEntry s a := idxEntry_congr rfl rfl a
@[simp] theorem frameByte_fixChunks (s : State) (a : Nat) : frameByte (fixChunks s) a = frameByte s a := frameByte_congr rfl rfl a
@[simp] theorem outByte_fixChunks (s : State) (a : Nat) : outByte (fixChunks s) a = outByte s a := outByte_congr rfl rfl a
@[simp] theorem inByte_fixChunks (s : State) (a : Nat) : inByte (fixChunks s) a = inByte s a := inByte_congr rfl rfl a
@[simp] theorem animByte_fixChunks (s : State) (a : Nat) : animByte (fixChunks s) a = animByte s a := animByte_congr rfl rfl a

@[simp] theorem pixel_advanceChunk (s : State) (a : Nat) : pixel (advanceChunk s) a = pixel s a := pixel_congr rfl rfl a
@[simp] theorem palEntry_advanceChunk (s : State) (a : Nat) : palEntry (advanceChunk s) a = palEntry s a := palEntry_congr rfl rfl a
@[simp] theorem idxEntry_advanceChunk (s : State) (a : Nat) : idxEntry (advanceChunk s) a = idxEntry s a := idxEntry_congr rfl rfl a
@[simp] theorem frameByte_advanceChunk (s : State) (a : Nat) : frameByte (advanceChunk s) a = frameByte s a := frameByte_congr rfl rfl a
@[simp] theorem outByte_advanceChunk (s : State) (a : Nat) : outByte (advanceChunk s) a = outByte s a := outByte_congr rfl rfl a
@[simp] theorem inByte_advanceChunk (s : State) (a : Nat) : inByte (advanceChunk s) a = inByte s a := inByte_congr rfl rfl a
@[simp] theorem animByte_advanceChunk (s : State) (a : Nat) : animByte (advanceChunk s) a = animByte s a := animByte_congr rfl rfl a

end Sys2Proof.Machine
end

