-- ==== Sys2Proof/Laws/Palette.lean ====
section
/-! SUPPORT. What the palette traversal and the bit width give, said once. -/

namespace Sys2Proof.Machine

/-! ### The traversal -/

/-- The colour map records exactly the palette found so far, each colour at its position. -/
def MapRecords (found : List Key) (map : List (Key × Nat)) : Prop :=
  ∀ k, map.lookup k = if k ∈ found then some (found.idxOf k) else none

theorem mapRecords_nil : MapRecords [] [] := by intro k; simp

theorem mapRecords_append {found : List Key} {map : List (Key × Nat)} {k : Key} (h : MapRecords found map)
    (hk : k ∉ found) : MapRecords (found ++ [k]) ((k, found.length) :: map) := by
  intro k'
  by_cases e : k' = k
  · subst e; simp [List.idxOf_append, hk]
  · have e' : (k' == k) = false := by simp [e]
    rw [List.lookup_cons, e', h k']
    by_cases hm : k' ∈ found <;> simp [e, hm, List.idxOf_append]

/-- Everything the traversal from a cell on does, given the colours found before it. -/
structure ScanSpec (found cells : List Key) (r : Encoded) : Prop where
  length_indices : r.indices.length = cells.length
  mem_palette : ∀ k, k ∈ r.palette ↔ k ∈ cells ∧ k ∉ found
  nodup : (found ++ r.palette).Nodup
  resolves : ∀ t (h : t < cells.length) (h' : t < r.indices.length),
    (found ++ r.palette)[r.indices[t]]? = some cells[t]
  firstOccurrence : (r.palette.map cells.idxOf).Pairwise (· < ·)
  nextUnused : ∀ t (h : t < r.indices.length),
    r.indices[t] ≤ ((r.indices.take t).map (· + 1)).foldr max found.length

theorem foldr_max_succ_le (l : List Nat) (a : Nat) : l.foldr max a ≤ l.foldr max (a + 1) := by
  induction l with
  | nil => simp
  | cons x l ih => simp only [List.foldr_cons]; omega

theorem foldr_max_cons (l : List Nat) (a : Nat) : l.foldr max (a + 1) = max (a + 1) (l.foldr max a) := by
  induction l with
  | nil => simp
  | cons x l ih => simp only [List.foldr_cons, ih]; omega

theorem le_foldr_max (l : List Nat) (a : Nat) : a ≤ l.foldr max a := by
  induction l with
  | nil => simp
  | cons x l ih => simp only [List.foldr_cons]; omega

theorem paletteScan_spec (cells : List Key) (found : List Key) (map : List (Key × Nat)) (hm : MapRecords found map)
    (hn : found.Nodup) : ScanSpec found cells (paletteScan cells map found.length) := by
  induction cells generalizing found map with
  | nil =>
    exact ⟨by simp [paletteScan], by simp [paletteScan], by simpa [paletteScan] using hn, by simp, by simp [paletteScan],
      by simp [paletteScan]⟩
  | cons k ks ih =>
    by_cases hk : k ∈ found
    · have hl : map.lookup k = some (found.idxOf k) := by rw [hm k, if_pos hk]
      have I := ih found map hm hn
      generalize hr : paletteScan ks map found.length = r at I
      have e : paletteScan (k :: ks) map found.length = ⟨r.palette, found.idxOf k :: r.indices⟩ := by
        simp only [paletteScan, hl, hr]
      have hi : found.idxOf k < found.length := List.idxOf_lt_length_of_mem hk
      rw [e]
      refine ⟨by simp [I.length_indices], ?_, I.nodup, ?_, ?_, ?_⟩
      · intro k'
        rw [I.mem_palette]
        constructor
        · rintro ⟨a, b⟩; exact ⟨List.mem_cons_of_mem _ a, b⟩
        · rintro ⟨a, b⟩
          rcases List.mem_cons.mp a with rfl | a
          · exact absurd hk b
          · exact ⟨a, b⟩
      · intro t h h'
        cases t with
        | zero => simp [List.getElem?_append_left hi, List.getElem?_eq_getElem hi]
        | succ t => simpa using I.resolves t (by simpa using h) (by simpa using h')
      · have hne : ∀ k' ∈ r.palette, (k :: ks).idxOf k' = ks.idxOf k' + 1 := by
          intro k' hk'
          have : k' ≠ k := by rintro rfl; exact ((I.mem_palette _).mp hk').2 hk
          rw [List.idxOf_cons_ne _ (Ne.symm this)]
        rw [List.map_congr_left hne]
        have := I.firstOccurrence
        rw [List.pairwise_map] at this ⊢
        exact this.imp (by intro a b h; omega)
      · intro t h
        cases t with
        | zero => simpa using hi.le
        | succ t =>
          have := I.nextUnused t (by simpa using h)
          simp only [List.getElem_cons_succ, List.take_succ_cons, List.map_cons, List.foldr_cons]
          omega
    · have hl : map.lookup k = none := by rw [hm k, if_neg hk]
      have hn' : (found ++ [k]).Nodup := by
        rw [List.nodup_append]; exact ⟨hn, by simp, by rintro a ha b hb; simp at hb; subst hb; rintro rfl; exact hk ha⟩
      have I := ih (found ++ [k]) _ (mapRecords_append hm hk) hn'
      rw [List.length_append, List.length_singleton] at I
      generalize hr : paletteScan ks ((k, found.length) :: map) (found.length + 1) = r at I
      have e : paletteScan (k :: ks) map found.length = ⟨k :: r.palette, found.length :: r.indices⟩ := by
        simp only [paletteScan, hl, hr]
      have assoc : found ++ k :: r.palette = (found ++ [k]) ++ r.palette := by simp
      rw [e]
      refine ⟨by simp [I.length_indices], ?_, by rw [assoc]; exact I.nodup, ?_, ?_, ?_⟩
      · intro k'
        simp only [List.mem_cons, I.mem_palette, List.mem_append, List.not_mem_nil, or_false, not_or]
        constructor
        · rintro (rfl | ⟨a, b, _⟩)
          · exact ⟨Or.inl rfl, hk⟩
          · exact ⟨Or.inr a, b⟩
        · rintro ⟨rfl | a, b⟩
          · exact Or.inl rfl
          · by_cases c : k' = k
            · exact Or.inl c
            · exact Or.inr ⟨a, b, c⟩
      · intro t h h'
        cases t with
        | zero => simp
        | succ t =>
          have := I.resolves t (by simpa using h) (by simpa using h')
          rw [assoc]; simpa using this
      · rw [List.map_cons, List.idxOf_cons_self, List.pairwise_cons]
        have hne : ∀ k' ∈ r.palette, (k :: ks).idxOf k' = ks.idxOf k' + 1 := by
          intro k' hk'
          have : k' ≠ k := by rintro rfl; exact ((I.mem_palette _).mp hk').2 (by simp)
          rw [List.idxOf_cons_ne _ (Ne.symm this)]
        rw [List.map_congr_left hne]
        refine ⟨by intro a ha; obtain ⟨b, _, rfl⟩ := List.mem_map.mp ha; omega, ?_⟩
        have := I.firstOccurrence
        rw [List.pairwise_map] at this ⊢
        exact this.imp (by intro a b h; omega)
      · intro t h
        cases t with
        | zero => simp
        | succ t =>
          have := I.nextUnused t (by simpa using h)
          simp only [List.length_append, List.length_singleton] at this
          rw [foldr_max_cons] at this
          simpa using this

/-- Everything the palette encoder does to a grid: R133 with the map empty at the start. -/
theorem encodeGrid_spec (cells : List Key) : ScanSpec [] cells (encodeGrid cells) := by
  rw [encodeGrid]; exact paletteScan_spec cells [] [] mapRecords_nil List.nodup_nil

theorem encodeGrid_palette_le (cells : List Key) : (encodeGrid cells).palette.length ≤ cells.length := by
  have S := encodeGrid_spec cells
  have hn : (encodeGrid cells).palette.Nodup := by simpa using S.nodup
  exact (hn.subperm (fun k hk => ((S.mem_palette k).mp hk).1)).length_le

theorem encodeGrid_index_lt (cells : List Key) (t : Nat) (h : t < (encodeGrid cells).indices.length) :
    (encodeGrid cells).indices[t] < (encodeGrid cells).palette.length := by
  have S := encodeGrid_spec cells
  have := S.resolves t (by rw [← S.length_indices]; exact h) h
  rw [List.nil_append] at this
  exact (List.getElem?_eq_some_iff.mp this).1

theorem encodeGrid_palette_pos (k : Key) (cells : List Key) : 0 < (encodeGrid (k :: cells)).palette.length := by
  have S := encodeGrid_spec (k :: cells)
  exact List.length_pos_of_mem ((S.mem_palette k).mpr ⟨by simp, by simp⟩)

@[simp] theorem gridKeys_length (s : State) : (gridKeys s).length = 1024 := by simp [gridKeys]

@[simp] theorem gridKeys_getElem (s : State) (t : Nat) (h : t < (gridKeys s).length) :
    (gridKeys s)[t] = pixel s t := by simp [gridKeys]

theorem gridKeys_cons (s : State) : gridKeys s = pixel s 0 :: (List.range' 1 1023).map (pixel s) := by
  rw [gridKeys, List.range_eq_range', List.range'_succ, List.map_cons]

/-- The palette of the stored grid has 1 to 1024 entries. -/
theorem grid_palette_length (s : State) :
    1 ≤ (encodeGrid (gridKeys s)).palette.length ∧ (encodeGrid (gridKeys s)).palette.length ≤ 1024 := by
  constructor
  · rw [gridKeys_cons]; exact encodeGrid_palette_pos _ _
  · simpa using encodeGrid_palette_le (gridKeys s)

@[simp] theorem grid_indices_length (s : State) : (encodeGrid (gridKeys s)).indices.length = 1024 := by
  rw [(encodeGrid_spec _).length_indices, gridKeys_length]

/-! ### The palette stage -/

/-- The stage in one equation. -/
theorem paletteStage_eq (s : State) : paletteStage s =
    if paletteCap s < (encodeGrid (gridKeys s)).palette.length then .error (encodeGrid (gridKeys s)).palette.length
    else .ok (encodeGrid (gridKeys s)) := by
  rw [paletteStage]

/-- The stage succeeds exactly when the distinct colours fit the cap. -/
theorem paletteStage_ok {s : State} (h : (encodeGrid (gridKeys s)).palette.length ≤ paletteCap s) :
    paletteStage s = .ok (encodeGrid (gridKeys s)) := by
  rw [paletteStage_eq, if_neg (Nat.not_lt.mpr h)]

theorem paletteStage_error {s : State} (h : paletteCap s < (encodeGrid (gridKeys s)).palette.length) :
    paletteStage s = .error (encodeGrid (gridKeys s)).palette.length := by
  rw [paletteStage_eq, if_pos h]

/-- Whatever the stage answers, it answers one of these two. -/
theorem paletteStage_cases (s : State) :
    (paletteStage s = .ok (encodeGrid (gridKeys s)) ∧ (encodeGrid (gridKeys s)).palette.length ≤ paletteCap s) ∨
      (paletteStage s = .error (encodeGrid (gridKeys s)).palette.length ∧
        paletteCap s < (encodeGrid (gridKeys s)).palette.length) := by
  by_cases h : (encodeGrid (gridKeys s)).palette.length ≤ paletteCap s
  · exact Or.inl ⟨paletteStage_ok h, h⟩
  · exact Or.inr ⟨paletteStage_error (by omega), by omega⟩

/-- The frame stage follows the palette stage. -/
theorem buildFrame_cases (tc : BitVec 16) (s : State) :
    (buildFrame tc s = .ok (encodeGrid (gridKeys s), frameRecord tc (encodeGrid (gridKeys s))) ∧
        (encodeGrid (gridKeys s)).palette.length ≤ paletteCap s) ∨
      (buildFrame tc s = .error (encodeGrid (gridKeys s)).palette.length ∧
        paletteCap s < (encodeGrid (gridKeys s)).palette.length) := by
  rcases paletteStage_cases s with ⟨h, h'⟩ | ⟨h, h'⟩
  · exact Or.inl ⟨by simp only [buildFrame, h], h'⟩
  · exact Or.inr ⟨by simp only [buildFrame, h], h'⟩

/-! ### The bit width -/

theorem leastWidth_spec (p fuel b : Nat) (hf : p ≤ 2 ^ (b + fuel)) :
    b ≤ leastWidth p fuel b ∧ p ≤ 2 ^ leastWidth p fuel b ∧
      ∀ c, b ≤ c → p ≤ 2 ^ c → leastWidth p fuel b ≤ c := by
  induction fuel generalizing b with
  | zero => exact ⟨le_rfl, hf, fun c hc _ => hc⟩
  | succ n ih =>
    rw [leastWidth]
    by_cases h : p ≤ 2 ^ b
    · rw [if_pos h]; exact ⟨le_rfl, h, fun c hc _ => hc⟩
    · rw [if_neg h]
      obtain ⟨h1, h2, h3⟩ := ih (b + 1) (by rw [show b + 1 + n = b + (n + 1) by omega]; exact hf)
      refine ⟨by omega, h2, fun c hc hp => h3 c ?_ hp⟩
      rcases Nat.lt_or_eq_of_le hc with hlt | rfl
      · omega
      · exact absurd hp h

/-- Everything the bit width is: at least 1, wide enough, and the least such. -/
theorem bw_least (p : Nat) : 1 ≤ bw p ∧ p ≤ 2 ^ bw p ∧ ∀ c, 1 ≤ c → p ≤ 2 ^ c → bw p ≤ c :=
  leastWidth_spec p p 1 (Nat.lt_two_pow_self.le.trans (Nat.pow_le_pow_right (by omega) (by omega)))

theorem bw_pos (p : Nat) : 1 ≤ bw p := (bw_least p).1

theorem bw_le_ten {p : Nat} (h : p ≤ 1024) : bw p ≤ 10 := (bw_least p).2.2 10 (by omega) (by simpa using h)

end Sys2Proof.Machine
end

