-- ==== Sys2Proof/Laws/Commands.lean ====
section
/-! SUPPORT. Everything a command, a host access and a step can do, said once. -/

namespace Sys2Proof.Machine

/-! ### Lengths of what is built -/

@[simp] theorem u16le_length (v : BitVec 16) : (u16le v).length = 2 := rfl

@[simp] theorem message_length (p : List Byte) : (message p).length = p.length + 6 := by
  simp [message]; omega

theorem rgb_flatMap_length (ks : List Key) : (ks.flatMap rgb).length = 3 * ks.length := by
  induction ks with
  | nil => rfl
  | cons k ks ih => rw [List.flatMap_cons, List.length_append, ih, List.length_cons]; simp [rgb]; omega

theorem pack_length_1024 {seq : List Nat} {width : Nat} (hs : seq.length = 1024) (hw : width ≤ 10) :
    (pack seq width).length = 128 * width := by
  rw [pack_eq_natBytes _ _ hw, natBytes_length, hs]; omega

/-- The record of a grid has the length its size field says (R171). -/
theorem frameRecord_length {r : Encoded} (tc : BitVec 16) (hi : r.indices.length = 1024) (hp : r.palette.length ≤ 1024) :
    (frameRecord tc r).length = frameSize r.palette.length := by
  simp only [frameRecord, List.length_append, u16le_length, rgb_flatMap_length, pack_length_1024 hi (bw_le_ten hp), frameSize,
    List.length_cons, List.length_nil]

theorem frameSize_bounds {p : Nat} (h1 : 1 ≤ p) (h2 : p ≤ 1024) : 139 ≤ frameSize p ∧ frameSize p ≤ 4360 := by
  have a := bw_pos p
  have b := bw_le_ten h2
  unfold frameSize; omega

/-- The record of the stored grid is 139 to 4360 bytes (R171). -/
theorem grid_frame_bounds (tc : BitVec 16) (s : State) :
    139 ≤ (frameRecord tc (encodeGrid (gridKeys s))).length ∧ (frameRecord tc (encodeGrid (gridKeys s))).length ≤ 4360 := by
  obtain ⟨h1, h2⟩ := grid_palette_length s
  rw [frameRecord_length tc (grid_indices_length s) h2]
  exact frameSize_bounds h1 h2

@[simp] theorem operandPayload_length (s : State) : (operandPayload s).length = s.inLen.toNat := by
  simp [operandPayload, operandCount]

theorem chunkPayload_length_le (s : State) (i : Nat) : (chunkPayload s i).length ≤ 204 := by
  simp [chunkPayload, chunkSlice]; omega

/-! ### Commands -/

/-- When a command succeeds. -/
def Guard (s : State) : Instr → Prop
  | .nop | .softReset | .gridClear | .animBegin => True
  | .pixGet | .pixSet => inBounds s = true
  | .paletteEncode | .frameBuild | .msgStaticImage => (encodeGrid (gridKeys s)).palette.length ≤ paletteCap s
  | .msgRaw => operandCount s ≤ 4096
  | .msgBrightness => (operandArg s).toNat ≤ 100
  | .animAddFrame => s.animState = .collect ∧ frameTimeCode s ≤ 65535 ∧
      (encodeGrid (gridKeys s)).palette.length ≤ paletteCap s ∧
      s.animLen.toNat + (frameRecord (BitVec.ofNat 16 (frameTimeCode s)) (encodeGrid (gridKeys s))).length ≤ s.config.animCap
  | .animEnd => s.animState = .collect
  | .animNextChunk => s.animState = .emit

/-- What a command writes when it succeeds, before its completion. -/
def effect (s : State) : Instr → State
  | .nop => s
  | .softReset => softResetState s
  | .gridClear => clearGrid s
  | .pixGet => latchPixel s
  | .pixSet => writePixel (latchPixel s)
  | .paletteEncode => storePalette (encodeGrid (gridKeys s)) s
  | .frameBuild => storeBuilt (encodeGrid (gridKeys s)) (frameRecord (operandArg s) (encodeGrid (gridKeys s))) s
  | .msgRaw => storeOut (message (operandPayload s)) s
  | .msgBrightness => storeOut (message (brightnessPayload (operandArg s))) s
  | .msgStaticImage =>
      storeOut (message (staticImagePayload (frameRecord 0 (encodeGrid (gridKeys s)))))
        (storeBuilt (encodeGrid (gridKeys s)) (frameRecord 0 (encodeGrid (gridKeys s))) s)
  | .animBegin => openSession s
  | .animAddFrame =>
      appendFrame (encodeGrid (gridKeys s))
        (frameRecord (BitVec.ofNat 16 (frameTimeCode s)) (encodeGrid (gridKeys s))) s
  | .animEnd => fixChunks s
  | .animNextChunk => advanceChunk (storeOut (message (chunkPayload s s.chunkIdx.toNat)) s)

/-- Which error a command raises, with its information. -/
def Raises (s : State) : Instr → CmdError → BitVec 16 → Prop
  | .nop, _, _ | .softReset, _, _ | .gridClear, _, _ | .animBegin, _, _ => False
  | .pixGet, e, n | .pixSet, e, n => e = .outOfBounds ∧ n = 0 ∧ inBounds s = false
  | .paletteEncode, e, n | .frameBuild, e, n | .msgStaticImage, e, n =>
      e = .paletteTooLarge ∧ n = BitVec.ofNat 16 (encodeGrid (gridKeys s)).palette.length ∧
        paletteCap s < (encodeGrid (gridKeys s)).palette.length
  | .msgRaw, e, n => e = .capacity ∧ n = 0 ∧ 4096 < operandCount s
  | .msgBrightness, e, n => e = .outOfRange ∧ n = 0 ∧ 100 < (operandArg s).toNat
  | .animAddFrame, e, n =>
      (e = .sequence ∧ n = 0 ∧ s.animState ≠ .collect) ∨
      (e = .fieldOverflow ∧ n = 0 ∧ s.animState = .collect ∧ 65535 < frameTimeCode s) ∨
      (e = .paletteTooLarge ∧ n = BitVec.ofNat 16 (encodeGrid (gridKeys s)).palette.length ∧ s.animState = .collect ∧
        frameTimeCode s ≤ 65535 ∧ paletteCap s < (encodeGrid (gridKeys s)).palette.length) ∨
      (e = .capacity ∧ n = 0 ∧ s.animState = .collect ∧ frameTimeCode s ≤ 65535 ∧
        (encodeGrid (gridKeys s)).palette.length ≤ paletteCap s ∧
        s.config.animCap <
          s.animLen.toNat + (frameRecord (BitVec.ofNat 16 (frameTimeCode s)) (encodeGrid (gridKeys s))).length)
  | .animEnd, e, n => e = .sequence ∧ n = 0 ∧ s.animState ≠ .collect
  | .animNextChunk, e, n => e = .sequence ∧ n = 0 ∧ s.animState ≠ .emit

/-- Everything executing a command does: where its guard holds it completes with its effect, elsewhere it fails with its error. -/
theorem exec_cases (i : Instr) (s : State) :
    (Guard s i ∧ exec i s = .next (complete (effect s i))) ∨
      ∃ e n, Raises s i e n ∧ exec i s = .next (failCommand (some i) e n s) := by
  cases i with
  | nop => exact Or.inl ⟨trivial, rfl⟩
  | softReset => exact Or.inl ⟨trivial, rfl⟩
  | gridClear => exact Or.inl ⟨trivial, rfl⟩
  | pixGet =>
    cases h : inBounds s
    · exact Or.inr ⟨_, _, ⟨rfl, rfl, h⟩, by simp [exec, execPixGet, h]⟩
    · exact Or.inl ⟨h, by simp [exec, execPixGet, h, effect]⟩
  | pixSet =>
    cases h : inBounds s
    · exact Or.inr ⟨_, _, ⟨rfl, rfl, h⟩, by simp [exec, execPixSet, h]⟩
    · exact Or.inl ⟨h, by simp [exec, execPixSet, h, effect]⟩
  | paletteEncode =>
    rcases paletteStage_cases s with ⟨h, h'⟩ | ⟨h, h'⟩
    · exact Or.inl ⟨h', by simp only [exec, execPaletteEncode, h, effect]⟩
    · exact Or.inr ⟨_, _, ⟨rfl, rfl, h'⟩, by simp only [exec, execPaletteEncode, h, failPalette]⟩
  | frameBuild =>
    rcases buildFrame_cases (operandArg s) s with ⟨h, h'⟩ | ⟨h, h'⟩
    · exact Or.inl ⟨h', by simp only [exec, execFrameBuild, h, effect]⟩
    · exact Or.inr ⟨_, _, ⟨rfl, rfl, h'⟩, by simp only [exec, execFrameBuild, h, failPalette]⟩
  | msgRaw =>
    by_cases h : 4096 < operandCount s
    · exact Or.inr ⟨_, _, ⟨rfl, rfl, h⟩, by simp only [exec, execMsgRaw, if_pos h]⟩
    · exact Or.inl ⟨Nat.not_lt.mp h, by simp only [exec, execMsgRaw, if_neg h, effect]⟩
  | msgBrightness =>
    by_cases h : 100 < (operandArg s).toNat
    · exact Or.inr ⟨_, _, ⟨rfl, rfl, h⟩, by simp only [exec, execMsgBrightness, if_pos h]⟩
    · exact Or.inl ⟨Nat.not_lt.mp h, by simp only [exec, execMsgBrightness, if_neg h, effect]⟩
  | msgStaticImage =>
    rcases buildFrame_cases 0 s with ⟨h, h'⟩ | ⟨h, h'⟩
    · exact Or.inl ⟨h', by simp only [exec, execMsgStaticImage, h, effect]⟩
    · exact Or.inr ⟨_, _, ⟨rfl, rfl, h'⟩, by simp only [exec, execMsgStaticImage, h, failPalette]⟩
  | animBegin => exact Or.inl ⟨trivial, rfl⟩
  | animAddFrame =>
    by_cases h1 : s.animState = .collect
    · have h1' : ¬ (s.animState ≠ .collect) := not_not.mpr h1
      by_cases h2 : 65535 < frameTimeCode s
      · exact Or.inr ⟨_, _, Or.inr (Or.inl ⟨rfl, rfl, h1, h2⟩),
          by simp only [exec, execAnimAddFrame, if_neg h1', if_pos h2]⟩
      · rcases buildFrame_cases (BitVec.ofNat 16 (frameTimeCode s)) s with ⟨h, h'⟩ | ⟨h, h'⟩
        · by_cases h3 : s.config.animCap <
            s.animLen.toNat + (frameRecord (BitVec.ofNat 16 (frameTimeCode s)) (encodeGrid (gridKeys s))).length
          · exact Or.inr ⟨_, _, Or.inr (Or.inr (Or.inr ⟨rfl, rfl, h1, Nat.not_lt.mp h2, h', h3⟩)),
              by simp only [exec, execAnimAddFrame, if_neg h1', if_neg h2, h, if_pos h3]⟩
          · exact Or.inl ⟨⟨h1, Nat.not_lt.mp h2, h', Nat.not_lt.mp h3⟩,
              by simp only [exec, execAnimAddFrame, if_neg h1', if_neg h2, h, if_neg h3, effect]⟩
        · exact Or.inr ⟨_, _, Or.inr (Or.inr (Or.inl ⟨rfl, rfl, h1, Nat.not_lt.mp h2, h'⟩)),
            by simp only [exec, execAnimAddFrame, if_neg h1', if_neg h2, h, failPalette]⟩
    · exact Or.inr ⟨_, _, Or.inl ⟨rfl, rfl, h1⟩, by simp only [exec, execAnimAddFrame, if_pos h1]⟩
  | animEnd =>
    by_cases h1 : s.animState = .collect
    · exact Or.inl ⟨h1, by simp only [exec, execAnimEnd, if_neg (not_not.mpr h1), effect]⟩
    · exact Or.inr ⟨_, _, ⟨rfl, rfl, h1⟩, by simp only [exec, execAnimEnd, if_pos h1]⟩
  | animNextChunk =>
    by_cases h1 : s.animState = .emit
    · exact Or.inl ⟨h1, by simp only [exec, execAnimNextChunk, if_neg (not_not.mpr h1), effect]⟩
    · exact Or.inr ⟨_, _, ⟨rfl, rfl, h1⟩, by simp only [exec, execAnimNextChunk, if_pos h1]⟩

theorem not_raises_of_guard {s : State} {i : Instr} (h : Guard s i) (e : CmdError) (n : BitVec 16) : ¬ Raises s i e n := by
  cases i with
  | nop | softReset | gridClear | animBegin => exact not_false
  | pixGet | pixSet => rintro ⟨-, -, h'⟩; simp [Guard, h'] at h
  | paletteEncode | frameBuild | msgStaticImage | msgRaw | msgBrightness =>
    rintro ⟨-, -, h'⟩; exact absurd h' (Nat.not_lt.mpr h)
  | animAddFrame =>
    obtain ⟨g1, g2, g3, g4⟩ := h
    rintro (⟨-, -, h'⟩ | ⟨-, -, -, h'⟩ | ⟨-, -, -, -, h'⟩ | ⟨-, -, -, -, -, h'⟩)
    · exact h' g1
    · exact absurd h' (Nat.not_lt.mpr g2)
    · exact absurd h' (Nat.not_lt.mpr g3)
    · exact absurd h' (Nat.not_lt.mpr g4)
  | animEnd | animNextChunk => rintro ⟨-, -, h'⟩; exact h' h

/-- Where its guard holds a command completes with its effect. -/
theorem exec_of_guard {i : Instr} {s : State} (h : Guard s i) : exec i s = .next (complete (effect s i)) := by
  rcases exec_cases i s with ⟨-, h'⟩ | ⟨e, n, h', -⟩
  · exact h'
  · exact absurd h' (not_raises_of_guard h e n)

/-- The checks of a command are ordered (R272): it raises at most one error. -/
theorem raises_unique {s : State} {i : Instr} {e e' : CmdError} {n n' : BitVec 16} (h : Raises s i e n)
    (h' : Raises s i e' n') : e' = e ∧ n' = n := by
  cases i
  case animAddFrame =>
    rcases h with ⟨rfl, rfl, a⟩ | ⟨rfl, rfl, a, b⟩ | ⟨rfl, rfl, a, b, c⟩ | ⟨rfl, rfl, a, b, c, d⟩ <;>
    rcases h' with ⟨rfl, rfl, a'⟩ | ⟨rfl, rfl, a', b'⟩ | ⟨rfl, rfl, a', b', c'⟩ | ⟨rfl, rfl, a', b', c', d'⟩ <;>
    first | exact ⟨rfl, rfl⟩ | exact absurd a a' | exact absurd a' a | (exfalso; omega)
  all_goals first | exact h.elim | exact ⟨h'.1.trans h.1.symm, h'.2.1.trans h.2.1.symm⟩

/-- Where it raises an error a command fails with it. -/
theorem exec_of_raises {i : Instr} {s : State} {e : CmdError} {n : BitVec 16} (h : Raises s i e n) :
    exec i s = .next (failCommand (some i) e n s) := by
  rcases exec_cases i s with ⟨h', -⟩ | ⟨e', n', h', h''⟩
  · exact absurd h (not_raises_of_guard h' e n)
  · obtain ⟨rfl, rfl⟩ := raises_unique h h'; exact h''

theorem inBounds_iff (s : State) : inBounds s = true ↔ s.pixX.toNat < 32 ∧ s.pixY.toNat < 32 := by
  simp only [inBounds, Bool.and_eq_true, decide_eq_true_eq]; rfl

theorem inBounds_eq_false_iff (s : State) : inBounds s = false ↔ 32 ≤ s.pixX.toNat ∨ 32 ≤ s.pixY.toNat := by
  rw [← Bool.not_eq_true, inBounds_iff]; omega

/-- The information of PALETTE_TOO_LARGE is the full count: it fits. -/
theorem toNat_paletteInfo (s : State) :
    (BitVec.ofNat 16 (encodeGrid (gridKeys s)).palette.length).toNat = (encodeGrid (gridKeys s)).palette.length := by
  have := (grid_palette_length s).2
  rw [BitVec.toNat_ofNat]; omega

/-- What a command's effect leaves of the status registers. -/
theorem effect_status (i : Instr) (s : State) :
    (effect s i).err = (if i = .softReset then false else s.err) ∧
      (effect s i).errCode = (if i = .softReset then 0 else s.errCode) ∧
      (effect s i).errInfo = (if i = .softReset then 0 else s.errInfo) ∧ (effect s i).rst = s.rst ∧
      (effect s i).config = s.config := by
  cases i <;> simp [effect]

/-! ### Steps -/

/-- Everything the engine's turn does. -/
theorem engineTurn_cases (s : State) :
    ((s.rst = true ∨ s.pending = none) ∧ engineTurn s = .next s) ∨
      (s.rst = false ∧ ∃ w i, s.pending = some w ∧ decodeWord w = .ok i ∧ engineTurn s = exec i s) ∨
      (s.rst = false ∧ ∃ w x, s.pending = some w ∧ decodeWord w = .error x ∧
        engineTurn s = .next (failCommand none .illegalCommand 0 s)) := by
  unfold engineTurn
  cases hr : s.rst
  · cases hp : s.pending with
    | none => exact Or.inl ⟨Or.inr rfl, by simp⟩
    | some w =>
      cases hd : decodeWord w with
      | ok i => exact Or.inr (Or.inl ⟨rfl, w, i, rfl, hd, by simp [hd]⟩)
      | error x => exact Or.inr (Or.inr ⟨rfl, w, x, rfl, hd, by simp [hd]⟩)
  · exact Or.inl ⟨Or.inl rfl, by simp⟩

/-- Everything a host access that has a step does. -/
theorem hostAccess_next {a : Access} {s t : State} (h : hostAccess a s = .next t) :
    s.rst = false ∧ a.bits = 32 ∧ a.offset.toNat % 4 = 0 ∧
      ((a.kind = .read ∧ t = hostRead (target a.offset.toNat) s) ∨
        ∃ v, a.kind = .write v ∧ t = hostWrite (target a.offset.toNat) v s) := by
  unfold hostAccess at h
  split at h
  · cases h
  · split at h
    · cases h
    · split at h
      · cases h
      · rename_i h1 h2 h3
        refine ⟨by simpa using h1, not_not.mp h2, not_not.mp h3, ?_⟩
        split at h <;> rename_i hk <;> cases h
        · exact Or.inl ⟨hk, rfl⟩
        · exact Or.inr ⟨_, hk, rfl⟩

/-- Everything a step that answers a next state does: the engine's turn (listed or not), a host access, or a reset level. -/
theorem step_next {s t : State} (h : step s = .next t) :
    ∃ rest, (engineTurn { s with turns := rest } = .next t) ∨
      (∃ a, hostAccess a { s with turns := rest } = .next t) ∨
      ∃ level, t = driveReset level { s with turns := rest } := by
  unfold step takeTurn at h
  split at h
  · rename_i hs
    refine ⟨[], Or.inl ?_⟩
    rw [← h, ← hs]
  · exact ⟨_, Or.inl h⟩
  · exact ⟨_, Or.inr (Or.inl ⟨_, h⟩)⟩
  · cases h; exact ⟨_, Or.inr (Or.inr ⟨_, rfl⟩)⟩

theorem driveReset_cases (level : Bool) (s : State) :
    driveReset level s = s ∨ driveReset level s = resetBlock level s := by
  unfold driveReset; split <;> simp

/-- Everything a step can have done, from the state `u` that differs only in the turns to come: nothing, a command completed or failed, an
illegal word failed, a host read, a host write, a reset. Invariants need no other case analysis. -/
theorem step_outcomes {s t : State} (h : step s = .next t) :
    ∃ rest u, u = { s with turns := rest } ∧
      (t = u ∨ (∃ w i, u.pending = some w ∧ Guard u i ∧ t = complete (effect u i)) ∨
        (∃ w i e n, u.pending = some w ∧ Raises u i e n ∧ t = failCommand (some i) e n u) ∨
        (∃ w, u.pending = some w ∧ t = failCommand none .illegalCommand 0 u) ∨ (∃ T, t = hostRead T u) ∨
        (∃ o v, o % 4 = 0 ∧ u.rst = false ∧ t = hostWrite (target o) v u) ∨ ∃ level, t = resetBlock level u) := by
  obtain ⟨rest, h | ⟨a, h⟩ | ⟨l, h⟩⟩ := step_next h <;> refine ⟨rest, _, rfl, ?_⟩
  · rcases engineTurn_cases { s with turns := rest } with ⟨-, e⟩ | ⟨hr, w, i, hp, hd, e⟩ | ⟨hr, w, x, hp, hd, e⟩
    · rw [e] at h; cases h; exact Or.inl rfl
    · rw [e] at h
      rcases exec_cases i { s with turns := rest } with ⟨g, e⟩ | ⟨c, n, hr, e⟩ <;> rw [e] at h <;> cases h
      · exact Or.inr (Or.inl ⟨w, i, hp, g, rfl⟩)
      · exact Or.inr (Or.inr (Or.inl ⟨w, i, c, n, hp, hr, rfl⟩))
    · rw [e] at h; cases h; exact Or.inr (Or.inr (Or.inr (Or.inl ⟨w, hp, rfl⟩)))
  · obtain ⟨hr, -, ho, ⟨-, rfl⟩ | ⟨v, -, rfl⟩⟩ := hostAccess_next h
    · exact Or.inr (Or.inr (Or.inr (Or.inr (Or.inl ⟨_, rfl⟩))))
    · exact Or.inr (Or.inr (Or.inr (Or.inr (Or.inr (Or.inl ⟨_, v, ho, hr, rfl⟩)))))
  · subst h
    rcases driveReset_cases l { s with turns := rest } with e | e <;> rw [e]
    · exact Or.inl rfl
    · exact Or.inr (Or.inr (Or.inr (Or.inr (Or.inr (Or.inr ⟨_, rfl⟩)))))

end Sys2Proof.Machine
end

