-- ==== Sys2Proof/Laws/HostPort.lean ====
section
/-! SUPPORT. The decode of an offset, the byte order of a window word, and the steps of host accesses. -/

namespace Sys2Proof.Machine

/-! ### The decode of an offset -/

/-- The decode of an offset outside the registers. -/
def windowTarget (o : Nat) : Target :=
  if 0x1000 ≤ o ∧ o < 0x2000 then .palWord ((o - 0x1000) / 4)
  else if 0x2000 ≤ o ∧ o < 0x3000 then .idxWord ((o - 0x2000) / 4)
  else if 0x4000 ≤ o ∧ o < 0x6000 then .outWord (o - 0x4000)
  else if 0x6000 ≤ o ∧ o < 0x8000 then .frameWord (o - 0x6000)
  else if 0x8000 ≤ o ∧ o < 0x9000 then .inWord (o - 0x8000)
  else .unmapped

/-- An offset selects the register the map lists for it, or what its window says. -/
theorem target_cases (o : Nat) :
    (∃ r, target o = .reg r ∧ (o, r) ∈ registerMap) ∨ (registerMap.lookup o = none ∧ target o = windowTarget o) := by
  cases h : registerMap.lookup o with
  | none => exact Or.inr ⟨rfl, by simp only [target, h, windowTarget]⟩
  | some r =>
    refine Or.inl ⟨r, by simp only [target, h], ?_⟩
    obtain ⟨a, b, e, -⟩ := List.lookup_eq_some_iff.mp h
    rw [e]; simp

/-- No register lies at or above 0x50. -/
theorem target_of_ge {o : Nat} (h : 0x50 ≤ o) : target o = windowTarget o := by
  rcases target_cases o with ⟨r, -, h2⟩ | ⟨-, h'⟩
  · exfalso; simp [registerMap] at h2; omega
  · exact h'

theorem windowTarget_ne_reg (o : Nat) (r : HostReg) : windowTarget o ≠ .reg r := by
  unfold windowTarget; repeat' split
  all_goals exact Target.noConfusion

/-- An offset selects a register exactly when the map lists it. -/
theorem target_eq_reg {o : Nat} {r : HostReg} (h : target o = .reg r) : (o, r) ∈ registerMap := by
  rcases target_cases o with ⟨r', h1, h2⟩ | ⟨-, h'⟩
  · rw [h] at h1; cases h1; exact h2
  · rw [h] at h'; exact absurd h'.symm (windowTarget_ne_reg o r)

theorem target_eq_status {o : Nat} : target o = .reg .status ↔ o = 4 := by
  constructor
  · intro h; have := target_eq_reg h; simp [registerMap] at this; exact this
  · rintro rfl; decide

/-- The IN window is where a word of `IN` is selected. -/
theorem target_eq_inWord {o j : Nat} (h : target o = .inWord j) : 0x8000 ≤ o ∧ o < 0x9000 ∧ j = o - 0x8000 := by
  rcases target_cases o with ⟨r, h1, -⟩ | ⟨-, h'⟩
  · rw [h] at h1; cases h1
  · rw [h] at h'
    unfold windowTarget at h'
    repeat' split at h'
    all_goals simp only [reduceCtorEq, Target.inWord.injEq] at h'
    all_goals omega

/-- The offset of a word of a window, as a number. -/
theorem toNat_windowOffset {base x : Nat} (h : base + x < 65536) : (BitVec.ofNat 16 (base + x)).toNat = base + x := by
  rw [BitVec.toNat_ofNat]; exact Nat.mod_eq_of_lt h

/-! ### Window words -/

theorem getLsbD_windowWord (b : Nat → Byte) (j k : Nat) (hk : k < 32) :
    (windowWord b j).getLsbD k = (b (j + k / 8)).getLsbD (k % 8) := by
  have big : ∀ (x : Byte) (i : Nat), 8 ≤ i → x.getLsbD i = false := fun x i hi => BitVec.getLsbD_of_ge x i hi
  simp only [windowWord, BitVec.getLsbD_or, BitVec.getLsbD_shiftLeft, BitVec.getLsbD_setWidth, hk, decide_true, Bool.true_and]
  obtain ⟨n, i, rfl, hi⟩ : ∃ n i, k = 8 * n + i ∧ i < 8 := ⟨k / 8, k % 8, by omega, by omega⟩
  rw [show (8 * n + i) / 8 = n by omega, show (8 * n + i) % 8 = i by omega]
  obtain rfl | rfl | rfl | rfl : n = 0 ∨ n = 1 ∨ n = 2 ∨ n = 3 := by omega
  · simp [show i < 16 by omega, show i < 24 by omega, hi]
  · simp [show 8 + i < 16 by omega, show 8 + i < 24 by omega]; omega
  · simp [big _ (16 + i) (by omega), big _ (16 + i - 8) (by omega), show 16 + i < 24 by omega]; omega
  · simp [big _ (24 + i) (by omega), big _ (24 + i - 8) (by omega), big _ (24 + i - 16) (by omega)]; omega

/-- Byte `n` of a window word is the byte at its offset plus `n` (R61). -/
theorem windowWord_byte (b : Nat → Byte) (j n : Nat) (hn : n < 4) : (windowWord b j).extractLsb' (8 * n) 8 = b (j + n) := by
  apply BitVec.eq_of_getLsbD_eq; intro i hi
  rw [BitVec.getLsbD_extractLsb', getLsbD_windowWord _ _ _ (by omega), show (8 * n + i) / 8 = n by omega,
    show (8 * n + i) % 8 = i by omega]
  simp [hi]

/-- A word is its four bytes. -/
theorem word_eq_of_bytes {v w : Word} (h : ∀ n < 4, v.extractLsb' (8 * n) 8 = w.extractLsb' (8 * n) 8) : v = w := by
  apply BitVec.eq_of_getLsbD_eq; intro i hi
  have := congrArg (fun x => x.getLsbD (i % 8)) (h (i / 8) (by omega))
  simp only [BitVec.getLsbD_extractLsb'] at this
  rw [show 8 * (i / 8) + i % 8 = i by omega] at this
  simpa [show i % 8 < 8 by omega] using this

/-- A field of the low bits, read back in a word, is the word masked. -/
theorem extract_low_field (v : Word) {n m : Nat} (hn : n ≤ 32) (h : m + 1 = 2 ^ n) :
    (v.extractLsb' 0 n).setWidth 32 = v &&& BitVec.ofNat 32 m := by
  apply BitVec.eq_of_toNat_eq
  obtain rfl : m = 2 ^ n - 1 := by omega
  have h2 : 2 ^ n ≤ 2 ^ 32 := Nat.pow_le_pow_right (by omega) hn
  have h3 : v.toNat % 2 ^ n < 4294967296 := lt_of_lt_of_le (Nat.mod_lt _ (by positivity)) h2
  have h4 : 2 ^ n - 1 < 4294967296 := by omega
  simp [BitVec.extractLsb'_toNat, Nat.and_two_pow_sub_one_eq_mod, Nat.mod_eq_of_lt, h3, h4]

/-! ### Steps of host accesses -/

/-- An aligned 32-bit write with the turn: what the step answers. -/
theorem step_write {s : State} {o : BitVec 16} {v : Word} {rest : List Turn} (hr : s.rst = false) (ho : o.toNat % 4 = 0)
    (ht : s.turns = .host ⟨32, o, .write v⟩ :: rest) :
    step s = .next (hostWrite (target o.toNat) v { s with turns := rest }) := by
  simp [step, takeTurn, ht, hostAccess, hr, ho]

/-- An aligned 32-bit read with the turn: what the step answers. -/
theorem step_read {s : State} {o : BitVec 16} {rest : List Turn} (hr : s.rst = false) (ho : o.toNat % 4 = 0)
    (ht : s.turns = .host ⟨32, o, .read⟩ :: rest) :
    step s = .next (hostRead (target o.toNat) { s with turns := rest }) := by
  simp [step, takeTurn, ht, hostAccess, hr, ho]

theorem hostWrite_idle {t : Target} {v : Word} {s : State} (h : s.busy = false) : hostWrite t v s = writeTarget v s t := by
  simp [hostWrite, h]

theorem hostRead_idle {t : Target} {s : State} (h : s.busy = false) :
    hostRead t s = { s with rdata := readTarget s t } := by
  simp [hostRead, h]

end Sys2Proof.Machine
end

