-- ==== Sys2Proof/Laws/PerInstr.lean ====
section
/-! SUPPORT. What holds of each command as syntax. -/

namespace Sys2Proof.Laws.DecodeEncode

/-- The command's word decodes to the command, has its opcode in the low byte and 0 above it, and is a well-formed word (R80, R84, R85, R89). -/
def Statement (i : Instr) : Prop :=
  decodeWord (encode i) = .ok i ∧ opcodeField (encode i) = opcode i ∧ reservedField (encode i) = 0 ∧
    commandWordWellFormed (encode i) = true ∧ i.wellFormed = true ∧ decodeTableWord 32 (encode i).toNat = some i

theorem nop : Statement .nop := by unfold Statement; decide
theorem softReset : Statement .softReset := by unfold Statement; decide
theorem gridClear : Statement .gridClear := by unfold Statement; decide
theorem pixGet : Statement .pixGet := by unfold Statement; decide
theorem pixSet : Statement .pixSet := by unfold Statement; decide
theorem paletteEncode : Statement .paletteEncode := by unfold Statement; decide
theorem frameBuild : Statement .frameBuild := by unfold Statement; decide
theorem msgRaw : Statement .msgRaw := by unfold Statement; decide
theorem msgBrightness : Statement .msgBrightness := by unfold Statement; decide
theorem msgStaticImage : Statement .msgStaticImage := by unfold Statement; decide
theorem animBegin : Statement .animBegin := by unfold Statement; decide
theorem animAddFrame : Statement .animAddFrame := by unfold Statement; decide
theorem animEnd : Statement .animEnd := by unfold Statement; decide
theorem animNextChunk : Statement .animNextChunk := by unfold Statement; decide

end Sys2Proof.Laws.DecodeEncode
end

