-- ==== Sys2Proof/Laws/Stored.lean ====
section
/-! SUPPORT. What the storing operations leave behind, and the bytes of records. -/

namespace Sys2Proof.Machine

/-! ### Storing operations -/

/-- Storing the palette stage's result of the stored grid: no width is exceeded, so each register and entry holds it. -/
theorem storePalette_stored (s : State) :
    PaletteStored (encodeGrid (gridKeys s)) s (storePalette (encodeGrid (gridKeys s)) s) := by
  obtain ⟨h1, h2⟩ := grid_palette_length s
  have hb := bw_le_ten h2
  refine ⟨?_, ?_, ?_, ?_, ?_, ?_⟩
  · rw [storePalette_palLen, BitVec.toNat_ofNat]; omega
  · rw [storePalette_bitWidth, BitVec.toNat_ofNat]; omega
  · intro i h; rw [palEntry_storePalette, dif_pos h]
  · intro i h; rw [palEntry_storePalette, dif_neg (by omega)]
  · intro i h; rw [idxEntry_storePalette, dif_pos h]
    have := encodeGrid_index_lt _ i h
    rw [BitVec.toNat_ofNat]; omega
  · intro i h; rw [idxEntry_storePalette, dif_neg (by omega)]

theorem storeFrame_stored (f : List Byte) (s : State) (h : f.length < 65536) : FrameStored f s (storeFrame f s) := by
  refine ⟨by rw [storeFrame_frameLen, BitVec.toNat_ofNat]; omega, ?_, ?_⟩
  · intro j h; rw [frameByte_storeFrame, dif_pos h]
  · intro j h; rw [frameByte_storeFrame, dif_neg (by omega)]

theorem storeOut_stored (m : List Byte) (s : State) (h : m.length < 65536) : OutStored m s (storeOut m s) := by
  refine ⟨by rw [storeOut_outLen, BitVec.toNat_ofNat]; omega, ?_, ?_⟩
  · intro j h; rw [outByte_storeOut, dif_pos h]
  · intro j h; rw [outByte_storeOut, dif_neg (by omega)]

/-! What was stored stays stored over an update that keeps the registers and cells. -/

theorem PaletteStored.of_same {r : Encoded} {s t u : State} (h : PaletteStored r s t) (e : SamePalette t u) :
    PaletteStored r s u :=
  ⟨by rw [e.palLen]; exact h.palLen, by rw [e.bitWidth]; exact h.bitWidth,
    fun i hi => (e.palmem i).trans (h.palmem i hi), fun i hi => (e.palmem i).trans (h.palmemRest i hi),
    fun i hi => by rw [e.idxmem]; exact h.idxmem i hi, fun i hi => (e.idxmem i).trans (h.idxmemRest i hi)⟩

theorem FrameStored.of_same {f : List Byte} {s t u : State} (h : FrameStored f s t) (e : SameFrame t u) : FrameStored f s u :=
  ⟨by rw [e.frameLen]; exact h.frameLen, fun j hj => (e.framebuf j).trans (h.framebuf j hj),
    fun j hj => (e.framebuf j).trans (h.framebufRest j hj)⟩

theorem OutStored.of_same {m : List Byte} {s t u : State} (h : OutStored m s t) (e : SameOut t u) : OutStored m s u :=
  ⟨by rw [e.outLen]; exact h.outLen, fun j hj => (e.out j).trans (h.out j hj), fun j hj => (e.out j).trans (h.outRest j hj)⟩

/-- The host reads back exactly the message that was stored. -/
theorem messageBytes_of_stored {m : List Byte} {s t : State} (h : OutStored m s t) : messageBytes t = m := by
  unfold messageBytes
  rw [h.outLen]
  apply List.ext_getElem
  · simp
  · intro i h1 h2
    simp only [List.getElem_map, List.getElem_range]
    exact h.out i h2

/-! ### Bytes of records -/

theorem lo_ofNat (n : Nat) : lo (BitVec.ofNat 16 n) = BitVec.ofNat 8 n := by
  apply BitVec.eq_of_toNat_eq; simp [lo, BitVec.extractLsb'_toNat]

theorem hi_ofNat (n : Nat) : hi (BitVec.ofNat 16 n) = BitVec.ofNat 8 (n / 256) := by
  apply BitVec.eq_of_toNat_eq; simp [hi, BitVec.extractLsb'_toNat, Nat.shiftRight_eq_div_pow]; omega

theorem lo_eq (v : BitVec 16) : lo v = BitVec.ofNat 8 v.toNat := by rw [← lo_ofNat]; simp

theorem hi_eq (v : BitVec 16) : hi v = BitVec.ofNat 8 (v.toNat / 256) := by rw [← hi_ofNat]; simp

/-- The three bytes of each colour of a palette, in place. -/
theorem rgb_flatMap_getElem? (ks : List Key) (i : Nat) (k : Key) (h : ks[i]? = some k) :
    (ks.flatMap rgb)[3 * i]? = some (BitVec.ofNat 8 (k.toNat / 65536)) ∧
    (ks.flatMap rgb)[3 * i + 1]? = some (BitVec.ofNat 8 (k.toNat / 256)) ∧
    (ks.flatMap rgb)[3 * i + 2]? = some (BitVec.ofNat 8 k.toNat) := by
  induction ks generalizing i with
  | nil => simp at h
  | cons x ks ih =>
    cases i with
    | zero =>
      simp at h; subst h
      simp only [List.flatMap_cons, rgb]
      refine ⟨?_, ?_, ?_⟩ <;> simp <;> apply BitVec.eq_of_toNat_eq <;>
        simp [BitVec.extractLsb'_toNat, Nat.shiftRight_eq_div_pow]
    | succ i =>
      have := ih i (by simpa using h)
      simp only [List.flatMap_cons, rgb, List.cons_append, List.nil_append]
      rw [show 3 * (i + 1) = 3 * i + 1 + 1 + 1 by omega]
      simpa using this

/-- The frame record with its eight header bytes in the open. -/
theorem frameRecord_eq (tc : BitVec 16) (r : Encoded) : frameRecord tc r =
    0xAA :: lo (BitVec.ofNat 16 (frameSize r.palette.length)) :: hi (BitVec.ofNat 16 (frameSize r.palette.length)) ::
      lo tc :: hi tc :: 0x03 :: lo (BitVec.ofNat 16 r.palette.length) :: hi (BitVec.ofNat 16 r.palette.length) ::
      (r.palette.flatMap rgb ++ pack r.indices (bw r.palette.length)) := by
  simp [frameRecord, u16le]

end Sys2Proof.Machine
end

