-- ==== Sys2Proof/Machine/HostNotation.lean ====
section
/-! DEFINITION. The host-program notation of R96 and R97 as lists of turns. Control flow is the host's: a `WAIT` is given the number of
polls that find the block busy. -/

namespace Sys2Proof.Machine

/-- The offset of a register (R22). -/
def regOffset (r : HostReg) : BitVec 16 :=
  match registerMap.find? (fun row => row.2 == r) with
  | some row => BitVec.ofNat 16 row.1
  | none => 0

/-- `WR` at an offset: one 32-bit write, the pair (offset, value) (R96). -/
def progWrAt (offset : BitVec 16) (v : Word) : List Turn := [.host ⟨32, offset, .write v⟩]

/-- `RD` at an offset: one 32-bit read (R96). -/
def progRdAt (offset : BitVec 16) : List Turn := [.host ⟨32, offset, .read⟩]

/-- The window offsets of R96: `IN+<j>`, `OUT+<j>`, `FRAME+<j>` by byte, `PAL+<i>`, `IDX+<t>` by word (R22). -/
def progIn (j : Nat) : BitVec 16 := BitVec.ofNat 16 (0x8000 + j)
@[inherit_doc progIn] def progOut (j : Nat) : BitVec 16 := BitVec.ofNat 16 (0x4000 + j)
@[inherit_doc progIn] def progFrame (j : Nat) : BitVec 16 := BitVec.ofNat 16 (0x6000 + j)
@[inherit_doc progIn] def progPal (i : Nat) : BitVec 16 := BitVec.ofNat 16 (0x1000 + 4 * i)
@[inherit_doc progIn] def progIdx (t : Nat) : BitVec 16 := BitVec.ofNat 16 (0x2000 + 4 * t)

/-- `WR <reg>, <value>` (R96). -/
def progWr (r : HostReg) (v : Word) : List Turn := progWrAt (regOffset r) v

/-- `RD <reg>` (R96). -/
def progRd (r : HostReg) : List Turn := progRdAt (regOffset r)

/-- `CMD M` (R97): one access, the command word written to `CMD`. -/
def progCmd (i : Instr) : List Turn := progWr .cmd (encode i)

/-- `WAIT` (R97): polls of `STATUS` that find the block busy, the engine's turn, and the poll that finds it done. -/
def progWait (busyPolls : Nat) : List Turn := (List.replicate busyPolls (progRd .status)).flatten ++ [.engine] ++ progRd .status

/-- `RUN M` (R97). -/
def progRun (i : Instr) (busyPolls : Nat) : List Turn := progCmd i ++ progWait busyPolls

/-- `SETPIX x, y, c` (R97). -/
def progSetPix (x y : BitVec 16) (c : Key) (busyPolls : Nat) : List Turn :=
  progWr .pixX (x.setWidth 32) ++ progWr .pixY (y.setWidth 32) ++ progWr .pixWdata (c.setWidth 32) ++ progRun .pixSet busyPolls

/-- `CHECK` (R97): read `STATUS`; on failure the program reads `ERR_CODE` and `ERR_INFO`. -/
def progCheck (failed : Bool) : List Turn := progRd .status ++ if failed then progRd .errCode ++ progRd .errInfo else []

/-- `READOUT` (R97): `OUT_LEN`, which returned `n`, then the words of the message. -/
def progReadOut (n : Nat) : List Turn :=
  progRd .outLen ++ (List.range (ceilDiv n 4)).flatMap (fun k => progRdAt (progOut (4 * k)))

end Sys2Proof.Machine
end

