-- ==== Sys2Proof/Tests/Slice0.lean ====
section
/-! SUPPORT. Tests: expected values are the spec's (spec/95_test_vectors.md, or the rule named), and one witness for the hypotheses of each
statement. -/

namespace Sys2Proof.Tests

open Sys2Proof Sys2Proof.Machine

/-! ### Well-formedness: each check refuses an ill-formed term (R62, R80, R84, R89) -/

theorem test_wellFormed_accepts : commandWordWellFormed 0x33 = true ∧ accessWellFormed 32 0x0FFC = true := by decide
theorem test_wellFormed_reserved_bits : commandWordWellFormed 0x110 = false ∧ commandWordWellFormed 0x80000000 = false := by decide
theorem test_wellFormed_unassigned_opcode :
    [0x05, 0x0F, 0x12, 0x1F, 0x23, 0x2F, 0x34, 0xFF].map commandWordWellFormed = List.replicate 8 false := by decide
theorem test_wellFormed_access : accessWellFormed 16 0 = false ∧ accessWellFormed 32 2 = false := by decide

/-! ### Decoding: every command's word, written out as OPCODE in bits 7:0 below 24 zero bits (R80, R85, the per-command rules) -/

theorem test_decode_nop : decodeWord 0b00000000000000000000000000000000 = .ok .nop := by decide
theorem test_decode_softReset : decodeWord 0b00000000000000000000000000000001 = .ok .softReset := by decide
theorem test_decode_gridClear : decodeWord 0b00000000000000000000000000000010 = .ok .gridClear := by decide
theorem test_decode_pixGet : decodeWord 0b00000000000000000000000000000011 = .ok .pixGet := by decide
theorem test_decode_pixSet : decodeWord 0b00000000000000000000000000000100 = .ok .pixSet := by decide
theorem test_decode_paletteEncode : decodeWord 0b00000000000000000000000000010000 = .ok .paletteEncode := by decide
theorem test_decode_frameBuild : decodeWord 0b00000000000000000000000000010001 = .ok .frameBuild := by decide
theorem test_decode_msgRaw : decodeWord 0b00000000000000000000000000100000 = .ok .msgRaw := by decide
theorem test_decode_msgBrightness : decodeWord 0b00000000000000000000000000100001 = .ok .msgBrightness := by decide
theorem test_decode_msgStaticImage : decodeWord 0b00000000000000000000000000100010 = .ok .msgStaticImage := by decide
theorem test_decode_animBegin : decodeWord 0b00000000000000000000000000110000 = .ok .animBegin := by decide
theorem test_decode_animAddFrame : decodeWord 0b00000000000000000000000000110001 = .ok .animAddFrame := by decide
theorem test_decode_animEnd : decodeWord 0b00000000000000000000000000110010 = .ok .animEnd := by decide
theorem test_decode_animNextChunk : decodeWord 0b00000000000000000000000000110011 = .ok .animNextChunk := by decide
theorem test_decode_refuses :
    decodeWord 0x00000100 = .error .reservedBits ∧ decodeWord 0x80000001 = .error .reservedBits ∧
      decodeWord 0x05 = .error .unassignedOpcode ∧ decodeWord 0xFF = .error .unassignedOpcode := by decide

/-! ### Helpers -/

/-- The state a command leaves. -/
def after (i : Instr) (s : State) : State :=
  match exec i s with
  | .next t => t
  | .fault _ | .refused _ => s

/-- The state a step leaves. -/
def stepped (s : State) : State :=
  match step s with
  | .next t => t
  | .fault _ | .refused _ => s

/-- The first `n` bytes of `OUT` and of `FRAMEBUF`. -/
def outBytes (n : Nat) (s : State) : List Byte := (List.range n).map (outByte s)
@[inherit_doc outBytes] def frameBytes (n : Nat) (s : State) : List Byte := (List.range n).map (frameByte s)

/-- Reset with operands: a column, a row, a colour, `ARG`. -/
def at_ (x y : BitVec 16) (c : Key) (arg : BitVec 16 := 0) : State :=
  { State.reset with pixX := x, pixY := y, pixWdata := c, arg := arg }

/-- A grid with the given first cells, black elsewhere. -/
def grid (ks : List Key) : State := { State.reset with pixmem := (blockCells 0 ks).filter (fun c => c.2 ≠ 0#24) }

/-- A session being collected, and one being emitted, with the given registers. -/
def collecting (period animLen frameCount : BitVec 16) (cap : Nat := 51200) : State :=
  { State.reset with animState := .collect, period := period, animLen := animLen, frameCount := frameCount, config := ⟨cap⟩ }
@[inherit_doc collecting] def emitting (animLen frameCount : BitVec 16) (count idx : BitVec 9) : State :=
  { State.reset with
    animState := .emit, animLen := animLen, frameCount := frameCount, chunkCount := count, chunkIdx := idx
    allframes := blockCells 0 (List.replicate animLen.toNat 0) }

/-- A word pending, with turns to come. -/
def pendingWith (w : Word) (turns : List Turn) : State := { placeCommand w State.reset with turns := turns }

/-- Reset, idle, with turns to come. -/
def idleWith (turns : List Turn) : State := { State.reset with turns := turns }

def hostW (o : BitVec 16) (v : Word) : Turn := .host ⟨32, o, .write v⟩
def hostR (o : BitVec 16) : Turn := .host ⟨32, o, .read⟩

/-! ### Bit packer (V20-V27) and bit width (V2) -/

theorem test_pack_V20_V22 : pack [1] 1 = [0x01] ∧ pack [1, 2, 3, 4, 5, 6, 7, 0] 3 = [0xD1, 0x58, 0x1F] ∧
    pack [31, 0, 17] 5 = [0x1F, 0x44] := by decide
theorem test_pack_V23_V24 : pack [5, 2, 63] 6 = [0x85, 0xF0, 0x03] ∧ pack (List.replicate 8 127) 7 = List.replicate 7 0xFF := by decide
theorem test_pack_V25 : pack [511, 0, 256, 170, 1, 0, 0, 511] 9 = [0xFF, 0x01, 0x00, 0x54, 0x15, 0x00, 0x00, 0x80, 0xFF] := by decide
theorem test_pack_V26_V27 : pack [1023, 1, 682, 341] 10 = [0xFF, 0x07, 0xA0, 0x6A, 0x55] ∧ pack [255] 3 = [0x07] := by decide
theorem test_unpack_V21 : unpack [0xD1, 0x58, 0x1F] 3 8 = [1, 2, 3, 4, 5, 6, 7, 0] := by decide
theorem test_bitWidth_V2 : [1, 2, 3, 4, 5, 256, 257].map bw = [1, 1, 2, 2, 3, 8, 9] := by decide
/-- First-occurrence order, as in V13, on the first five cells. -/
theorem test_encodeGrid_order :
    encodeGrid [0xFF0000, 0x00FF00, 0xFF0000, 0, 0] = ⟨[0xFF0000, 0x00FF00, 0], [0, 1, 0, 2, 2]⟩ := by decide +kernel

/-! ### Commands, one step each -/

theorem test_nop : (statusWord (after .nop State.reset), (after .nop State.reset).pending) = (2, none) := by decide
/-- R262: `IN_LEN` back to 0, `DONE` alone in `STATUS`. -/
theorem test_softReset :
    let t := after .softReset { at_ 3 4 5 6 with inLen := 7, overrun := true, animState := .emit }
    (statusWord t, t.pixX, t.arg, t.inLen) = (2, 0, 0, 0) := by decide
/-- V10 steps 9 and 10. -/
theorem test_gridClear : pixel (after .gridClear (grid [1, 2, 3])) 1 = 0 := by decide
/-- V10: the cell of column 1, row 0 is cell 1; column 0, row 1 is cell 32. -/
theorem test_pixGet : (after .pixGet { at_ 1 0 0 with pixmem := [(1, 0x00FF00), (32, 5)] }).pixRdata = 0x00FF00 ∧
    (after .pixGet { at_ 0 1 0 with pixmem := [(1, 0x00FF00), (32, 5)] }).pixRdata = 5 := by decide
/-- V6: `get(-1, 5)`. -/
theorem test_pixGet_out_of_bounds :
    let t := after .pixGet { at_ 0xFFFF 5 0 with pixRdata := 9 }
    (statusWord t, t.errCode, t.pixRdata) = (4, 1, 9) := by decide
/-- V10 steps 3 and 5. -/
theorem test_pixSet :
    let t := after .pixSet { at_ 1 0 0x0000FF with pixmem := [(1, 0x00FF00)] }
    (t.pixRdata, t.pixmem, (after .pixSet (at_ 31 31 0x123456)).pixmem) = (0x00FF00, [(1, 0x0000FF)], [(1023, 0x123456)]) := by decide
/-- V6: `set(32, 0, c)`. -/
theorem test_pixSet_out_of_bounds :
    let t := after .pixSet (at_ 32 0 7)
    (statusWord t, t.errCode, t.pixmem) = (4, 1, []) := by decide
/-- V13. -/
theorem test_paletteEncode_V13 :
    let t := after .paletteEncode (grid [0xFF0000, 0x00FF00, 0xFF0000])
    (t.palLen, t.bitWidth, [0, 1, 2, 3].map (palWindow t), [0, 1, 2, 3, 1023].map (idxWindow t)) =
      (3, 2, [0xFF0000, 0x00FF00, 0, 0], [0, 1, 0, 2, 2]) := by decide +kernel
/-- V30. -/
theorem test_frameBuild_V30 :
    let t := after .frameBuild (at_ 0 0 0 0x0102)
    (t.frameLen, frameBytes 139 t) =
      (139, [0xAA, 0x8B, 0x00, 0x02, 0x01, 0x03, 0x01, 0x00, 0x00, 0x00, 0x00] ++ List.replicate 128 0) := by decide +kernel
/-- V36, rows 1 and 3. -/
theorem test_msgRaw_V36 :
    outBytes 6 (after .msgRaw State.reset) = [0x01, 0x02, 0x00, 0x02, 0x00, 0x02] ∧
    outBytes 9 (after .msgRaw { State.reset with inLen := 3, inbuf := blockCells 0 [0x49, 0x01, 0x02] }) =
      [0x01, 0x05, 0x00, 0x49, 0x01, 0x02, 0x51, 0x00, 0x02] := by decide
/-- V36, last row. -/
theorem test_msgRaw_capacity :
    let t := after .msgRaw { State.reset with inLen := 4097, outLen := 6 }
    (statusWord t, t.errCode, t.outLen) = (4, 7, 0) := by decide
/-- V46, row 2. -/
theorem test_msgBrightness_V46 :
    outBytes 8 (after .msgBrightness (at_ 0 0 0 100)) = [0x01, 0x04, 0x00, 0x74, 0x64, 0xDC, 0x00, 0x02] := by decide
/-- V46, rows 3 and 4. -/
theorem test_msgBrightness_out_of_range :
    [101, 0xFFFF].map (fun a => statusWord (after .msgBrightness (at_ 0 0 0 a))) = [4, 4] ∧
      (after .msgBrightness (at_ 0 0 0 101)).errCode = 2 := by decide
/-- V47, row 1. -/
theorem test_msgStaticImage_V47 :
    let t := after .msgStaticImage State.reset
    (t.outLen, outBytes 19 t, [147, 148, 149].map (outByte t)) =
      (150, [0x01, 0x92, 0x00, 0x44, 0x00, 0x0A, 0x0A, 0x04, 0xAA, 0x8B, 0x00, 0x00, 0x00, 0x03, 0x01, 0x00, 0x00, 0x00, 0x00],
        [0x27, 0x02, 0x02]) := by decide +kernel
/-- R211. -/
theorem test_animBegin :
    let t := after .animBegin { emitting 139 1 1 0 with arg := 7 }
    (t.animState, t.period, t.animLen, t.frameCount, t.chunkCount) = (.collect, 7, 0, 0, 0) := by decide
/-- V40: the second frame, of time code 100, lies at byte 139. -/
theorem test_animAddFrame_V40 :
    let t := after .animAddFrame (collecting 100 139 1)
    (t.frameCount, t.animLen, (List.range 11).map (fun j => animByte t (139 + j))) =
      (2, 278, [0xAA, 0x8B, 0x00, 0x64, 0x00, 0x03, 0x01, 0x00, 0x00, 0x00, 0x00]) := by decide +kernel
/-- V43: the third frame of period 40000. -/
theorem test_animAddFrame_V43 :
    let t := after .animAddFrame { collecting 40000 278 2 with frameLen := 139 }
    (statusWord t, t.errCode, t.animLen, t.frameCount, t.period, t.frameLen) = (4, 6, 0, 0, 40000, 139) := by decide
/-- V40 and V42. -/
theorem test_animEnd :
    let t := after .animEnd (collecting 0 278 2)
    (t.chunkCount, statusWord t, statusWord (after .animEnd (collecting 0 0 0))) = (2, 0x22, 2) := by decide
/-- V45. -/
theorem test_animEnd_sequence : (after .animEnd State.reset).errCode = 5 := by decide
/-- V40: the second chunk of 278 zero-valued bytes: 78 of them, checksum 84 + 97, and the session is over. -/
theorem test_animNextChunk_V40 :
    let t := after .animNextChunk (emitting 278 2 2 1)
    (t.outLen, outBytes 7 t, [85, 86, 87].map (outByte t), t.chunkIdx, t.animState) =
      (88, [0x01, 0x54, 0x00, 0x49, 0x16, 0x01, 0x01], [0xB5, 0x00, 0x02], 2, .idle) := by decide +kernel
/-- V40, last line. -/
theorem test_animNextChunk_sequence :
    let t := after .animNextChunk { State.reset with outLen := 88 }
    (statusWord t, t.errCode, t.outLen) = (4, 5, 0) := by decide

/-! ### Steps of the machine -/

/-- R84: reserved bits set. -/
theorem test_step_illegal : (stepped (pendingWith 0x101 [])).errCode = 4 := by decide
/-- R82: `CMD` accepted. -/
theorem test_step_accept : statusWord (stepped (idleWith [hostW 0x008 0x21])) = 1 := by decide
/-- R310. -/
theorem test_step_overrun : statusWord (stepped (pendingWith 0 [hostW 0x00C 5])) = 9 := by decide
/-- R61, V30: FRAME words 0-2. -/
theorem test_read_frame_words :
    let s := { State.reset with frameLen := 9, framebuf := blockCells 0 [0xAA, 0x8B, 0x00, 0x02, 0x01, 0x03, 0x01, 0x00, 0x07, 0x08] }
    [0x6000, 0x6004, 0x6008, 0x600C].map (fun o => (stepped { s with turns := [hostR o] }).rdata) =
      [0x02008BAA, 0x00010301, 0x00000007, 0] := by decide
/-- V10 step 4 and step 8: reserved bits of a written word are dropped. -/
theorem test_write_defined_fields :
    (stepped (idleWith [hostW 0x020 0xFF0000FF])).pixWdata = 0x0000FF ∧ (stepped (idleWith [hostW 0x018 0x00010005])).pixX = 5 := by decide

/-! ### Witnesses: a state and operands that meet every hypothesis of a statement, per clause -/

/-- Cell `t` has key `t` for `t < n`, black elsewhere: `n` distinct colours (V14, V15, V17). -/
def countingGrid (n : Nat) : State :=
  { State.reset with pixmem := blockCells 1 ((List.range' 1 (n - 1)).map (BitVec.ofNat 24)) }

theorem pixel_countingGrid (n t : Nat) : pixel (countingGrid n) t = if t < n then BitVec.ofNat 24 t else 0 := by
  rw [pixel, readCell, countingGrid, lookupCell_blockCells]
  by_cases h1 : 1 ≤ t
  · by_cases h2 : t < n
    · have h3 : t - 1 < n - 1 := by omega
      simp [h1, h2, h3, show 1 + (t - 1) = t by omega]
    · have h3 : ¬ t - 1 < n - 1 := by omega
      simp [h1, h2, h3, unlisted]
  · obtain rfl : t = 0 := by omega
    simp [unlisted]

theorem palette_countingGrid (n : Nat) (h1 : 1 ≤ n) (h2 : n ≤ 1024) : (encodedGrid (countingGrid n)).palette.length = n := by
  have S := encodeGrid_spec (gridKeys (countingGrid n))
  have hn : (encodeGrid (gridKeys (countingGrid n))).palette.Nodup := by simpa using S.nodup
  have inj : ((List.range n).map (BitVec.ofNat 24)).Nodup := by
    refine List.Nodup.map_on ?_ List.nodup_range
    intro a ha b hb e
    have ha : a < n := List.mem_range.mp ha
    have hb : b < n := List.mem_range.mp hb
    have := congrArg BitVec.toNat e
    simp only [BitVec.toNat_ofNat] at this
    omega
  have perm : (encodeGrid (gridKeys (countingGrid n))).palette.Perm ((List.range n).map (BitVec.ofNat 24)) := by
    rw [List.perm_ext_iff_of_nodup hn inj]
    intro k
    rw [S.mem_palette, gridKeys]
    simp only [List.mem_map, List.mem_range, pixel_countingGrid, List.not_mem_nil, not_false_eq_true, and_true]
    constructor
    · rintro ⟨t, -, rfl⟩
      by_cases h : t < n
      · exact ⟨t, h, by rw [if_pos h]⟩
      · exact ⟨0, h1, by rw [if_neg h]; rfl⟩
    · rintro ⟨t, h, rfl⟩
      exact ⟨t, by omega, by rw [if_pos h]⟩
  rw [encodedGrid, perm.length_eq, List.length_map, List.length_range]

theorem test_witness_palette_256 : (encodedGrid (countingGrid 256)).palette.length = 256 := palette_countingGrid 256 (by omega) (by omega)
theorem test_witness_palette_257 : (encodedGrid (countingGrid 257)).palette.length = 257 := palette_countingGrid 257 (by omega) (by omega)
theorem test_witness_palette_reset : (encodedGrid State.reset).palette.length = 1 := by decide +kernel

theorem test_witness_DecodeAndEncodeAgree : decodeWord 0x22 = .ok .msgStaticImage ∧ commandWordWellFormed 0x22 = true := by decide

theorem test_witness_IllegalWord :
    (let s := pendingWith 0x100 []; s.rst = false ∧ s.turns = [] ∧ s.pending = some 0x100 ∧ (0x100 : Word).toNat / 256 ≠ 0) ∧
    (let s := pendingWith 0xFF []; s.rst = false ∧ s.turns = [] ∧ s.pending = some 0xFF ∧ (0xFF : Word).toNat % 256 ∉
      [0x00, 0x01, 0x02, 0x03, 0x04, 0x10, 0x11, 0x20, 0x21, 0x22, 0x30, 0x31, 0x32, 0x33]) ∧
    (let s := pendingWith 0x100 [.engine]; s.rst = false ∧ s.turns = .engine :: [] ∧ s.pending = some 0x100) := by decide

theorem test_witness_StepRunsPendingCommand :
    decodeWord 0x33 = .ok .animNextChunk ∧
    (let s := pendingWith 0x33 []; s.rst = false ∧ s.pending = some 0x33 ∧ s.turns = []) ∧
    (let s := pendingWith 0x33 [.engine]; s.rst = false ∧ s.pending = some 0x33 ∧ s.turns = .engine :: []) := by decide

theorem test_witness_EngineIdles : State.reset.pending = none ∧ State.reset.turns = [] ∧
    (idleWith [.engine]).pending = none ∧ (idleWith [.engine]).turns = .engine :: [] := by decide

theorem test_witness_Acceptance :
    let s := idleWith [.host ⟨32, 0x008, .write 0x21⟩]
    s.rst = false ∧ s.busy = false ∧ s.turns = .host ⟨32, 0x008, .write 0x21⟩ :: [] := by decide

/-- A busy write and a busy read, at the first offset, at `STATUS` and at the last offset. -/
theorem test_witness_busy_access (o : BitVec 16) (h : o ∈ ([0x0000, 0x0004, 0xFFFC] : List (BitVec 16))) : o.toNat % 4 = 0 ∧
    (let s := pendingWith 0 [hostW o 1]; s.rst = false ∧ s.busy = true ∧ s.turns = .host ⟨32, o, .write 1⟩ :: []) ∧
    (let s := pendingWith 0 [hostR o]; s.rst = false ∧ s.busy = true ∧ s.turns = .host ⟨32, o, .read⟩ :: []) :=
  ⟨by fin_cases h <;> decide, ⟨rfl, rfl, rfl⟩, rfl, rfl, rfl⟩

theorem test_witness_Reads :
    (let s := pendingWith 0 [hostR 0xFFFC]; s.rst = false ∧ s.turns = .host ⟨32, 0xFFFC, .read⟩ :: []) ∧
    (let s := idleWith [hostR 0x8000, hostR 0x8000]; s.rst = false ∧ s.busy = false ∧ (0x8000 : BitVec 16).toNat % 4 = 0 ∧
      s.turns = .host ⟨32, 0x8000, .read⟩ :: .host ⟨32, 0x8000, .read⟩ :: []) := by decide

theorem test_witness_StatusWrite :
    let s := { idleWith [.host ⟨32, 0x004, .write 0xF⟩] with overrun := true }
    s.rst = false ∧ s.busy = false ∧ s.turns = .host ⟨32, 0x004, .write 0xF⟩ :: [] := by decide

/-- The first register, `STATUS` after a completion (R262's `0x0000_0002`) and the last register, each with a value. -/
theorem test_witness_RegisterReads (o : BitVec 16) (v : Nat)
    (_ : (o, v) ∈ ([(0x000, 1), (0x004, 2), (0x04C, 256)] : List (BitVec 16 × Nat))) :
    let s := { idleWith [hostR o] with palCapSel := true, done := true, chunkIdx := 256 }
    (s.palCapSel.toNat, (statusWord s).toNat, s.chunkIdx.toNat) = (1, 2, 256) ∧ s.rst = false ∧ s.busy = false ∧
      s.turns = .host ⟨32, o, .read⟩ :: [] :=
  ⟨show (1, (statusWord { State.reset with done := true }).toNat, 256) = (1, 2, 256) by decide, rfl, rfl, rfl⟩

/-- Each RW register, with all bits written 1. -/
theorem test_witness_OperandRegisters (o : BitVec 16) (m : Word) (_ : (o, m) ∈ ([(0x000, 0x1), (0x00C, 0xFFFF), (0x018, 0xFFFF),
      (0x01C, 0xFFFF), (0x020, 0xFFFFFF), (0x038, 0xFFFF)] : List (BitVec 16 × Word))) :
    let s := idleWith [hostW o 0xFFFFFFFF]
    s.rst = false ∧ s.busy = false ∧ s.turns = .host ⟨32, o, .write 0xFFFFFFFF⟩ :: [] := ⟨rfl, rfl, rfl⟩

/-- The offsets around the IN window, the first and the last RO register, and the last offset. -/
theorem test_witness_OtherWrites (o : BitVec 16)
    (h : o ∈ ([0x0010, 0x004C, 0x0050, 0x1000, 0x7FFC, 0x9000, 0xFFFC] : List (BitVec 16))) :
    (o.toNat % 4 = 0 ∧ o.toNat ∉ [0x000, 0x004, 0x008, 0x00C, 0x018, 0x01C, 0x020, 0x038] ∧
      ¬ (0x8000 ≤ o.toNat ∧ o.toNat < 0x9000)) ∧
    (let s := idleWith [hostW o 1]; s.rst = false ∧ s.busy = false ∧ s.turns = .host ⟨32, o, .write 1⟩ :: []) :=
  ⟨by fin_cases h <;> decide, rfl, rfl, rfl⟩

/-- The ends of the three unmapped ranges, for a read while idle, a write while idle and a write while busy. -/
theorem test_witness_Unmapped (o : BitVec 16) (h : o ∈ ([0x0050, 0x0FFC, 0x3000, 0x3FFC, 0x9000, 0xFFFC] : List (BitVec 16))) :
    (o.toNat % 4 = 0 ∧ ((0x050 ≤ o.toNat ∧ o.toNat ≤ 0xFFC) ∨ (0x3000 ≤ o.toNat ∧ o.toNat ≤ 0x3FFF) ∨ 0x9000 ≤ o.toNat)) ∧
    (let s := idleWith [hostR o]; s.rst = false ∧ s.busy = false ∧ s.turns = .host ⟨32, o, .read⟩ :: []) ∧
    (let s := idleWith [hostW o 1]; s.rst = false ∧ s.busy = false ∧ s.turns = .host ⟨32, o, .write 1⟩ :: []) ∧
    (let s := pendingWith 0 [hostW o 1]; s.rst = false ∧ s.busy = true ∧ s.turns = .host ⟨32, o, .write 1⟩ :: []) :=
  ⟨by fin_cases h <;> decide, ⟨rfl, rfl, rfl⟩, ⟨rfl, rfl, rfl⟩, rfl, rfl, rfl⟩

/-- The first and the last word of each result window. -/
theorem test_witness_ResultWindows (base i : Nat) (_ : (base, i) ∈ [(0x1000, 0), (0x1000, 1023), (0x2000, 0), (0x2000, 1023),
      (0x4000, 0), (0x4000, 2047), (0x6000, 0), (0x6000, 2047)]) :
    let s := { idleWith [hostR (BitVec.ofNat 16 (base + 4 * i))] with palLen := 1, outLen := 8, frameLen := 139 }
    s.rst = false ∧ s.busy = false ∧ s.turns = .host ⟨32, BitVec.ofNat 16 (base + 4 * i), .read⟩ :: [] := ⟨rfl, rfl, rfl⟩

theorem test_witness_InWindow (k : Nat) (h : k ∈ [0, 1023]) : k < 1024 ∧
    (let s := idleWith [hostR (BitVec.ofNat 16 (0x8000 + 4 * k))]
     s.rst = false ∧ s.busy = false ∧ s.turns = .host ⟨32, BitVec.ofNat 16 (0x8000 + 4 * k), .read⟩ :: []) ∧
    (let s := idleWith [hostW (BitVec.ofNat 16 (0x8000 + 4 * k)) 0x04030201]
     s.rst = false ∧ s.busy = false ∧ s.turns = .host ⟨32, BitVec.ofNat 16 (0x8000 + 4 * k), .write 0x04030201⟩ :: []) :=
  ⟨by revert k; decide, ⟨rfl, rfl, rfl⟩, rfl, rfl, rfl⟩

theorem test_witness_OtherAccesses : ∀ a ∈ ([⟨16, 0x0000, .read⟩, ⟨32, 0x0002, .read⟩, ⟨64, 0x0004, .write 1⟩] : List Access),
    (idleWith [.host a]).turns = .host a :: [] ∧ (a.bits ≠ 32 ∨ a.offset.toNat % 4 ≠ 0) := by decide

theorem test_witness_InReset (ts : List Turn) (_ : ts ∈ [[hostR 4], [], [.engine], [.reset false]]) :
    let s := { State.reset with rst := true, turns := ts }
    s.rst = true ∧ s.turns = ts := ⟨rfl, rfl⟩

theorem test_witness_ResetAbandons :
    let s := pendingWith 0x31 [.reset true, .reset false]
    s.pending = some 0x31 ∧ s.turns = .reset true :: .reset false :: [] := by decide

/-- R261's example: after a failed `PIX_GET`, `NOP` is written, the engine's turn listed and not. -/
theorem test_witness_Nop (ts : List Turn)
    (_ : ts = [hostW 0x008 0x00000000, .engine] ∨ ts = [hostW 0x008 0x00000000]) :
    let s := { idleWith ts with err := true, errCode := 1 }
    s.rst = false ∧ s.busy = false ∧ s.turns = ts ∧ s.err = true := ⟨rfl, rfl, rfl, rfl⟩

/-- The last cell, and the first column and the first row out of bounds (PIX_GET and PIX_SET). -/
theorem test_witness_bounds : (at_ 31 31 1).pixX.toNat < 32 ∧ (at_ 31 31 1).pixY.toNat < 32 ∧ 32 ≤ (at_ 32 0 1).pixX.toNat ∧
    32 ≤ (at_ 0 32 1).pixY.toNat := by decide

theorem test_witness_BitWidth : 1 ≤ 1 ∧ 1 ≤ 1024 ∧ 1024 ≤ 1024 := by decide

/-- The clauses on the cap: the 1024 cap, the 256 cap just kept and just exceeded (PALETTE_ENCODE, FRAME_BUILD, MSG_STATIC_IMAGE). -/
theorem test_witness_caps :
    (encodedGrid (countingGrid 257)).palette.length ≤ (if (countingGrid 257).palCapSel then 256 else 1024) ∧
    (let s := { countingGrid 256 with palCapSel := true }; (encodedGrid s).palette.length ≤ (if s.palCapSel then 256 else 1024)) ∧
    (let s := { countingGrid 257 with palCapSel := true }; (if s.palCapSel then 256 else 1024) < (encodedGrid s).palette.length) := by
  refine ⟨?_, ?_, ?_⟩
  · rw [test_witness_palette_257]; decide
  · exact test_witness_palette_256.le
  · exact (by decide : 256 < 257).trans_le test_witness_palette_257.ge

/-- The narrowest and the widest symbols, and a sequence of 1024 of them. -/
theorem test_witness_Pack : 1 ≤ 1 ∧ 10 ≤ 10 ∧ (∀ v ∈ [0, 1], v < 2 ^ 1) ∧ (∀ v ∈ [1023, 0], v < 2 ^ 10) ∧
    (List.replicate 1024 1).length = 1024 ∧ 0 < (pack [1023, 0] 10).length := by decide +kernel

theorem test_witness_Frame : ∃ f, f = frameRecord 0x0102 (encodedGrid State.reset) ∧ f.length = 139 ∧
    (encodedGrid State.reset).palette[0]? = some 0 := by
  refine ⟨_, rfl, ?_, ?_⟩ <;> decide +kernel

/-- The empty payload and the longest. -/
theorem test_witness_Message : ([] : List Byte).length ≤ 65533 ∧ (List.replicate 65533 (0xFF : Byte)).length ≤ 65533 :=
  ⟨Nat.zero_le _, List.length_replicate.le⟩

theorem test_witness_Checksum : ([1, 2] : List Byte).Perm [2, 1] ∧ 65533 ≤ 65533 := by decide

theorem test_witness_MsgRaw : ({ State.reset with inLen := 4096 } : State).inLen.toNat ≤ 4096 ∧
    4096 < ({ State.reset with inLen := 4097 } : State).inLen.toNat := by decide

theorem test_witness_MsgBrightness : (at_ 0 0 0 100).arg.toNat ≤ 100 ∧ 100 < (at_ 0 0 0 101).arg.toNat := by decide

/-- A frame that exactly fills the buffer, with time code 65535. -/
theorem test_witness_AnimAddFrame :
    let s := collecting 65535 61 1 200
    s.animState = .collect ∧ s.frameCount.toNat * s.period.toNat ≤ 65535 ∧ s.config.Legal ∧
      (encodedGrid s).palette.length ≤ (if s.palCapSel then 256 else 1024) ∧
      s.animLen.toNat + (frameRecord (BitVec.ofNat 16 (s.frameCount.toNat * s.period.toNat)) (encodedGrid s)).length ≤
        s.config.animCap := by decide +kernel

/-- The sequence clause, the time code 65536, and the palette clause. -/
theorem test_witness_AnimAddFrameErrors :
    State.reset.animState ≠ .collect ∧
    (let s := collecting 32768 278 2; s.animState = .collect ∧ 65535 < s.frameCount.toNat * s.period.toNat) ∧
    (let s := { countingGrid 257 with animState := .collect, palCapSel := true }
     s.animState = .collect ∧ s.frameCount.toNat * s.period.toNat ≤ 65535 ∧
       (if s.palCapSel then 256 else 1024) < (encodedGrid s).palette.length) :=
  ⟨by decide, by decide, rfl, by decide, (by decide : 256 < 257).trans_le test_witness_palette_257.ge⟩

/-- The capacity clause: one byte too few. -/
theorem test_witness_AnimAddFrameCapacity :
    let s := collecting 0 62 1 200
    s.animState = .collect ∧ s.frameCount.toNat * s.period.toNat ≤ 65535 ∧
      (encodedGrid s).palette.length ≤ (if s.palCapSel then 256 else 1024) ∧
      s.config.animCap < s.animLen.toNat +
        (frameRecord (BitVec.ofNat 16 (s.frameCount.toNat * s.period.toNat)) (encodedGrid s)).length := by decide +kernel

theorem test_witness_AnimEnd : (collecting 0 0 0).animState = .collect ∧ (collecting 0 51200 368).animState = .collect ∧
    State.reset.animState ≠ .collect := by decide

/-- The first of one chunk, the last of 256 (V44), and a state outside EMIT. -/
theorem test_witness_AnimNextChunk :
    (∀ s ∈ [emitting 139 1 1 0, emitting 51152 368 256 255], s.animState = .emit ∧ s.chunkIdx.toNat < s.chunkCount.toNat) ∧
    State.reset.animState ≠ .emit := by decide +kernel

theorem test_witness_ChunksReassemble : SessionInv (emitting 278 2 2 0) ∧ (emitting 278 2 2 0).animState = .emit ∧
    (emitting 278 2 2 0).chunkIdx = 0 :=
  ⟨⟨by decide, by decide, by decide, by decide, by decide, by decide, by decide⟩, rfl, rfl⟩

/-- A command other than SOFT_RESET that succeeds, one that fails, and one whose write was dropped (the statements over `exec i s`). -/
theorem test_witness_commands : Instr.pixSet ≠ .softReset ∧ exec .pixSet (at_ 1 0 2) = .next (after .pixSet (at_ 1 0 2)) ∧
    (at_ 32 0 2).err = false ∧ exec .pixSet (at_ 32 0 2) = .next (after .pixSet (at_ 32 0 2)) ∧
    (after .pixSet (at_ 32 0 2)).err = true := ⟨by decide, rfl, rfl, rfl, rfl⟩

theorem test_witness_HostWrites :
    let s := idleWith [.host ⟨32, 0x8FFC, .write 5⟩]
    s.turns = .host ⟨32, 0x8FFC, .write 5⟩ :: [] ∧ step s = .next (stepped s) := ⟨rfl, rfl⟩

/-- An illegal word and a legal one, the engine's turn listed and not. -/
theorem test_witness_PendingCommandCompletes (w : Word) (_ : w ∈ ([0x05, 0x00] : List Word)) (ts : List Turn)
    (h : ts ∈ ([[], [.engine]] : List (List Turn))) :
    let s := pendingWith w ts
    s.rst = false ∧ (s.turns = [] ∨ ∃ rest, s.turns = .engine :: rest) ∧ s.pending = some w ∧ s.done = false ∧ s.err = false :=
  ⟨rfl, by fin_cases h; exacts [.inl rfl, .inr ⟨[], rfl⟩], rfl, rfl, rfl⟩

theorem test_witness_EitherOrder (ts : List Turn) (_ : ts = [hostW 0x00C 7, .engine] ∨ ts = [.engine, hostW 0x00C 7]) :
    let s := pendingWith (encode .nop) ts
    s.rst = false ∧ s.busy = true ∧ s.pending = some (encode .nop) ∧ Instr.nop ≠ .softReset ∧ s.turns = ts ∧
      exec .nop { s with turns := [] } = .next (after .nop { s with turns := [] }) :=
  ⟨rfl, rfl, rfl, by decide, rfl, rfl⟩

/-- The invariants hold in a state with a command pending, whose step completes it. -/
theorem test_witness_invariants :
    let s := pendingWith 0x04 []
    StatusInv s ∧ PaletteInv s ∧ LengthInv s ∧ SessionInv s ∧ Memory.wf s ∧ step s = .next (stepped s) :=
  ⟨⟨by decide, by decide, by decide, by decide, by decide, by decide, by decide⟩,
    ⟨by decide, by decide, by decide, fun h => absurd rfl h⟩, ⟨Or.inl rfl, Or.inl rfl⟩,
    ⟨by decide, by decide, by decide, by decide, by decide, by decide, by decide⟩, by decide, rfl⟩

end Sys2Proof.Tests
end

section
/-! SUPPORT. The bounds of `FRAME_LEN` and `OUT_LEN` (R10, R43, R44) over every effect, failure, access and reset. -/

namespace Sys2Proof.Machine

/-! ### Lengths that are stored -/

/-- A 16-bit length register holds the length of a frame record of the grid exactly, so it is within the bounds of R171. -/
theorem storedFrameLen_bounds (tc : BitVec 16) (s : State) :
    139 ≤ (BitVec.ofNat 16 (frameRecord tc (encodeGrid (gridKeys s))).length).toNat ∧
      (BitVec.ofNat 16 (frameRecord tc (encodeGrid (gridKeys s))).length).toNat ≤ 4360 := by
  obtain ⟨hlow, hhigh⟩ := grid_frame_bounds tc s
  rwa [BitVec.toNat_ofNat, Nat.mod_eq_of_lt (by omega), and_iff_right hlow]

/-- The same for a message: its envelope is 6 bytes (R191), and the longest payload is a static image's, 5 + 4360 bytes (R93, R171). -/
theorem storedMessageLen_bounds {p : List Byte} (hp : p.length ≤ 4365) :
    6 ≤ (BitVec.ofNat 16 (message p).length).toNat ∧ (BitVec.ofNat 16 (message p).length).toNat ≤ 4371 := by
  rw [message_length, BitVec.toNat_ofNat]; omega

@[simp] theorem staticImagePayload_length (f : List Byte) : (staticImagePayload f).length = f.length + 5 := by
  simp [staticImagePayload]

theorem lengthInv_storeOut {s : State} {p : List Byte} (h : LengthInv s) (hp : p.length ≤ 4365) :
    LengthInv (storeOut (message p) s) :=
  ⟨h.frameLen, Or.inr (storedMessageLen_bounds hp)⟩

theorem lengthInv_storeBuilt {s : State} (tc : BitVec 16) (h : LengthInv s) :
    LengthInv (storeBuilt (encodeGrid (gridKeys s)) (frameRecord tc (encodeGrid (gridKeys s))) s) :=
  ⟨Or.inr (storedFrameLen_bounds tc s), h.outLen⟩

/-! ### What a step can have done -/

theorem LengthInv.of_same {s t : State} (h : LengthInv s) (hf : t.frameLen = s.frameLen) (ho : t.outLen = s.outLen) :
    LengthInv t :=
  ⟨hf ▸ h.frameLen, ho ▸ h.outLen⟩

/-- The effects that store a message or a frame store one within the bounds; `SOFT_RESET` clears both lengths; no other effect writes
them. `MSG_RAW` needs its guard: at most 4096 payload bytes. -/
theorem lengthInv_effect {s : State} {i : Instr} (g : Guard s i) (h : LengthInv s) : LengthInv (effect s i) := by
  cases i with
  | nop | gridClear | pixGet | pixSet | paletteEncode | animBegin | animEnd => exact h.of_same rfl rfl
  | softReset => exact ⟨Or.inl rfl, Or.inl rfl⟩
  | frameBuild => exact lengthInv_storeBuilt _ h
  | animAddFrame => exact (lengthInv_storeBuilt (BitVec.ofNat 16 (frameTimeCode s)) h).of_same rfl rfl
  | msgRaw =>
    have hn : s.inLen.toNat ≤ 4096 := g
    exact lengthInv_storeOut h (by rw [operandPayload_length]; omega)
  | msgBrightness => exact lengthInv_storeOut h (by simp [brightnessPayload])
  | msgStaticImage =>
    have hf := (grid_frame_bounds 0 s).2
    exact lengthInv_storeOut (lengthInv_storeBuilt 0 h)
      (by rw [staticImagePayload_length]; omega)
  | animNextChunk =>
    have hc := chunkPayload_length_le s s.chunkIdx.toNat
    exact (lengthInv_storeOut h (p := chunkPayload s s.chunkIdx.toNat) (by omega)).of_same rfl rfl

/-- A failure keeps each length or drops what it measures (R276). -/
theorem lengthInv_failCommand {s : State} (c : Option Instr) (e : CmdError) (n : BitVec 16) (h : LengthInv s) :
    LengthInv (failCommand c e n s) := by
  constructor
  · rw [failCommand_frameLen]
    split
    · exact Or.inl rfl
    · exact h.frameLen
  · rw [failCommand_outLen]
    split
    · exact Or.inl rfl
    · exact h.outLen

theorem hostRead_lengths (T : Target) (s : State) :
    (hostRead T s).frameLen = s.frameLen ∧ (hostRead T s).outLen = s.outLen := by
  unfold hostRead; split <;> exact ⟨rfl, rfl⟩

/-- `FRAME_LEN` and `OUT_LEN` are RO: no host write reaches them (R22, R67). -/
theorem hostWrite_lengths (T : Target) (v : Word) (s : State) :
    (hostWrite T v s).frameLen = s.frameLen ∧ (hostWrite T v s).outLen = s.outLen := by
  unfold hostWrite
  split
  · exact ⟨rfl, rfl⟩
  · cases T with
    | reg r => cases r <;> exact ⟨rfl, rfl⟩
    | palWord | idxWord | outWord | frameWord | inWord | unmapped => exact ⟨rfl, rfl⟩

/-- Settles O57: every outcome of a step leaves each length, clears it, or stores one within its bounds. -/
theorem readableLengthsAreInvariant : Obligations.ReadableLengthsAreInvariant := by
  intro s t h hstep
  obtain ⟨rest, u, hu, outcome⟩ := step_outcomes hstep
  have hu : LengthInv u := h.of_same (by rw [hu]) (by rw [hu])
  rcases outcome with rfl | ⟨w, i, -, g, rfl⟩ | ⟨w, i, e, n, -, -, rfl⟩ | ⟨w, -, rfl⟩ | ⟨T, rfl⟩ |
    ⟨o, v, -, -, rfl⟩ | ⟨level, rfl⟩
  · exact hu
  · exact (lengthInv_effect g hu).of_same (complete_frameLen _) (complete_outLen _)
  · exact lengthInv_failCommand _ _ _ hu
  · exact lengthInv_failCommand _ _ _ hu
  · exact hu.of_same (hostRead_lengths T u).1 (hostRead_lengths T u).2
  · exact hu.of_same (hostWrite_lengths (target o) v u).1 (hostWrite_lengths (target o) v u).2
  · exact ⟨Or.inl rfl, Or.inl rfl⟩

end Sys2Proof.Machine
end


section
/-! SUPPORT. What every step keeps: the shape of an invariant's proof, and the status, palette, session and memory invariants (R26-R28, R39-R52,
R210-R220). -/

namespace Sys2Proof.Machine

/-! ### What leaves the results alone -/

/-- Every result register and every memory but `IN`, the reset input and the configuration as before, as data (R54). -/
structure KeepsResults (s t : State) : Prop where
  animState : t.animState = s.animState
  pixRdata : t.pixRdata = s.pixRdata
  palLen : t.palLen = s.palLen
  bitWidth : t.bitWidth = s.bitWidth
  frameLen : t.frameLen = s.frameLen
  outLen : t.outLen = s.outLen
  animLen : t.animLen = s.animLen
  frameCount : t.frameCount = s.frameCount
  period : t.period = s.period
  chunkCount : t.chunkCount = s.chunkCount
  chunkIdx : t.chunkIdx = s.chunkIdx
  pixmem : t.pixmem = s.pixmem
  palmem : t.palmem = s.palmem
  idxmem : t.idxmem = s.idxmem
  framebuf : t.framebuf = s.framebuf
  out : t.out = s.out
  allframes : t.allframes = s.allframes
  rst : t.rst = s.rst
  config : t.config = s.config
  powerOns : t.powerOns = s.powerOns

theorem turns_keepsResults (s : State) (rest : List Turn) : KeepsResults s { s with turns := rest } := by
  constructor <;> rfl

theorem KeepsResults.trans {s t u : State} (h : KeepsResults s t) (h' : KeepsResults t u) : KeepsResults s u :=
  ⟨h'.animState.trans h.animState, h'.pixRdata.trans h.pixRdata, h'.palLen.trans h.palLen, h'.bitWidth.trans h.bitWidth,
    h'.frameLen.trans h.frameLen, h'.outLen.trans h.outLen, h'.animLen.trans h.animLen, h'.frameCount.trans h.frameCount,
    h'.period.trans h.period, h'.chunkCount.trans h.chunkCount, h'.chunkIdx.trans h.chunkIdx, h'.pixmem.trans h.pixmem,
    h'.palmem.trans h.palmem, h'.idxmem.trans h.idxmem, h'.framebuf.trans h.framebuf, h'.out.trans h.out,
    h'.allframes.trans h.allframes, h'.rst.trans h.rst, h'.config.trans h.config, h'.powerOns.trans h.powerOns⟩

theorem complete_keepsResults (s : State) : KeepsResults s (complete s) := by
  constructor <;> rfl

theorem hostRead_keepsResults (T : Target) (s : State) : KeepsResults s (hostRead T s) := by
  unfold hostRead; split <;> constructor <;> rfl

theorem writeReg_keepsResults (r : HostReg) (v : Word) (s : State) : KeepsResults s (writeReg v s r) := by
  cases r <;> constructor <;> rfl

/-- A host write reaches only operands, `IN`, the status and the pending command, whatever its offset (R54, R67, R310). -/
theorem hostWrite_keepsResults (T : Target) (v : Word) (s : State) : KeepsResults s (hostWrite T v s) := by
  unfold hostWrite
  split
  · constructor <;> rfl
  · cases T with
    | reg r => exact writeReg_keepsResults r v s
    | palWord | idxWord | outWord | frameWord | inWord | unmapped => constructor <;> rfl

section
variable {s t : State} (h : KeepsResults s t)
include h

theorem KeepsResults.grid : SameGrid s t := pixel_congr h.pixmem h.powerOns

theorem KeepsResults.palette : SamePalette s t :=
  ⟨h.palLen, h.bitWidth, palEntry_congr h.palmem h.powerOns, idxEntry_congr h.idxmem h.powerOns⟩

theorem KeepsResults.frame : SameFrame s t := ⟨h.frameLen, frameByte_congr h.framebuf h.powerOns⟩

theorem KeepsResults.output : SameOut s t := ⟨h.outLen, outByte_congr h.out h.powerOns⟩

theorem KeepsResults.session : SameSession s t :=
  ⟨h.animState, h.animLen, h.frameCount, h.period, h.chunkCount, h.chunkIdx, animByte_congr h.allframes h.powerOns⟩

end

/-! ### The shape of an invariant's proof -/

/-- Each kind of outcome of a step keeps `P`. -/
structure KeptByOutcomes (P : State → Prop) : Prop where
  turns : ∀ s rest, P s → P { s with turns := rest }
  run : ∀ s i, s.pending.isSome = true → Guard s i → P s → P (complete (effect s i))
  fail : ∀ s c e n, s.pending.isSome = true → (n ≠ 0 → e = .paletteTooLarge) → P s → P (failCommand c e n s)
  read : ∀ s T, P s → P (hostRead T s)
  write : ∀ s o v, o % 4 = 0 → s.rst = false → P s → P (hostWrite (target o) v s)
  reset : ∀ s level, P s → P (resetBlock level s)

/-- Only PALETTE_TOO_LARGE carries information (R35, R270). -/
theorem Raises.info {s : State} {i : Instr} {e : CmdError} {n : BitVec 16} (h : Raises s i e n) :
    n ≠ 0 → e = .paletteTooLarge := by
  intro hn
  cases i with
  | nop | softReset | gridClear | animBegin => exact h.elim
  | pixGet | pixSet | msgRaw | msgBrightness | animEnd | animNextChunk => exact absurd h.2.1 hn
  | paletteEncode | frameBuild | msgStaticImage => exact h.1
  | animAddFrame =>
    rcases h with ⟨-, h0, -⟩ | ⟨-, h0, -⟩ | ⟨he, -⟩ | ⟨-, h0, -⟩
    · exact absurd h0 hn
    · exact absurd h0 hn
    · exact he
    · exact absurd h0 hn

/-- What each kind of outcome keeps every step keeps. -/
theorem KeptByOutcomes.step {P : State → Prop} (k : KeptByOutcomes P) {s t : State} (h : P s) (hstep : step s = .next t) :
    P t := by
  obtain ⟨rest, u, rfl, outcome⟩ := step_outcomes hstep
  have hu := k.turns s rest h
  rcases outcome with rfl | ⟨w, i, hp, g, rfl⟩ | ⟨w, i, e, n, hp, hr, rfl⟩ | ⟨w, hp, rfl⟩ | ⟨T, rfl⟩ |
    ⟨o, v, ho, hr, rfl⟩ | ⟨level, rfl⟩
  · exact hu
  · exact k.run _ i (by rw [hp]; rfl) g hu
  · exact k.fail _ _ _ _ (by rw [hp]; rfl) hr.info hu
  · exact k.fail _ _ _ _ (by rw [hp]; rfl) (fun hn => absurd rfl hn) hu
  · exact k.read _ T hu
  · exact k.write _ o v ho hr hu
  · exact k.reset _ level hu

/-- An invariant of the results alone has three kinds of outcome to look at: effects, failures and resets. -/
theorem KeptByOutcomes.of_keepsResults {P : State → Prop} (hkeeps : ∀ s t, P s → KeepsResults s t → P t)
    (heffect : ∀ s i, Guard s i → P s → P (effect s i)) (hfail : ∀ s c e n, P s → P (failCommand c e n s))
    (hreset : ∀ s level, P s → P (resetBlock level s)) : KeptByOutcomes P where
  turns s rest h := hkeeps _ _ h (turns_keepsResults s rest)
  run s i _ g h := hkeeps _ _ (heffect s i g h) (complete_keepsResults _)
  fail s c e n _ _ h := hfail s c e n h
  read s T h := hkeeps _ _ h (hostRead_keepsResults T s)
  write s o v _ _ h := hkeeps _ _ h (hostWrite_keepsResults (target o) v s)
  reset := hreset

/-! ### The status protocol -/

theorem StatusInv.of_same {s t : State} (h : StatusInv s) (e : SameStatus s t) (hr : t.rst = s.rst) : StatusInv t := by
  obtain ⟨hbusy, hdone, herr, hcode, hinfo, hpending⟩ := e
  constructor
  · rw [hbusy, hpending]; exact h.busyIffPending
  · rw [hbusy, hdone, herr]; exact h.busyIsClear
  · rw [hdone, herr]; exact h.notDoneAndErr
  · rw [herr, hcode]; exact h.errIffCode
  · rw [hcode]; exact h.codeProduced
  · rw [hinfo, hcode]; exact h.infoOnlyForPalette
  · rw [hr, hbusy]; exact h.quietInReset

theorem hostRead_sameStatus (T : Target) (s : State) : SameStatus s (hostRead T s) := by
  unfold hostRead; split <;> constructor <;> rfl

/-- A host write is an acceptance, while idle only, or leaves the status but for `OVERRUN` as it was (R31, R81, R310). -/
theorem hostWrite_status (T : Target) (v : Word) (s : State) :
    (s.busy = false ∧ hostWrite T v s = accept v s) ∨ SameStatus s (hostWrite T v s) := by
  cases hb : s.busy with
  | true => rw [hostWrite, if_pos hb]; exact Or.inr (by constructor <;> rfl)
  | false =>
    rw [hostWrite_idle hb]
    cases T with
    | reg r =>
      cases r with
      | cmd => exact Or.inl ⟨rfl, rfl⟩
      | _ => exact Or.inr (by constructor <;> rfl)
    | _ => exact Or.inr (by constructor <;> rfl)

theorem statusInv_accept {s : State} (w : Word) (hr : s.rst = false) : StatusInv (accept w s) := by
  constructor <;> simp [hr]

/-- Every error has a code from 1 to 7 (R270). -/
theorem CmdError.code_bounds (e : CmdError) : e.code ≠ 0 ∧ e.code.toNat ≤ 7 := by
  cases e <;> decide

theorem statusInv_failCommand {s : State} (c : Option Instr) {e : CmdError} {n : BitVec 16}
    (hn : n ≠ 0 → e = .paletteTooLarge) : StatusInv (failCommand c e n s) := by
  obtain ⟨hne, hle⟩ := e.code_bounds
  constructor
  case codeProduced => exact hle
  case errIffCode => exact iff_of_true rfl hne
  case infoOnlyForPalette => exact fun h => congrArg CmdError.code (hn h)
  all_goals simp

/-- Acceptance has cleared the error, and no effect raises one: a completion leaves `DONE` alone. -/
theorem statusInv_complete_effect {s : State} (i : Instr) (hp : s.pending.isSome = true) (h : StatusInv s) :
    StatusInv (complete (effect s i)) := by
  have hbusy : s.busy = true := h.busyIffPending.trans hp
  have herr : s.err = false := (h.busyIsClear hbusy).2
  have hcode : s.errCode = 0 := by
    by_contra hne
    exact Bool.false_ne_true (herr.symm.trans (h.errIffCode.mpr hne))
  obtain ⟨eerr, ecode, einfo, -, -⟩ := effect_status i s
  have herr' : (effect s i).err = false := by rw [eerr, herr, ite_self]
  have hcode' : (effect s i).errCode = 0 := by rw [ecode, hcode, ite_self]
  constructor
  case infoOnlyForPalette =>
    have hinfo : s.errInfo = 0 := by
      by_contra hne
      exact absurd (hcode.symm.trans (h.infoOnlyForPalette hne)) (by decide)
    exact fun hne => absurd (by rw [complete_errInfo, einfo, hinfo, ite_self]) hne
  all_goals simp [herr', hcode']

theorem statusInv_resetBlock (level : Bool) (s : State) : StatusInv (resetBlock level s) := by
  constructor <;> simp [State.reset]

theorem statusInv_kept : KeptByOutcomes StatusInv where
  turns s rest h := h.of_same (by constructor <;> rfl) rfl
  run s i hp _ h := statusInv_complete_effect i hp h
  fail s c e n _ hn _ := statusInv_failCommand c hn
  read s T h := h.of_same (hostRead_sameStatus T s) (hostRead_keepsResults T s).rst
  write s o v _ hr h := by
    rcases hostWrite_status (target o) v s with ⟨-, e⟩ | e
    · rw [e]; exact statusInv_accept v hr
    · exact h.of_same e (hostWrite_keepsResults _ v s).rst
  reset s level _ := statusInv_resetBlock level s

/-- Settles O55: acceptance clears the error, and each completion sets exactly one of `DONE` and `ERR`. -/
theorem statusProtocolIsInvariant : Obligations.StatusProtocolIsInvariant :=
  fun _ _ h hstep => statusInv_kept.step h hstep

/-! ### The palette registers -/

theorem PaletteInv.of_same {s t : State} (h : PaletteInv s) (e : SamePalette s t) : PaletteInv t := by
  constructor
  · rw [e.palLen]; exact h.palLen
  · rw [e.palLen, e.bitWidth]; exact h.noPalette
  · rw [e.palLen, e.bitWidth]; exact h.width
  · intro hne a ha
    rw [e.idxmem, e.palLen]
    exact h.index (e.palLen ▸ hne) a ha

theorem paletteInv_of_none {t : State} (hl : t.palLen = 0) (hw : t.bitWidth = 0) : PaletteInv t :=
  ⟨by simp [hl], fun _ => hw, fun h => absurd hl h, fun h => absurd hl h⟩

/-- What a palette stage stores is consistent: `PAL_LEN` is the palette's length and every index lies in the palette (R133). -/
theorem paletteInv_of_stored {s t : State} (h : PaletteStored (encodeGrid (gridKeys s)) s t) : PaletteInv t := by
  obtain ⟨hpos, hle⟩ := grid_palette_length s
  have hlen := h.palLen
  constructor
  · omega
  · intro h0; simp [h0] at hlen; omega
  · intro _; rw [hlen]; exact h.bitWidth
  · intro _ a ha
    have ha' : a < (encodeGrid (gridKeys s)).indices.length := by rwa [grid_indices_length]
    rw [h.idxmem a ha', hlen]
    exact encodeGrid_index_lt _ a ha'

theorem storeFrame_samePalette (f : List Byte) (s : State) : SamePalette s (storeFrame f s) :=
  ⟨rfl, rfl, palEntry_storeFrame f s, idxEntry_storeFrame f s⟩

theorem storeOut_samePalette (m : List Byte) (s : State) : SamePalette s (storeOut m s) :=
  ⟨rfl, rfl, palEntry_storeOut m s, idxEntry_storeOut m s⟩

theorem appendFrame_samePalette (r : Encoded) (f : List Byte) (s : State) :
    SamePalette (storeBuilt r f s) (appendFrame r f s) :=
  ⟨rfl, rfl, palEntry_congr rfl rfl, idxEntry_congr rfl rfl⟩

/-- A built frame stores the palette stage's result first (R170). -/
theorem storeBuilt_paletteStored (f : List Byte) (s : State) :
    PaletteStored (encodeGrid (gridKeys s)) s (storeBuilt (encodeGrid (gridKeys s)) f s) :=
  (storePalette_stored s).of_same (storeFrame_samePalette f _)

theorem paletteInv_effect {s : State} (i : Instr) (h : PaletteInv s) : PaletteInv (effect s i) := by
  cases i with
  | nop => exact h
  | softReset => exact paletteInv_of_none rfl rfl
  | paletteEncode => exact paletteInv_of_stored (storePalette_stored s)
  | frameBuild => exact paletteInv_of_stored (storeBuilt_paletteStored _ s)
  | msgStaticImage =>
    exact (paletteInv_of_stored (storeBuilt_paletteStored _ s)).of_same (storeOut_samePalette _ _)
  | animAddFrame =>
    exact (paletteInv_of_stored (storeBuilt_paletteStored _ s)).of_same (appendFrame_samePalette _ _ s)
  | gridClear | pixGet | pixSet | msgRaw | msgBrightness | animBegin | animEnd | animNextChunk =>
    exact h.of_same (by constructor <;> simp [effect])

theorem paletteInv_failCommand {s : State} (c : Option Instr) (e : CmdError) (n : BitVec 16) (h : PaletteInv s) :
    PaletteInv (failCommand c e n s) := by
  cases hd : dropsPalette c e with
  | true => exact paletteInv_of_none (by simp [hd]) (by simp [hd])
  | false => exact h.of_same ⟨by simp [hd], by simp [hd], palEntry_congr rfl rfl, idxEntry_congr rfl rfl⟩

theorem paletteInv_kept : KeptByOutcomes PaletteInv :=
  .of_keepsResults (fun _ _ h e => h.of_same e.palette) (fun _ i _ h => paletteInv_effect i h)
    (fun _ c e n h => paletteInv_failCommand c e n h) (fun _ _ _ => paletteInv_of_none rfl rfl)

/-- Settles O56: a palette command stores a consistent palette or drops it, and nothing else writes one. -/
theorem paletteRegistersAreInvariant : Obligations.PaletteRegistersAreInvariant :=
  fun _ _ h hstep => paletteInv_kept.step h hstep

/-! ### The animation session -/

theorem SessionInv.of_same {s t : State} (h : SessionInv s) (hc : t.config = s.config) (hs : t.animState = s.animState)
    (hl : t.animLen = s.animLen) (hf : t.frameCount = s.frameCount) (hk : t.chunkCount = s.chunkCount)
    (hi : t.chunkIdx = s.chunkIdx) : SessionInv t := by
  constructor
  · rw [hc]; exact h.legal
  · rw [hc, hl]; exact h.animLen
  · rw [hf, hl]; exact h.frames
  · rw [hk, hi]; exact h.chunks
  · rw [hs, hk]; exact h.collecting
  · rw [hs, hk, hi, hl]; exact h.emitting
  · rw [hs, hk, hi]; exact h.idle

/-- A session without frames and chunks, not in EMIT: after ANIM_BEGIN, an abort or a reset (R211, R276, R55). -/
theorem sessionInv_of_empty {t : State} (hc : t.config.Legal) (hs : t.animState ≠ .emit) (hl : t.animLen = 0)
    (hf : t.frameCount = 0) (hk : t.chunkCount = 0) (hi : t.chunkIdx = 0) : SessionInv t := by
  constructor
  case legal => exact hc
  case emitting => exact fun h => absurd h hs
  all_goals simp [hl, hf, hk, hi]

/-- An appended frame is at least 139 bytes and fits the buffer, so no session register wraps (R171, R213). -/
theorem sessionInv_appendFrame {s : State} {f : List Byte} (r : Encoded) (h : SessionInv s) (hs : s.animState = .collect)
    (hf : 139 ≤ f.length) (hfit : s.animLen.toNat + f.length ≤ s.config.animCap) : SessionInv (appendFrame r f s) := by
  have hcap := h.legal.2
  have hframes := h.frames
  have hlen : (appendFrame r f s).animLen.toNat = s.animLen.toNat + f.length := by
    rw [appendFrame_animLen, BitVec.toNat_ofNat]; omega
  have hcount : (appendFrame r f s).frameCount.toNat = s.frameCount.toNat + 1 := by
    rw [appendFrame_frameCount]; bv_omega
  constructor
  case animLen => rw [hlen]; exact hfit
  case frames => rw [hlen, hcount]; omega
  case legal => exact h.legal
  case chunks => exact h.chunks
  case collecting => exact h.collecting
  case emitting => simp [hs]
  case idle => simp [hs]

/-- `ANIM_LEN` is at most 51200, so there are at most 256 chunks; none at all ends the session at once (R214). -/
theorem sessionInv_fixChunks {s : State} (h : SessionInv s) : SessionInv (fixChunks s) := by
  have hcap := h.legal.2
  have hlen := h.animLen
  have hchunks : chunksOf s ≤ 256 := by unfold chunksOf ceilDiv; omega
  have hcount : (fixChunks s).chunkCount.toNat = chunksOf s := by
    rw [fixChunks_chunkCount, BitVec.toNat_ofNat]; omega
  constructor
  case legal => exact h.legal
  case animLen => exact h.animLen
  case frames => exact h.frames
  case chunks => rw [hcount]; simp [hchunks]
  case collecting => rw [fixChunks_animState]; split <;> simp
  case emitting =>
    rw [fixChunks_animState]
    split
    case isTrue => simp
    case isFalse hne => exact fun _ => ⟨by rw [hcount, fixChunks_chunkIdx]; exact Nat.pos_of_ne_zero hne, hcount⟩
  case idle =>
    rw [fixChunks_animState]
    split
    case isTrue h0 => exact fun _ => BitVec.eq_of_toNat_eq (by rw [hcount]; exact h0.symm)
    case isFalse => simp

/-- The index stays below the count, and the last chunk ends the session (R217). -/
theorem sessionInv_advanceChunk {s : State} (h : SessionInv s) (hs : s.animState = .emit) : SessionInv (advanceChunk s) := by
  obtain ⟨hlt, hceil⟩ := h.emitting hs
  have hcount := h.chunks.2
  have hidx : (advanceChunk s).chunkIdx.toNat = s.chunkIdx.toNat + 1 := by
    rw [advanceChunk_chunkIdx]; bv_omega
  constructor
  case legal => exact h.legal
  case animLen => exact h.animLen
  case frames => exact h.frames
  case chunks => rw [hidx, advanceChunk_chunkCount]; omega
  case collecting => rw [advanceChunk_animState, hs]; split <;> simp
  case emitting =>
    rw [hidx, advanceChunk_animState]
    split
    case isTrue => simp
    case isFalse hne => exact fun _ => ⟨by rw [advanceChunk_chunkCount]; omega, hceil⟩
  case idle =>
    rw [advanceChunk_animState, hs]
    split
    case isTrue hlast => exact fun _ => BitVec.eq_of_toNat_eq (by rw [hidx, advanceChunk_chunkCount]; exact hlast)
    case isFalse => simp

theorem sessionInv_effect {s : State} {i : Instr} (g : Guard s i) (h : SessionInv s) : SessionInv (effect s i) := by
  cases i with
  | nop | gridClear | pixGet | pixSet | paletteEncode | frameBuild | msgRaw | msgBrightness | msgStaticImage =>
    exact h.of_same rfl rfl rfl rfl rfl rfl
  | softReset => exact sessionInv_of_empty h.legal (by simp [effect]) rfl rfl rfl rfl
  | animBegin => exact sessionInv_of_empty h.legal (by simp [effect]) rfl rfl rfl rfl
  | animAddFrame =>
    obtain ⟨hs, -, -, hfit⟩ := g
    exact sessionInv_appendFrame _ h hs (grid_frame_bounds _ s).1 hfit
  | animEnd => exact sessionInv_fixChunks h
  | animNextChunk => exact sessionInv_advanceChunk (h.of_same rfl rfl rfl rfl rfl rfl) g

theorem sessionInv_failCommand {s : State} (c : Option Instr) (e : CmdError) (n : BitVec 16) (h : SessionInv s) :
    SessionInv (failCommand c e n s) := by
  cases hd : abortsSession c e with
  | true => exact sessionInv_of_empty h.legal (by simp [hd]) (by simp [hd]) (by simp [hd]) (by simp [hd]) (by simp [hd])
  | false => exact h.of_same rfl (by simp [hd]) (by simp [hd]) (by simp [hd]) (by simp [hd]) (by simp [hd])

theorem sessionInv_kept : KeptByOutcomes SessionInv :=
  .of_keepsResults (fun _ _ h e => h.of_same e.config e.animState e.animLen e.frameCount e.chunkCount e.chunkIdx)
    (fun _ _ g h => sessionInv_effect g h) (fun _ c e n h => sessionInv_failCommand c e n h)
    (fun _ _ h => sessionInv_of_empty h.legal (by simp [State.reset]) rfl rfl rfl rfl)

/-- Settles O58: each session command keeps the relation of its session state, and nothing else writes the session. -/
theorem sessionIsInvariant : Obligations.SessionIsInvariant :=
  fun _ _ h hstep => sessionInv_kept.step h hstep

/-! ### The form of the memories -/

/-- Of the memories only `IN` is the host's to write (R54). -/
theorem Memory.wf.of_keepsResults {s t : State} (h : Memory.wf s) (e : KeepsResults s t)
    (hkeep : Mem.Wf 4096 s.inbuf → Mem.Wf 4096 t.inbuf) : Memory.wf t := by
  obtain ⟨hpix, hpal, hidx, hframe, hout, hin, hanim⟩ := h
  refine ⟨?_, ?_, ?_, ?_, ?_, hkeep hin, ?_⟩
  · rw [e.pixmem]; exact hpix
  · rw [e.palmem]; exact hpal
  · rw [e.idxmem]; exact hidx
  · rw [e.framebuf]; exact hframe
  · rw [e.out]; exact hout
  · rw [e.config, e.allframes]; exact hanim

theorem hostRead_inbuf (T : Target) (s : State) : (hostRead T s).inbuf = s.inbuf := by
  unfold hostRead; split <;> rfl

/-- A word written to the IN window lies within its 4096 bytes, as its offset is a multiple of 4 (R45, R62). -/
theorem hostWrite_inbuf_wf {s : State} {o : Nat} (v : Word) (ho : o % 4 = 0) (h : Mem.Wf 4096 s.inbuf) :
    Mem.Wf 4096 (hostWrite (target o) v s).inbuf := by
  cases hb : s.busy with
  | true => rwa [hostWrite, if_pos hb]
  | false =>
    rw [hostWrite_idle hb]
    cases hT : target o with
    | reg r => cases r <;> exact h
    | inWord j =>
      obtain ⟨hlow, hhigh, hj⟩ := target_eq_inWord hT
      have hfit : j + (wordBytes v).length ≤ 4096 := by simp only [wordBytes, List.length_cons, List.length_nil]; omega
      exact storeBlock_wf h hfit
    | palWord | idxWord | outWord | frameWord | unmapped => exact h

theorem memoryWf_storePalette {s : State} (h : Memory.wf s) : Memory.wf (storePalette (encodeGrid (gridKeys s)) s) := by
  obtain ⟨hpix, hpal, hidx, hframe, hout, hin, hanim⟩ := h
  have hlen := (grid_palette_length s).2
  exact ⟨hpix, storeBlock_wf hpal (by omega), storeBlock_wf hidx (by simp), hframe, hout, hin, hanim⟩

theorem memoryWf_storeFrame {s : State} {f : List Byte} (h : Memory.wf s) (hf : f.length ≤ 8192) :
    Memory.wf (storeFrame f s) := by
  obtain ⟨hpix, hpal, hidx, hframe, hout, hin, hanim⟩ := h
  exact ⟨hpix, hpal, hidx, storeBlock_wf hframe (by omega), hout, hin, hanim⟩

theorem memoryWf_storeOut {s : State} {m : List Byte} (h : Memory.wf s) (hm : m.length ≤ 8192) :
    Memory.wf (storeOut m s) := by
  obtain ⟨hpix, hpal, hidx, hframe, hout, hin, hanim⟩ := h
  exact ⟨hpix, hpal, hidx, hframe, storeBlock_wf hout (by omega), hin, hanim⟩

theorem memoryWf_storeBuilt {s : State} (tc : BitVec 16) (h : Memory.wf s) :
    Memory.wf (storeBuilt (encodeGrid (gridKeys s)) (frameRecord tc (encodeGrid (gridKeys s))) s) := by
  have hf := (grid_frame_bounds tc s).2
  exact memoryWf_storeFrame (memoryWf_storePalette h) (by omega)

theorem memoryWf_appendFrame {s : State} {tc : BitVec 16} (h : Memory.wf s)
    (hfit : s.animLen.toNat + (frameRecord tc (encodeGrid (gridKeys s))).length ≤ s.config.animCap) :
    Memory.wf (appendFrame (encodeGrid (gridKeys s)) (frameRecord tc (encodeGrid (gridKeys s))) s) := by
  obtain ⟨hpix, hpal, hidx, hframe, hout, hin, hanim⟩ := memoryWf_storeBuilt tc h
  exact ⟨hpix, hpal, hidx, hframe, hout, hin, storeBlock_wf hanim hfit⟩

/-- The addressed cell is in bounds, and black is unlisted (R110, R113). -/
theorem memoryWf_writePixel {s : State} (h : Memory.wf s) (hin : inBounds s = true) : Memory.wf (writePixel s) := by
  obtain ⟨⟨hpix, hblack⟩, hrest⟩ := h
  obtain ⟨hx, hy⟩ := (inBounds_iff s).mp hin
  have hcell : operandCell s < 1024 := by simp only [operandCell, cellIndex, operandX, operandY]; omega
  exact ⟨⟨storePixel_wf hpix hcell, storePixel_no_black hblack⟩, hrest⟩

theorem memoryWf_effect {s : State} {i : Instr} (g : Guard s i) (h : Memory.wf s) : Memory.wf (effect s i) := by
  cases i with
  | nop | pixGet | animBegin | animEnd => exact h
  | softReset | gridClear =>
    obtain ⟨-, hrest⟩ := h
    exact ⟨by simp [effect, Mem.Wf], hrest⟩
  | pixSet => exact memoryWf_writePixel h g
  | paletteEncode => exact memoryWf_storePalette h
  | frameBuild => exact memoryWf_storeBuilt _ h
  | msgRaw =>
    have hn : s.inLen.toNat ≤ 4096 := g
    exact memoryWf_storeOut h (by rw [message_length, operandPayload_length]; omega)
  | msgBrightness => exact memoryWf_storeOut h (by simp [brightnessPayload])
  | msgStaticImage =>
    have hf := (grid_frame_bounds 0 s).2
    exact memoryWf_storeOut (memoryWf_storeBuilt 0 h) (by rw [message_length, staticImagePayload_length]; omega)
  | animAddFrame =>
    obtain ⟨-, -, -, hfit⟩ := g
    exact memoryWf_appendFrame h hfit
  | animNextChunk =>
    have hc := chunkPayload_length_le s s.chunkIdx.toNat
    exact memoryWf_storeOut (m := message (chunkPayload s s.chunkIdx.toNat)) h (by rw [message_length]; omega)

theorem memoryWf_resetBlock (level : Bool) (s : State) : Memory.wf (resetBlock level s) := by
  simp [Memory.wf, Mem.Wf, State.reset]

theorem memoryWf_kept : KeptByOutcomes Memory.wf where
  turns _ _ h := h
  run _ _ _ g h := memoryWf_effect g h
  fail _ _ _ _ _ _ h := h
  read s T h := h.of_keepsResults (hostRead_keepsResults T s) (hostRead_inbuf T s ▸ id)
  write s _ v ho _ h := h.of_keepsResults (hostWrite_keepsResults _ v s) (hostWrite_inbuf_wf v ho)
  reset s level _ := memoryWf_resetBlock level s

/-- Settles O59: every store is a block within its memory, or a pixel of the grid. -/
theorem memoryFormIsInvariant : Obligations.MemoryFormIsInvariant :=
  fun _ _ h hstep => memoryWf_kept.step h hstep

/-! ### The reset state -/

theorem statusInv_reset : StatusInv State.reset := by
  constructor <;> simp [State.reset]

theorem sessionInv_reset : SessionInv State.reset :=
  sessionInv_of_empty (by decide) (by decide) rfl rfl rfl rfl

/-- Settles O60: nothing is pending and every length and session register is 0. -/
theorem invariantsHoldAtReset : Obligations.InvariantsHoldAtReset :=
  ⟨statusInv_reset, paletteInv_of_none rfl rfl, ⟨Or.inl rfl, Or.inl rfl⟩, sessionInv_reset, Memory.wf_reset⟩

end Sys2Proof.Machine
end


section
/-! SUPPORT. The host port register by register and window by window: what an idle read returns and what an idle write stores (R22, R25-R49, R54,
R61, R67). -/

namespace Sys2Proof.Machine

/-! ### The status word -/

theorem getLsbD_flagBit (b : Bool) {p k : Nat} (hk : k < 32) : (flagBit b p).getLsbD k = (decide (k = p) && b) := by
  rw [flagBit, BitVec.getLsbD_shiftLeft, BitVec.getLsbD_setWidth, BitVec.getLsbD_ofBool]
  rcases Nat.lt_trichotomy k p with h | rfl | h
  · simp [hk, h, h.ne]
  · simp [hk]
  · simp [h.ne', show k - p ≠ 0 by omega]

/-- The status word bit by bit: four flags and the session state above them (R22, R26-R30). -/
theorem getLsbD_statusWord (s : State) {k : Nat} (hk : k < 32) :
    (statusWord s).getLsbD k = (decide (k = 0) && s.busy || decide (k = 1) && s.done || decide (k = 2) && s.err ||
      decide (k = 3) && s.overrun || decide (4 ≤ k) && s.animState.code.getLsbD (k - 4)) := by
  have hcode : (s.animState.code.setWidth 32 <<< 4).getLsbD k = (decide (4 ≤ k) && s.animState.code.getLsbD (k - 4)) := by
    rw [BitVec.getLsbD_shiftLeft, BitVec.getLsbD_setWidth]
    by_cases h : 4 ≤ k
    · simp [hk, h, show k - 4 < 32 by omega]
    · simp [h, Nat.lt_of_not_le h]
  simp only [statusWord, BitVec.getLsbD_or, getLsbD_flagBit _ hk, hcode]

/-- The session state has two bits, so bits 31:6 of the status word are 0 (R31). -/
theorem getLsbD_statusWord_reserved (s : State) {k : Nat} (hlow : 6 ≤ k) : (statusWord s).getLsbD k = false := by
  by_cases hk : k < 32
  · rw [getLsbD_statusWord s hk, BitVec.getLsbD_of_ge s.animState.code (k - 4) (by omega)]
    simp [show k ≠ 0 by omega, show k ≠ 1 by omega, show k ≠ 2 by omega, show k ≠ 3 by omega]
  · exact BitVec.getLsbD_of_ge _ _ (by omega)

/-- Settles O10: each field is read off the word bit by bit. -/
theorem statusWordFields : Obligations.StatusWordFields := by
  intro s
  refine ⟨?_, ?_, ?_, ?_, ?_, ?_⟩
  · rw [getLsbD_statusWord s (by decide)]; simp
  · rw [getLsbD_statusWord s (by decide)]; simp
  · rw [getLsbD_statusWord s (by decide)]; simp
  · rw [getLsbD_statusWord s (by decide)]; simp
  · apply BitVec.eq_of_getLsbD_eq
    intro k hk
    rw [BitVec.getLsbD_extractLsb', getLsbD_statusWord_reserved s (by omega)]
    simp
  · have hcode : (statusWord s).extractLsb' 4 2 = s.animState.code := by
      apply BitVec.eq_of_getLsbD_eq
      intro k hk
      rw [BitVec.getLsbD_extractLsb', getLsbD_statusWord s (by omega)]
      simp [hk, show 4 + k ≠ 1 by omega, show 4 + k ≠ 2 by omega, show 4 + k ≠ 3 by omega]
    rw [hcode]
    cases s.animState <;> rfl

/-- Settles O11: the offset's target is `STATUS`, whose write is the masking of `OVERRUN`. -/
theorem statusWriteClearsOnlyOverrun : Obligations.StatusWriteClearsOnlyOverrun := by
  refine ⟨fun s => ?_, fun s v rest hr hb ht => ?_⟩
  · apply BitVec.eq_of_getLsbD_eq
    intro k _
    rw [BitVec.getLsbD_ushiftRight, getLsbD_statusWord_reserved s (by omega)]
    simp
  · have htarget : target (0x004 : BitVec 16).toNat = .reg .status := by decide
    rw [step_write hr (by decide) ht, htarget, hostWrite_idle (s := { s with turns := rest }) hb]
    rfl

/-! ### Reads -/

/-- What is read does not depend on whose turn comes next. -/
theorem readTarget_turns (s : State) (rest : List Turn) (T : Target) :
    readTarget { s with turns := rest } T = readTarget s T := by
  cases T with
  | reg r => cases r <;> rfl
  | palWord | idxWord | outWord | frameWord | inWord | unmapped => rfl

/-- An aligned 32-bit read while idle changes nothing but the word read (R66). -/
theorem step_read_idle {s : State} {o : BitVec 16} {rest : List Turn} (hr : s.rst = false) (hb : s.busy = false)
    (ho : o.toNat % 4 = 0) (ht : s.turns = .host ⟨32, o, .read⟩ :: rest) :
    step s = .next { s with turns := rest, rdata := readTarget s (target o.toNat) } := by
  rw [step_read hr ho ht, hostRead_idle (s := { s with turns := rest }) hb, readTarget_turns]

theorem toNat_flagBit_zero (b : Bool) : (flagBit b 0).toNat = b.toNat := by
  cases b <;> rfl

/-- Settles O12: the row of an offset names its register, whose read is its field zero-extended. -/
theorem registerReads : Obligations.RegisterReads := by
  intro s o v rest hrow hr hb ht
  obtain ⟨r, htarget, halign, hread⟩ :
      ∃ r, target o.toNat = .reg r ∧ o.toNat % 4 = 0 ∧ (readReg s r).toNat = v := by
    simp only [List.mem_cons, Prod.mk.injEq, List.not_mem_nil, or_false] at hrow
    rcases hrow with ⟨rfl, rfl⟩ | ⟨rfl, rfl⟩ | ⟨rfl, rfl⟩ | ⟨rfl, rfl⟩ | ⟨rfl, rfl⟩ | ⟨rfl, rfl⟩ | ⟨rfl, rfl⟩ | ⟨rfl, rfl⟩ |
      ⟨rfl, rfl⟩ | ⟨rfl, rfl⟩ | ⟨rfl, rfl⟩ | ⟨rfl, rfl⟩ | ⟨rfl, rfl⟩ | ⟨rfl, rfl⟩ | ⟨rfl, rfl⟩ | ⟨rfl, rfl⟩ | ⟨rfl, rfl⟩ |
      ⟨rfl, rfl⟩ | ⟨rfl, rfl⟩ | ⟨rfl, rfl⟩
    · exact ⟨.ctrl, rfl, rfl, toNat_flagBit_zero _⟩
    · exact ⟨.status, rfl, rfl, rfl⟩
    · exact ⟨.cmd, rfl, rfl, rfl⟩
    all_goals exact ⟨_, rfl, rfl, BitVec.toNat_setWidth_of_le (by decide)⟩
  refine ⟨_, step_read_idle hr hb halign ht, ?_⟩
  rw [htarget]
  exact hread

/-- The target of word `i` of each window (R22, R61). -/
theorem target_palWord {i : Nat} (hi : i < 1024) : target (0x1000 + 4 * i) = .palWord i := by
  rw [target_of_ge (by omega), windowTarget, if_pos (by omega), Nat.add_sub_cancel_left,
    Nat.mul_div_cancel_left i (by decide)]

@[inherit_doc target_palWord] theorem target_idxWord {i : Nat} (hi : i < 1024) : target (0x2000 + 4 * i) = .idxWord i := by
  rw [target_of_ge (by omega), windowTarget, if_neg (by omega), if_pos (by omega), Nat.add_sub_cancel_left,
    Nat.mul_div_cancel_left i (by decide)]

@[inherit_doc target_palWord] theorem target_outWord {k : Nat} (hk : k < 2048) :
    target (0x4000 + 4 * k) = .outWord (4 * k) := by
  rw [target_of_ge (by omega), windowTarget, if_neg (by omega), if_neg (by omega), if_pos (by omega),
    Nat.add_sub_cancel_left]

@[inherit_doc target_palWord] theorem target_frameWord {k : Nat} (hk : k < 2048) :
    target (0x6000 + 4 * k) = .frameWord (4 * k) := by
  rw [target_of_ge (by omega), windowTarget, if_neg (by omega), if_neg (by omega), if_neg (by omega), if_pos (by omega),
    Nat.add_sub_cancel_left]

@[inherit_doc target_palWord] theorem target_inWord {k : Nat} (hk : k < 1024) :
    target (0x8000 + 4 * k) = .inWord (4 * k) := by
  rw [target_of_ge (by omega), windowTarget, if_neg (by omega), if_neg (by omega), if_neg (by omega), if_neg (by omega),
    if_pos (by omega),
    Nat.add_sub_cancel_left]

/-- An idle read of the word `i` of a window from `base` on, at its offset as a number. -/
theorem step_read_window {s : State} {base i : Nat} {rest : List Turn} (hr : s.rst = false) (hb : s.busy = false)
    (hbase : base % 4 = 0) (hlt : base + 4 * i < 65536)
    (ht : s.turns = .host ⟨32, BitVec.ofNat 16 (base + 4 * i), .read⟩ :: rest) :
    step s = .next { s with turns := rest, rdata := readTarget s (target (base + 4 * i)) } := by
  have ho := toNat_windowOffset hlt
  rw [step_read_idle hr hb (by omega) ht, ho]

theorem palWindow_toNat (s : State) (i : Nat) :
    (palWindow s i).toNat = if i < s.palLen.toNat then (palEntry s i).toNat else 0 := by
  unfold palWindow
  split
  · exact BitVec.toNat_setWidth_of_le (by decide)
  · rfl

theorem idxWindow_toNat (s : State) (i : Nat) :
    (idxWindow s i).toNat = if s.palLen ≠ 0 then (idxEntry s i).toNat else 0 := by
  unfold idxWindow
  split
  · exact BitVec.toNat_setWidth_of_le (by decide)
  · rfl

/-- Settles O16: each window is read through its target, word by word or byte by byte. -/
theorem resultWindowReads : Obligations.ResultWindowReads := by
  intro s rest hr hb
  refine ⟨fun i hi ht => ?_, fun i hi ht => ?_, fun k hk ht => ?_, fun k hk ht => ?_⟩ <;>
    refine ⟨_, step_read_window hr hb (by decide) (by omega) ht, ?_⟩
  · rw [target_palWord hi]; exact palWindow_toNat s i
  · rw [target_idxWord hi]; exact idxWindow_toNat s i
  · rw [target_outWord hk]; exact windowWord_byte (outWindow s) (4 * k)
  · rw [target_frameWord hk]; exact windowWord_byte (frameWindow s) (4 * k)

/-! ### Writes -/

/-- An aligned 32-bit write while idle. -/
theorem step_write_idle {s : State} {o : BitVec 16} {v : Word} {rest : List Turn} (hr : s.rst = false) (hb : s.busy = false)
    (ho : o.toNat % 4 = 0) (ht : s.turns = .host ⟨32, o, .write v⟩ :: rest) :
    step s = .next (writeTarget v { s with turns := rest } (target o.toNat)) := by
  rw [step_write hr ho ht, hostWrite_idle (s := { s with turns := rest }) hb]

/-- The registers whose defined fields a write stores (R22: RW). -/
def IsOperand (r : HostReg) : Prop := r ∈ [.ctrl, .arg, .pixX, .pixY, .pixWdata, .inLen]

/-- A written register is the only one that reads differently; `CMD` is told apart because its write is an acceptance (R82). -/
theorem readReg_writeReg_of_ne (v : Word) (s : State) {r r' : HostReg} (hcmd : r ≠ .cmd) (hne : r' ≠ r) :
    readReg (writeReg v s r) r' = readReg s r' := by
  cases r with
  | cmd => exact absurd rfl hcmd
  | ctrl | status | arg | pixX | pixY | pixWdata | inLen =>
    cases r' <;> try rfl
    exact absurd rfl hne
  | _ => rfl

/-- A write to a register changes what no other target reads. -/
theorem readTarget_writeReg_of_ne (v : Word) (s : State) {r : HostReg} {T : Target} (hcmd : r ≠ .cmd) (hne : T ≠ .reg r) :
    readTarget (writeReg v s r) T = readTarget s T := by
  cases T with
  | reg r' => exact readReg_writeReg_of_ne v s hcmd (fun h => hne (congrArg Target.reg h))
  | palWord | idxWord | outWord | frameWord | inWord | unmapped => cases r <;> rfl

theorem flagBit_getLsbD_zero (v : Word) : flagBit (v.getLsbD 0) 0 = v &&& 0x1 := by
  have hbit : BitVec.ofBool (v.getLsbD 0) = v.extractLsb' 0 1 := by
    apply BitVec.eq_of_getLsbD_eq
    intro k hk
    obtain rfl : k = 0 := by omega
    simp
  rw [flagBit, BitVec.shiftLeft_zero, hbit]
  exact extract_low_field v (by decide) (by decide)

/-- The frame of a write to an RW register in its turn: the status and the port as before (R22, R67). -/
theorem IsOperand.frame {r : HostReg} (h : IsOperand r) (v : Word) (s : State) (rest : List Turn) :
    SameStatus s (writeReg v { s with turns := rest } r) ∧
      SamePort { s with turns := rest } (writeReg v { s with turns := rest } r) := by
  simp only [IsOperand, List.mem_cons, List.not_mem_nil, or_false] at h
  rcases h with rfl | rfl | rfl | rfl | rfl | rfl <;> exact ⟨by constructor <;> rfl, by constructor <;> rfl⟩

/-- Settles O13: the row of an offset names its register and the mask of its defined fields. -/
theorem operandRegistersHoldDefinedFields : Obligations.OperandRegistersHoldDefinedFields := by
  intro s o m v rest hrow hr hb ht
  obtain ⟨r, htarget, halign, hop, hmask⟩ : ∃ r, target o.toNat = .reg r ∧ o.toNat % 4 = 0 ∧ IsOperand r ∧
      ∀ u, readReg (writeReg v u r) r = v &&& m := by
    have h16 : (v.extractLsb' 0 16).setWidth 32 = v &&& 0xFFFF := extract_low_field v (by decide) (by decide)
    have h24 : (v.extractLsb' 0 24).setWidth 32 = v &&& 0xFFFFFF := extract_low_field v (by decide) (by decide)
    simp only [List.mem_cons, Prod.mk.injEq, List.not_mem_nil, or_false] at hrow
    rcases hrow with ⟨rfl, rfl⟩ | ⟨rfl, rfl⟩ | ⟨rfl, rfl⟩ | ⟨rfl, rfl⟩ | ⟨rfl, rfl⟩ | ⟨rfl, rfl⟩
    · exact ⟨.ctrl, rfl, rfl, by simp [IsOperand], fun _ => flagBit_getLsbD_zero v⟩
    · exact ⟨.arg, rfl, rfl, by simp [IsOperand], fun _ => h16⟩
    · exact ⟨.pixX, rfl, rfl, by simp [IsOperand], fun _ => h16⟩
    · exact ⟨.pixY, rfl, rfl, by simp [IsOperand], fun _ => h16⟩
    · exact ⟨.pixWdata, rfl, rfl, by simp [IsOperand], fun _ => h24⟩
    · exact ⟨.inLen, rfl, rfl, by simp [IsOperand], fun _ => h16⟩
  have hcmd : r ≠ .cmd := by rintro rfl; simp [IsOperand] at hop
  have hkeeps := (turns_keepsResults s rest).trans (writeReg_keepsResults r v _)
  obtain ⟨hstatus, hport⟩ := hop.frame v s rest
  refine ⟨_, step_write_idle hr hb halign ht, ?_⟩
  rw [htarget]
  refine ⟨hmask _, fun o' hne => ?_, hkeeps.grid, hkeeps.session, hstatus, hport⟩
  exact (readTarget_writeReg_of_ne v _ hcmd hne).trans (readTarget_turns s rest _)

theorem wordBytes_getElem (v : Word) {n : Nat} (hn : n < (wordBytes v).length) :
    (wordBytes v)[n] = v.extractLsb' (8 * n) 8 := by
  have hn' : n < 4 := hn
  interval_cases n <;> rfl

/-- The bytes a written word puts into the IN window (R61). -/
theorem inByte_storeWord (s : State) (base n : Nat) (v : Word) (hn : n < 4) :
    inByte { s with inbuf := storeBlock base (wordBytes v) s.inbuf } (base + n) = v.extractLsb' (8 * n) 8 := by
  have hlen : (wordBytes v).length = 4 := rfl
  rw [inByte_storeIn, dif_pos (by omega), wordBytes_getElem]
  rw [Nat.add_sub_cancel_left]

theorem inByte_storeWord_of_ne (s : State) (base j : Nat) (v : Word) (hj : j < base ∨ base + 4 ≤ j) :
    inByte { s with inbuf := storeBlock base (wordBytes v) s.inbuf } j = inByte s j := by
  have hlen : (wordBytes v).length = 4 := rfl
  rw [inByte_storeIn, dif_neg (by omega)]

/-- Settles O17: the word goes to the four bytes of its offset and is read back from them. -/
theorem inWindowWords : Obligations.InWindowWords := by
  refine ⟨fun s k v rest hk hr hb ht => ?_, fun s k rest hk hr hb ht => ?_⟩
  · have ho : (BitVec.ofNat 16 (0x8000 + 4 * k)).toNat = 0x8000 + 4 * k := toNat_windowOffset (by omega)
    have hstep := step_write_idle hr hb (by omega) ht
    rw [ho, target_inWord hk] at hstep
    have hbytes := inByte_storeWord { s with turns := rest } (4 * k) (v := v)
    have hkeeps := (turns_keepsResults s rest).trans (hostWrite_keepsResults (.inWord (4 * k)) v _)
    rw [hostWrite_idle (s := { s with turns := rest }) hb] at hkeeps
    refine ⟨_, hstep, hbytes, inByte_storeWord_of_ne _ (4 * k) (v := v), ?_, rfl, by constructor <;> rfl, rfl, hkeeps.grid,
      hkeeps.palette, hkeeps.frame, hkeeps.output, hkeeps.session, by constructor <;> rfl, by constructor <;> rfl⟩
    rw [target_inWord hk]
    exact word_eq_of_bytes fun n hn => (windowWord_byte _ _ n hn).trans (hbytes n hn)
  · refine ⟨_, step_read_window hr hb (by decide) (by omega) ht, ?_⟩
    rw [target_inWord hk]
    exact windowWord_byte (inByte s) (4 * k)

/-- Settles O49: a step with a host write is the write itself, whatever its offset, and that keeps the results. -/
theorem hostWritesKeepResults : Obligations.HostWritesKeepResults := by
  intro s t o v rest ht hstep
  have haccess : hostAccess ⟨32, o, .write v⟩ { s with turns := rest } = .next t := by rw [← hstep, step, takeTurn, ht]
  obtain ⟨-, -, -, ⟨hkind, -⟩ | ⟨v', -, rfl⟩⟩ := hostAccess_next haccess
  · cases hkind
  · have hkeeps := (turns_keepsResults s rest).trans (hostWrite_keepsResults (target o.toNat) v' _)
    exact ⟨hkeeps.pixRdata, hkeeps.grid, hkeeps.palette, hkeeps.frame, hkeeps.output, hkeeps.session⟩

/-! ### Commands -/

/-- No effect but that of SOFT_RESET reaches what the host owns (R54). -/
theorem complete_effect_keepsHostOwned {i : Instr} (hi : i ≠ .softReset) (s : State) :
    SameOperands s (complete (effect s i)) ∧ SameIn s (complete (effect s i)) ∧ SamePort s (complete (effect s i)) := by
  cases i with
  | softReset => exact absurd rfl hi
  | _ => exact ⟨by constructor <;> simp [effect], by constructor <;> simp [effect], by constructor <;> simp [effect]⟩

/-- A failure writes only the status and what it drops (R275, R276). -/
theorem failCommand_keepsHostOwned (c : Option Instr) (e : CmdError) (n : BitVec 16) (s : State) :
    SameOperands s (failCommand c e n s) ∧ SameIn s (failCommand c e n s) ∧ SamePort s (failCommand c e n s) :=
  ⟨by constructor <;> rfl, ⟨rfl, inByte_failCommand c e n s⟩, by constructor <;> rfl⟩

/-- Settles O48: a command completes with its effect or fails. -/
theorem commandsKeepHostOwnedState : Obligations.CommandsKeepHostOwnedState := by
  intro i s t hi h
  rcases exec_cases i s with ⟨-, hexec⟩ | ⟨e, n, -, hexec⟩ <;> cases hexec.symm.trans h
  · exact complete_effect_keepsHostOwned hi s
  · exact failCommand_keepsHostOwned (some i) e n s

end Sys2Proof.Machine
end


section
/-! SUPPORT. What accesses leave alone: reads, dropped writes, unmapped offsets and refused accesses (R62, R64, R66, R67, R310). -/

namespace Sys2Proof.Machine

/-! ### Reads -/

/-- A host read touches only the model's own fields: the word read and the count of free values drawn (R66, R311). -/
theorem hostRead_eq (T : Target) (s : State) : ∃ w n, hostRead T s = { s with rdata := w, draws := n } := by
  unfold hostRead
  split
  · exact ⟨_, _, rfl⟩
  · exact ⟨_, s.draws, rfl⟩

/-- Nothing of the block shows which turns are left, which word was read last or how many free values were drawn. -/
theorem sameData_of_port (s : State) (rest : List Turn) (w : Word) (n : Nat) :
    SameData s { s with turns := rest, rdata := w, draws := n } where
  operands := by constructor <;> rfl
  pixRdata := rfl
  grid := pixel_congr rfl rfl
  palette := ⟨rfl, rfl, palEntry_congr rfl rfl, idxEntry_congr rfl rfl⟩
  frame := ⟨rfl, frameByte_congr rfl rfl⟩
  out := ⟨rfl, outByte_congr rfl rfl⟩
  input := ⟨rfl, inByte_congr rfl rfl⟩
  session := ⟨rfl, rfl, rfl, rfl, rfl, rfl, animByte_congr rfl rfl⟩

/-- What is read depends neither on the word read before nor on the turns left. -/
theorem readTarget_after_read (s : State) (rest : List Turn) (w : Word) (T : Target) :
    readTarget { s with turns := rest, rdata := w } T = readTarget s T := by
  cases T with
  | reg r => cases r <;> rfl
  | palWord | idxWord | outWord | frameWord | inWord | unmapped => rfl

/-- Settles O9: a read writes only what no later read depends on. -/
theorem readsHaveNoSideEffect : Obligations.ReadsHaveNoSideEffect := by
  refine ⟨fun s o rest hr ho ht => ?_, fun s o rest hr hb ho ht => ?_⟩
  · obtain ⟨w, n, hread⟩ := hostRead_eq (target o.toNat) { s with turns := rest }
    have hstep := step_read hr ho ht
    rw [hread] at hstep
    exact ⟨_, hstep, sameData_of_port s rest w n, by constructor <;> rfl, rfl, rfl, rfl⟩
  · refine ⟨_, _, step_read_idle hr hb ho ht, step_read_idle hr hb ho rfl, ?_⟩
    exact readTarget_after_read s _ _ _

/-! ### Dropped writes -/

/-- A register that is neither RW, `STATUS` nor `CMD` drops a write (R67). -/
theorem writeReg_of_readOnly (v : Word) (s : State) {r : HostReg} (hop : ¬ IsOperand r) (hstatus : r ≠ .status)
    (hcmd : r ≠ .cmd) : writeReg v s r = s := by
  cases r with
  | status => exact absurd rfl hstatus
  | cmd => exact absurd rfl hcmd
  | ctrl | arg | pixX | pixY | pixWdata | inLen => exact absurd (by simp [IsOperand]) hop
  | _ => rfl

/-- The registers at the other offsets of the map are the RO registers (R22). -/
theorem registerMap_readOnly : ∀ row ∈ registerMap, row.1 ∉ [0x000, 0x004, 0x008, 0x00C, 0x018, 0x01C, 0x020, 0x038] →
    ¬ IsOperand row.2 ∧ row.2 ≠ .status ∧ row.2 ≠ .cmd := by
  unfold IsOperand
  decide

/-- Settles O14: the offset's target is an RO register, a result window or nothing, and each drops the write. -/
theorem otherWritesAreDropped : Obligations.OtherWritesAreDropped := by
  intro s o v rest hr hb ho hreg hin ht
  rw [step_write_idle hr hb ho ht]
  cases htarget : target o.toNat with
  | reg r =>
    obtain ⟨hop, hstatus, hcmd⟩ := registerMap_readOnly _ (target_eq_reg htarget) hreg
    rw [writeTarget, writeReg_of_readOnly v _ hop hstatus hcmd]
  | inWord j =>
    obtain ⟨hlo, hhi, -⟩ := target_eq_inWord htarget
    exact absurd ⟨hlo, hhi⟩ hin
  | palWord | idxWord | outWord | frameWord | unmapped => rfl

/-! ### Unmapped offsets -/

/-- The three unmapped ranges of R64 lie above the registers and outside every window. -/
theorem target_of_unmapped {o : Nat} (h : (0x050 ≤ o ∧ o < 0x1000) ∨ (0x3000 ≤ o ∧ o < 0x4000) ∨ 0x9000 ≤ o) :
    target o = .unmapped := by
  rw [target_of_ge (by omega), windowTarget, if_neg (by omega), if_neg (by omega), if_neg (by omega), if_neg (by omega),
    if_neg (by omega)]

/-- An aligned 32-bit write while busy only sets `OVERRUN`, whatever the offset (R310). -/
theorem step_write_busy {s : State} {o : BitVec 16} {v : Word} {rest : List Turn} (hr : s.rst = false) (hb : s.busy = true)
    (ho : o.toNat % 4 = 0) (ht : s.turns = .host ⟨32, o, .write v⟩ :: rest) :
    step s = .next { s with turns := rest, overrun := true } := by
  rw [step_write hr ho ht, hostWrite, if_pos hb]

/-- Settles O15: no target, so nothing to read or to write; while busy the target does not matter. -/
theorem unmappedOffsets : Obligations.UnmappedOffsets := by
  intro s o v rest hr ho hrange
  have htarget : target o.toNat = .unmapped := target_of_unmapped (by omega)
  refine ⟨fun hb ht => ?_, fun hb ht => ?_, fun hb ht => step_write_busy hr hb ho ht⟩
  · rw [step_read_idle hr hb ho ht, htarget, readTarget]
  · rw [step_write_idle hr hb ho ht, htarget, writeTarget]

/-! ### Refused accesses -/

/-- Only an aligned 32-bit access has a step (R62). -/
theorem hostAccess_refused {a : Access} (h : a.bits ≠ 32 ∨ a.offset.toNat % 4 ≠ 0) (s : State) :
    ∃ r, hostAccess a s = .refused r := by
  unfold hostAccess
  split
  · exact ⟨_, rfl⟩
  · by_cases hbits : a.bits = 32
    · have halign := h.resolve_left (not_not.mpr hbits)
      rw [if_neg (not_not.mpr hbits), if_pos halign]
      exact ⟨_, rfl⟩
    · rw [if_pos hbits]
      exact ⟨_, rfl⟩

/-- Settles O18: with a host access next the step is the access, in reset or not. -/
theorem otherAccessesAreRefused : Obligations.OtherAccessesAreRefused := by
  intro s a rest ht h
  rw [step, takeTurn, ht]
  exact hostAccess_refused h _

end Sys2Proof.Machine
end


section
/-! SUPPORT. Command words: which words select a command, what the engine's turn does with a pending word, and what acceptance
writes (R80-R89, R275, R310, R321). -/

namespace Sys2Proof.Machine

/-! ### The opcode map -/

/-- The map holds each command once, at its opcode (R85). -/
theorem mem_opcodeMap_iff {b : Byte} {i : Instr} : (b, i) ∈ opcodeMap ↔ b = opcode i := by
  constructor
  · have hrows : ∀ row ∈ opcodeMap, row.1 = opcode row.2 := by decide
    exact hrows (b, i)
  · rintro rfl
    cases i <;> decide

theorem lookup_opcodeMap_iff {b : Byte} {i : Instr} : opcodeMap.lookup b = some i ↔ b = opcode i := by
  constructor
  · intro h
    obtain ⟨before, after, hmap, -⟩ := List.lookup_eq_some_iff.mp h
    exact mem_opcodeMap_iff.mp (by simp [hmap])
  · rintro rfl
    cases i <;> rfl

/-- The opcode values of R85, as numbers. -/
def assignedOpcodes : List Nat := opcodeMap.map (fun row => row.1.toNat)

theorem assignedOpcodes_eq : assignedOpcodes =
    [0x00, 0x01, 0x02, 0x03, 0x04, 0x10, 0x11, 0x20, 0x21, 0x22, 0x30, 0x31, 0x32, 0x33] := by decide

theorem mem_assignedOpcodes_iff {b : Byte} : b.toNat ∈ assignedOpcodes ↔ ∃ i, b = opcode i := by
  simp only [assignedOpcodes, List.mem_map]
  constructor
  · rintro ⟨⟨b', i⟩, hrow, hb⟩
    exact ⟨i, (BitVec.eq_of_toNat_eq hb).symm.trans (mem_opcodeMap_iff.mp hrow)⟩
  · rintro ⟨i, hb⟩
    exact ⟨(b, i), mem_opcodeMap_iff.mpr hb, rfl⟩

/-! ### The fields of a command word -/

theorem toNat_opcodeField (w : Word) : (opcodeField w).toNat = w.toNat % 256 := by
  simp [opcodeField, BitVec.extractLsb'_toNat]

theorem toNat_reservedField (w : Word) : (reservedField w).toNat = w.toNat / 256 := by
  have hw := w.isLt
  simp only [reservedField, BitVec.extractLsb'_toNat, Nat.shiftRight_eq_div_pow]
  omega

theorem reservedField_eq_zero_iff {w : Word} : reservedField w = 0 ↔ w.toNat / 256 = 0 := by
  rw [← toNat_reservedField, ← BitVec.toNat_inj]; rfl

/-- A command's word is its opcode below zero reserved bits (R80, R96). -/
theorem eq_encode_iff {w : Word} {i : Instr} : w = encode i ↔ reservedField w = 0 ∧ opcodeField w = opcode i := by
  have hop := (opcode i).isLt
  rw [reservedField_eq_zero_iff, encode, ← BitVec.toNat_inj, ← BitVec.toNat_inj, toNat_opcodeField,
    BitVec.toNat_setWidth_of_le (by decide)]
  omega

/-! ### Decoding -/

theorem decodeWord_of_reserved {w : Word} (h : reservedField w ≠ 0) : decodeWord w = .error .reservedBits := if_pos h

/-- With the reserved bits clear the opcode map decides (R84). -/
theorem decodeWord_eq_ok_iff {w : Word} {i : Instr} :
    decodeWord w = .ok i ↔ reservedField w = 0 ∧ opcodeField w = opcode i := by
  by_cases hr : reservedField w = 0
  · rw [decodeWord, if_neg (not_not.mpr hr), ← lookup_opcodeMap_iff]
    cases opcodeMap.lookup (opcodeField w) <;> simp [hr]
  · exact iff_of_false (by simp [decodeWord_of_reserved hr]) (fun h => hr h.1)

theorem decodeWord_of_unassigned {w : Word} (hr : reservedField w = 0) (ho : w.toNat % 256 ∉ assignedOpcodes) :
    decodeWord w = .error .unassignedOpcode := by
  rw [← toNat_opcodeField, mem_assignedOpcodes_iff] at ho
  rw [decodeWord, if_neg (not_not.mpr hr)]
  cases hl : opcodeMap.lookup (opcodeField w) with
  | none => rfl
  | some i => exact absurd ⟨i, lookup_opcodeMap_iff.mp hl⟩ ho

/-- The ranges of R89 are the complement of the opcode map. -/
theorem opcodeAssigned_iff {w : Word} : opcodeAssigned w = true ↔ w.toNat % 256 ∈ assignedOpcodes := by
  have hlt := Nat.mod_lt w.toNat (show 256 > 0 by decide)
  have hfield : (w.extractLsb' 0 8).toNat = w.toNat % 256 := toNat_opcodeField w
  simp only [opcodeAssigned, hfield, assignedOpcodes_eq, List.mem_cons, List.not_mem_nil, or_false, Bool.not_eq_true',
    Bool.or_eq_false_iff, Bool.and_eq_false_iff, decide_eq_false_iff_not]
  omega

theorem commandWordWellFormed_iff {w : Word} :
    commandWordWellFormed w = true ↔ reservedField w = 0 ∧ w.toNat % 256 ∈ assignedOpcodes := by
  rw [commandWordWellFormed, Bool.and_eq_true, opcodeAssigned_iff, reservedClear, beq_iff_eq]
  rfl

/-- A word decodes to a command exactly when it is the command's word. -/
theorem decodeWord_eq_ok_iff_eq_encode {w : Word} {i : Instr} : decodeWord w = .ok i ↔ w = encode i :=
  decodeWord_eq_ok_iff.trans eq_encode_iff.symm

/-- Settles O2: decoding and the well-formedness check both ask for zero reserved bits and an opcode of the map. -/
theorem decodeAndEncodeAgree : Obligations.DecodeAndEncodeAgree := by
  refine ⟨fun i w => decodeWord_eq_ok_iff_eq_encode, fun w => ?_⟩
  simp only [commandWordWellFormed_iff, decodeWord_eq_ok_iff, ← toNat_opcodeField, mem_assignedOpcodes_iff, exists_and_left]

/-- Settles O1: each row's word is its command's word, and every other opcode value is unassigned. -/
theorem opcodeMapDecodes : Obligations.OpcodeMapDecodes := by
  constructor
  · simp only [decodeWord_eq_ok_iff_eq_encode]
    decide
  · intro o ho hnot
    have hword : (BitVec.ofNat 32 o).toNat = o := by rw [BitVec.toNat_ofNat]; omega
    apply decodeWord_of_unassigned
    · rw [reservedField_eq_zero_iff, hword]; omega
    · rwa [hword, Nat.mod_eq_of_lt ho, assignedOpcodes_eq]

/-- An illegal word (R84, R89) does not decode. -/
theorem decodeWord_of_illegal {w : Word} (h : w.toNat / 256 ≠ 0 ∨ w.toNat % 256 ∉ assignedOpcodes) :
    ∃ x, decodeWord w = .error x := by
  by_cases hr : reservedField w = 0
  · exact ⟨_, decodeWord_of_unassigned hr (h.resolve_left (not_not.mpr (reservedField_eq_zero_iff.mp hr)))⟩
  · exact ⟨_, decodeWord_of_reserved hr⟩

/-! ### The engine's turn -/

theorem step_of_no_turns {s : State} (ht : s.turns = []) : step s = engineTurn s := by
  rw [step, takeTurn, ht]

theorem step_of_engine {s : State} {rest : List Turn} (ht : s.turns = .engine :: rest) :
    step s = engineTurn { s with turns := rest } := by
  rw [step, takeTurn, ht]

theorem engineTurn_of_idle {s : State} (hp : s.pending = none) : engineTurn s = .next s := by
  simp [engineTurn, hp]

theorem engineTurn_of_command {s : State} {w : Word} {i : Instr} (hr : s.rst = false) (hp : s.pending = some w)
    (hd : decodeWord w = .ok i) : engineTurn s = exec i s := by
  simp [engineTurn, hr, hp, hd]

theorem engineTurn_of_illegal {s : State} {w : Word} {x : DecodeError} (hr : s.rst = false) (hp : s.pending = some w)
    (hd : decodeWord w = .error x) : engineTurn s = .next (failCommand none .illegalCommand 0 s) := by
  simp [engineTurn, hr, hp, hd]

/-- Settles O4: the engine's turn, listed or not, decodes the pending word. -/
theorem stepRunsPendingCommand : Obligations.StepRunsPendingCommand := by
  intro s w i hr hp hd
  refine ⟨fun ht => ?_, fun rest ht => ?_⟩
  · rw [step_of_no_turns ht]; exact engineTurn_of_command hr hp hd
  · rw [step_of_engine ht]; exact engineTurn_of_command hr hp hd

/-- Settles O5: the engine's turn, listed or not, finds nothing pending. -/
theorem engineIdlesWithoutCommand : Obligations.EngineIdlesWithoutCommand := by
  intro s hp
  refine ⟨fun ht => ?_, fun rest ht => ?_⟩
  · rw [step_of_no_turns ht]; exact engineTurn_of_idle hp
  · rw [step_of_engine ht]; exact engineTurn_of_idle hp

/-- Where nothing was in error, a pending word, whatever it is, completes: a command succeeds or fails, another word fails (R83, R84). -/
theorem engineTurn_completes {s : State} {w : Word} (hr : s.rst = false) (hp : s.pending = some w) (herr : s.err = false) :
    ∃ t, engineTurn s = .next t ∧ t.busy = false ∧ t.pending = none ∧ (t.done = true ↔ t.err = false) := by
  cases hd : decodeWord w with
  | error x => exact ⟨_, engineTurn_of_illegal hr hp hd, rfl, rfl, by simp⟩
  | ok i =>
    rw [engineTurn_of_command hr hp hd]
    rcases exec_cases i s with ⟨-, hexec⟩ | ⟨e, n, -, hexec⟩
    · obtain ⟨heffect, -⟩ := effect_status i s
      exact ⟨_, hexec, rfl, rfl, by simp [heffect, herr]⟩
    · exact ⟨_, hexec, rfl, rfl, by simp⟩

/-- Settles O52: the step is the engine's turn. -/
theorem pendingCommandCompletes : Obligations.PendingCommandCompletes := by
  intro s w hr ht hp _ herr
  rcases ht with ht | ⟨rest, ht⟩
  · rw [step_of_no_turns ht]; exact engineTurn_completes hr hp herr
  · rw [step_of_engine ht]; exact engineTurn_completes (s := { s with turns := rest }) hr hp herr

/-! ### What an illegal word and an acceptance leave alone -/

/-- Registers and memories as before: the results, the operands and `IN`. -/
theorem KeepsResults.data {s t : State} (h : KeepsResults s t) (hop : SameOperands s t) (hlen : t.inLen = s.inLen)
    (hin : t.inbuf = s.inbuf) : SameData s t :=
  ⟨hop, h.pixRdata, h.grid, h.palette, h.frame, h.output, ⟨hlen, inByte_congr hin h.powerOns⟩, h.session⟩

/-- A word that is no command is of no class, so its failure drops nothing (R84, R276). -/
theorem failIllegal_keepsResults (s : State) : KeepsResults s (failCommand none .illegalCommand 0 s) := by
  constructor <;> rfl

theorem failIllegal_sameData (s : State) (rest : List Turn) :
    SameData s (failCommand none .illegalCommand 0 { s with turns := rest }) :=
  ((turns_keepsResults s rest).trans (failIllegal_keepsResults _)).data (by constructor <;> rfl) rfl rfl

theorem failIllegal_samePort (s : State) : SamePort s (failCommand none .illegalCommand 0 s) := by
  constructor <;> rfl

theorem failIllegal_failed (s : State) : Failed .illegalCommand 0 (failCommand none .illegalCommand 0 s) := by
  constructor <;> rfl

/-- Settles O3: the word does not decode, and the failure of no command keeps all but the status. -/
theorem illegalWordCompletesWithIllegalCommand : Obligations.IllegalWordCompletesWithIllegalCommand := by
  intro s w hr hp hillegal
  rw [← assignedOpcodes_eq] at hillegal
  obtain ⟨x, hd⟩ := decodeWord_of_illegal hillegal
  refine ⟨fun ht => ?_, fun rest ht => ?_⟩
  · rw [step_of_no_turns ht]
    exact ⟨_, engineTurn_of_illegal hr hp hd, failIllegal_failed s, failIllegal_sameData s s.turns, failIllegal_samePort s⟩
  · rw [step_of_engine ht]
    exact ⟨_, engineTurn_of_illegal hr hp hd, failIllegal_failed _, failIllegal_sameData s rest, failIllegal_samePort _⟩

theorem accept_keepsResults (w : Word) (s : State) : KeepsResults s (accept w s) := by
  constructor <;> rfl

theorem accept_sameData (w : Word) (s : State) (rest : List Turn) : SameData s (accept w { s with turns := rest }) :=
  ((turns_keepsResults s rest).trans (accept_keepsResults w _)).data (by constructor <;> rfl) rfl rfl

/-- Settles O6: an idle write at the offset of `CMD` is the acceptance. -/
theorem acceptanceOfCommandWord : Obligations.AcceptanceOfCommandWord := by
  intro s w rest hr hb ht
  have htarget : target (0x008 : BitVec 16).toNat = .reg .cmd := by decide
  have hstep := step_write_idle hr hb (by decide) ht
  rw [htarget] at hstep
  exact ⟨_, hstep, rfl, rfl, rfl, rfl, rfl, rfl, accept_sameData w s rest, by constructor <;> rfl⟩

end Sys2Proof.Machine
end


section
/-! SUPPORT. Which results each class of commands writes (R86, R219, R276). -/

namespace Sys2Proof.Machine

/-- A command that answers a next state has completed with its effect or failed. -/
theorem exec_next {i : Instr} {s t : State} (h : exec i s = .next t) :
    t = complete (effect s i) ∨ ∃ e n, t = failCommand (some i) e n s := by
  rcases exec_cases i s with ⟨-, hexec⟩ | ⟨e, n, -, hexec⟩ <;> cases hexec.symm.trans h
  · exact Or.inl rfl
  · exact Or.inr ⟨e, n, rfl⟩

/-! The classes of R86 as lists of commands. -/

theorem isMessage_eq_false_iff {i : Instr} :
    isMessage i = false ↔ i ∉ [.msgRaw, .msgBrightness, .msgStaticImage, .animNextChunk] := by
  cases i <;> decide

theorem isPalette_eq_false_iff {i : Instr} :
    isPalette i = false ↔ i ∉ [.paletteEncode, .frameBuild, .msgStaticImage, .animAddFrame] := by
  cases i <;> decide

theorem isFrameBuilding_eq_false_iff {i : Instr} :
    isFrameBuilding i = false ↔ i ∉ [.frameBuild, .msgStaticImage, .animAddFrame] := by
  cases i <;> decide

section
variable {i : Instr} {s t : State} (hreset : i ≠ .softReset) (h : exec i s = .next t)
include hreset h

/-- Only message commands store a message or, failing, drop one (R44, R276 (a)). -/
theorem exec_sameOut (hi : i ∉ [.msgRaw, .msgBrightness, .msgStaticImage, .animNextChunk]) : SameOut s t := by
  obtain rfl | ⟨e, n, rfl⟩ := exec_next h
  · cases i with
    | softReset => exact absurd rfl hreset
    | msgRaw | msgBrightness | msgStaticImage | animNextChunk => simp at hi
    | _ => constructor <;> simp [effect]
  · have hdrop : dropsMessage (some i) = false := isMessage_eq_false_iff.mpr hi
    exact ⟨by simp [hdrop], outByte_failCommand _ e n s⟩

/-- Only palette commands store a palette or, failing, drop one (R39, R276 (b)). -/
theorem exec_samePalette (hi : i ∉ [.paletteEncode, .frameBuild, .msgStaticImage, .animAddFrame]) : SamePalette s t := by
  obtain rfl | ⟨e, n, rfl⟩ := exec_next h
  · cases i with
    | softReset => exact absurd rfl hreset
    | paletteEncode | frameBuild | msgStaticImage | animAddFrame => simp at hi
    | _ => constructor <;> simp [effect]
  · have hne : i ≠ .animAddFrame := fun hadd => hi (by simp [hadd])
    have hdrop : dropsPalette (some i) e = false := by simp [dropsPalette, isPalette_eq_false_iff.mpr hi, hne]
    exact ⟨by simp [hdrop], by simp [hdrop], palEntry_failCommand _ e n s, idxEntry_failCommand _ e n s⟩

/-- Only frame-building commands store a frame or, failing, drop one (R43, R276 (b)). -/
theorem exec_sameFrame (hi : i ∉ [.frameBuild, .msgStaticImage, .animAddFrame]) : SameFrame s t := by
  obtain rfl | ⟨e, n, rfl⟩ := exec_next h
  · cases i with
    | softReset => exact absurd rfl hreset
    | frameBuild | msgStaticImage | animAddFrame => simp at hi
    | _ => constructor <;> simp [effect]
  · have hdrop : dropsFrame (some i) e = false := by simp [dropsFrame, isFrameBuilding_eq_false_iff.mpr hi]
    exact ⟨by simp [hdrop], frameByte_failCommand _ e n s⟩

/-- Only session commands write the session or, failing, abort it (R219, R276 (c)). -/
theorem exec_sameSession (hi : i ∉ [.animBegin, .animAddFrame, .animEnd, .animNextChunk]) : SameSession s t := by
  obtain rfl | ⟨e, n, rfl⟩ := exec_next h
  · cases i with
    | softReset => exact absurd rfl hreset
    | animBegin | animAddFrame | animEnd | animNextChunk => simp at hi
    | _ => constructor <;> simp [effect]
  · have hne : i ≠ .animAddFrame := fun hadd => hi (by simp [hadd])
    have habort : abortsSession (some i) e = false := by simp [abortsSession, hne]
    exact ⟨by simp [habort], by simp [habort], by simp [habort], rfl, by simp [habort], by simp [habort],
      animByte_failCommand _ e n s⟩

/-- Only GRID_CLEAR and PIX_SET write the grid (R40). -/
theorem exec_sameGrid (hi : i ∉ [.gridClear, .pixSet]) : SameGrid s t := by
  obtain rfl | ⟨e, n, rfl⟩ := exec_next h
  · cases i with
    | softReset => exact absurd rfl hreset
    | gridClear | pixSet => simp at hi
    | _ => exact fun a => by simp [effect]
  · exact pixel_failCommand _ e n s

/-- Only PIX_GET and PIX_SET write `PIX_RDATA` (R38). -/
theorem exec_pixRdata (hi : i ∉ [.pixGet, .pixSet]) : t.pixRdata = s.pixRdata := by
  obtain rfl | ⟨e, n, rfl⟩ := exec_next h
  · cases i with
    | softReset => exact absurd rfl hreset
    | pixGet | pixSet => simp at hi
    | _ => simp [effect]
  · rfl

end

/-- Settles O50: each part asks only which effects and which failures write it. -/
theorem commandsWriteOnlyTheirClass : Obligations.CommandsWriteOnlyTheirClass :=
  fun _ _ _ hreset h => ⟨exec_sameOut hreset h, exec_samePalette hreset h, exec_sameFrame hreset h,
    exec_sameSession hreset h, exec_sameGrid hreset h, exec_pixRdata hreset h⟩

end Sys2Proof.Machine
end


section
/-! SUPPORT. The bytes of a frame record and of a message, field by field (R90, R91, R171, R191). -/

namespace Sys2Proof.Machine

/-! ### The frame record -/

/-- After the eight header bytes come the palette's and the packed indices (R91). -/
theorem frameRecord_getElem?_body (tc : BitVec 16) (r : Encoded) (j : Nat) :
    (frameRecord tc r)[8 + j]? = (r.palette.flatMap rgb ++ pack r.indices (bw r.palette.length))[j]? := by
  rw [frameRecord_eq, Nat.add_comm]
  simp only [List.getElem?_cons_succ]

/-- Entry `i` of the palette lies at `8 + 3*i` (R91). -/
theorem frameRecord_palette (tc : BitVec 16) {r : Encoded} {i : Nat} {k : Key} (h : r.palette[i]? = some k) :
    (frameRecord tc r)[8 + 3 * i]? = some (BitVec.ofNat 8 (k.toNat / 65536)) ∧
      (frameRecord tc r)[8 + 3 * i + 1]? = some (BitVec.ofNat 8 (k.toNat / 256)) ∧
      (frameRecord tc r)[8 + 3 * i + 2]? = some (BitVec.ofNat 8 k.toNat) := by
  have hi : i < r.palette.length := (List.getElem?_eq_some_iff.mp h).1
  have hlen := rgb_flatMap_length r.palette
  simp only [Nat.add_assoc, frameRecord_getElem?_body]
  rw [List.getElem?_append_left (by omega), List.getElem?_append_left (by omega), List.getElem?_append_left (by omega)]
  exact rgb_flatMap_getElem? r.palette i k h

/-- Behind the palette lie the packed indices (R91). -/
theorem frameRecord_drop (tc : BitVec 16) (r : Encoded) :
    (frameRecord tc r).drop (8 + 3 * r.palette.length) = pack r.indices (bw r.palette.length) := by
  rw [frameRecord_eq, ← rgb_flatMap_length, Nat.add_comm]
  simp only [List.drop_succ_cons, List.drop_left]

/-- The header bytes as numbers (R91). -/
theorem frameRecord_eq_bytes (tc : BitVec 16) (r : Encoded) : frameRecord tc r =
    0xAA :: BitVec.ofNat 8 (frameSize r.palette.length) :: BitVec.ofNat 8 (frameSize r.palette.length / 256) ::
      BitVec.ofNat 8 tc.toNat :: BitVec.ofNat 8 (tc.toNat / 256) :: 0x03 ::
      BitVec.ofNat 8 r.palette.length :: BitVec.ofNat 8 (r.palette.length / 256) ::
      (r.palette.flatMap rgb ++ pack r.indices (bw r.palette.length)) := by
  rw [frameRecord_eq, lo_ofNat, hi_ofNat, lo_ofNat, hi_ofNat, lo_eq, hi_eq]

/-- Settles O33: the record's length is its size field, and the header bytes are read off the record. -/
theorem frameRecordLayout : Obligations.FrameRecordLayout := by
  rintro s tc r f rfl rfl
  obtain ⟨hpos, hle⟩ : 1 ≤ (encodedGrid s).palette.length ∧ (encodedGrid s).palette.length ≤ 1024 := grid_palette_length s
  obtain ⟨hlow, hhigh⟩ := frameSize_bounds hpos hle
  have hlen : (frameRecord tc (encodedGrid s)).length = frameSize (encodedGrid s).palette.length :=
    frameRecord_length tc (grid_indices_length s) hle
  rw [hlen]
  refine ⟨rfl, hlow, hhigh, ?_, ?_, ?_, ?_, ?_, ?_, ?_, ?_, fun i k h => frameRecord_palette tc h, frameRecord_drop tc _⟩
  all_goals
    rw [frameRecord_eq_bytes]
    rfl

/-! ### The message -/

/-- The message with its envelope written out byte by byte (R90). -/
theorem message_eq (p : List Byte) : message p =
    0x01 :: lo (lengthField p) :: hi (lengthField p) ::
      (p ++ [lo (checksum (lengthField p) p), hi (checksum (lengthField p) p), 0x02]) := by
  simp [message, u16le]

/-- After the start byte and the length field come the payload, the checksum and the end byte (R90). -/
theorem message_getElem?_tail (p : List Byte) (j : Nat) : (message p)[3 + j]? =
    (p ++ [lo (checksum (lengthField p) p), hi (checksum (lengthField p) p), 0x02])[j]? := by
  rw [message_eq, Nat.add_comm]
  simp only [List.getElem?_cons_succ]

/-- The checksum of a payload whose length field does not wrap (R190). -/
theorem checksum_lengthField {p : List Byte} (h : p.length ≤ 65533) : checksum (lengthField p) p =
    BitVec.ofNat 16 (((p.length + 2) % 256 + (p.length + 2) / 256 + (p.map (fun b => b.toNat)).sum) % 65536) := by
  have hhi : (p.length + 2) / 256 % 256 = (p.length + 2) / 256 := Nat.mod_eq_of_lt (by omega)
  apply BitVec.eq_of_toNat_eq
  simp [checksum, lengthField, lo_ofNat, hi_ofNat, byteSum, hhi]

/-- Settles O36: the envelope's bytes lie before and behind the payload. -/
theorem messageEnvelope : Obligations.MessageEnvelope := by
  rintro p m hp rfl
  refine ⟨message_length p, ?_, ?_, ?_, fun i hi => ?_, ⟨_, rfl, ?_, ?_⟩, ?_⟩
  · rw [message_eq]; rfl
  · rw [message_eq, ← lo_ofNat]; rfl
  · rw [message_eq, ← hi_ofNat]; rfl
  · rw [message_getElem?_tail, List.getElem?_append_left hi]
  · rw [message_getElem?_tail, List.getElem?_append_right le_rfl, Nat.sub_self, ← lo_ofNat, ← checksum_lengthField hp]; rfl
  · rw [show 4 + p.length = 3 + (p.length + 1) by omega, message_getElem?_tail, List.getElem?_append_right (by omega),
      Nat.add_sub_cancel_left, ← hi_ofNat, ← checksum_lengthField hp]
    rfl
  · rw [show 5 + p.length = 3 + (p.length + 2) by omega, message_getElem?_tail, List.getElem?_append_right (by omega),
      Nat.add_sub_cancel_left]
    rfl

end Sys2Proof.Machine
end


section
/-! SUPPORT. The pixel grid commands, in and out of bounds (R110-R113). -/

namespace Sys2Proof.Machine

/-! ### How a command ends -/

/-- Execution writes neither the error nor its information, but for SOFT_RESET (R83). -/
theorem complete_effect_succeeded {i : Instr} (hi : i ≠ .softReset) (s : State) : Succeeded s (complete (effect s i)) := by
  obtain ⟨herr, hcode, hinfo, -⟩ := effect_status i s
  rw [if_neg hi] at herr hcode hinfo
  exact ⟨rfl, rfl, rfl, herr, hcode, hinfo⟩

theorem failCommand_failed (c : Option Instr) (e : CmdError) (n : BitVec 16) (s : State) :
    Failed e n.toNat (failCommand c e n s) := by
  constructor <;> rfl

/-! ### The cells -/

@[simp] theorem pixel_clearGrid (s : State) (a : Nat) : pixel (clearGrid s) a = 0 := rfl

/-- The addressed cell takes the operand's colour, every other cell stays (R113). -/
@[simp] theorem pixel_writePixel (s : State) (a : Nat) :
    pixel (writePixel s) a = if a = operandCell s then operandColour s else pixel s a :=
  pixel_storePixel s (operandCell s) a (operandColour s)

@[simp] theorem operandCell_latchPixel (s : State) : operandCell (latchPixel s) = operandCell s := rfl

@[simp] theorem operandColour_latchPixel (s : State) : operandColour (latchPixel s) = operandColour s := rfl

theorem operandCell_eq (s : State) : operandCell s = s.pixY.toNat * 32 + s.pixX.toNat := rfl

/-! ### What the grid commands leave alone -/

/-- Outside `PIXMEM` and `PIX_RDATA` a pixel grid command writes the status only (R111-R113). -/
theorem exec_gridCommand_frame {i : Instr} {s t : State} (hi : i ∈ [.gridClear, .pixGet, .pixSet]) (h : exec i s = .next t) :
    SameOperands s t ∧ SamePalette s t ∧ SameFrame s t ∧ SameOut s t ∧ SameIn s t ∧ SameSession s t ∧ SamePort s t := by
  have hclass : i ≠ .softReset ∧ i ∉ [.paletteEncode, .frameBuild, .msgStaticImage, .animAddFrame] ∧
      i ∉ [.frameBuild, .msgStaticImage, .animAddFrame] ∧ i ∉ [.msgRaw, .msgBrightness, .msgStaticImage, .animNextChunk] ∧
      i ∉ [.animBegin, .animAddFrame, .animEnd, .animNextChunk] := by
    cases i <;> revert hi <;> decide
  obtain ⟨hreset, hpalette, hframe, hout, hsession⟩ := hclass
  obtain ⟨sameOperands, sameIn, samePort⟩ := commandsKeepHostOwnedState i s t hreset h
  exact ⟨sameOperands, exec_samePalette hreset h hpalette, exec_sameFrame hreset h hframe, exec_sameOut hreset h hout,
    sameIn, exec_sameSession hreset h hsession, samePort⟩

/-- Out of bounds PIX_GET and PIX_SET fail alike, and their failure drops no result (R112, R113, R276 (d)). -/
theorem exec_outOfBounds {i : Instr} {s : State} (hi : i ∈ [.pixGet, .pixSet])
    (hout : 32 ≤ s.pixX.toNat ∨ 32 ≤ s.pixY.toNat) :
    ∃ t, exec i s = .next t ∧ Failed .outOfBounds 0 t ∧ SameData s t ∧ SamePort s t := by
  have hraise : Raises s i .outOfBounds 0 := by
    have hb := (inBounds_eq_false_iff s).mpr hout
    obtain rfl | rfl : i = .pixGet ∨ i = .pixSet := by simpa using hi
    · exact ⟨rfl, rfl, hb⟩
    · exact ⟨rfl, rfl, hb⟩
  have hexec := exec_of_raises hraise
  obtain ⟨sameOperands, samePalette, sameFrame, sameOut, sameIn, sameSession, samePort⟩ :=
    exec_gridCommand_frame (List.mem_cons_of_mem _ hi) hexec
  exact ⟨_, hexec, failCommand_failed _ _ 0 s,
    ⟨sameOperands, rfl, pixel_failCommand _ _ _ s, samePalette, sameFrame, sameOut, sameIn, sameSession⟩, samePort⟩

/-! ### The commands -/

/-- Settles O26: the effect latches the old colour and then writes the cell; out of bounds nothing is dropped. -/
theorem pixSetSwapsTheCell : Obligations.PixSetSwapsTheCell := by
  refine ⟨fun s hx hy => ?_, fun s hout => exec_outOfBounds (by decide) hout⟩
  have hguard : Guard s .pixSet := (inBounds_iff s).mpr ⟨hx, hy⟩
  have hexec := exec_of_guard hguard
  have hcells (a : Nat) : pixel (complete (effect s .pixSet)) a = if a = operandCell s then s.pixWdata else pixel s a := by
    simp [effect, operandColour]
  rw [← operandCell_eq]
  exact ⟨_, hexec, complete_effect_succeeded (by decide) s, rfl, (hcells _).trans (if_pos rfl),
    fun a ha => (hcells a).trans (if_neg ha), exec_gridCommand_frame (by decide) hexec⟩

/-- Settles O24: the cleared grid lists no cell, and an unlisted cell is black. -/
theorem gridClearBlackensTheGrid : Obligations.GridClearBlackensTheGrid := by
  intro s
  have hguard : Guard s .gridClear := trivial
  have hexec := exec_of_guard hguard
  obtain ⟨sameOperands, sameRest⟩ := exec_gridCommand_frame (by decide) hexec
  exact ⟨_, hexec, complete_effect_succeeded (by decide) s, pixel_clearGrid s, sameOperands,
    exec_pixRdata (by decide) hexec (by decide), sameRest⟩

/-- Settles O25: the effect latches the addressed cell; out of bounds nothing is dropped. -/
theorem pixGetReadsTheCell : Obligations.PixGetReadsTheCell := by
  refine ⟨fun s hx hy => ?_, fun s hout => exec_outOfBounds (by decide) hout⟩
  have hguard : Guard s .pixGet := (inBounds_iff s).mpr ⟨hx, hy⟩
  have hexec := exec_of_guard hguard
  obtain ⟨sameOperands, sameRest⟩ := exec_gridCommand_frame (by decide) hexec
  exact ⟨_, hexec, complete_effect_succeeded (by decide) s, rfl, sameOperands, exec_sameGrid (by decide) hexec (by decide),
    sameRest⟩

end Sys2Proof.Machine
end


section
/-! SUPPORT. The palette encoder: the bit width in closed form, the palette stage of the stored grid, and PALETTE_ENCODE (R131-R136). -/

namespace Sys2Proof.Machine

/-! ### The bit width -/

/-- `ceil(log2 P)` answers the same question as `bw P` without the bound `b >= 1` (R131). -/
theorem bw_eq_max_clog (p : Nat) : bw p = max 1 (Nat.clog 2 p) := by
  obtain ⟨hpos, hwide, hleast⟩ := bw_least p
  have hclog : Nat.clog 2 p ≤ bw p := (Nat.clog_le_iff_le_pow (by decide)).mpr hwide
  have hle : bw p ≤ max 1 (Nat.clog 2 p) :=
    hleast _ (le_max_left _ _) ((Nat.clog_le_iff_le_pow (by decide)).mp (le_max_right _ _))
  omega

/-- Settles O27: `bw_least` with the closed form and the bound. -/
theorem bitWidthIsLeast : Obligations.BitWidthIsLeast := by
  intro p _
  obtain ⟨hpos, hwide, hleast⟩ := bw_least p
  exact ⟨hpos, hwide, hleast, bw_eq_max_clog p, bw_le_ten⟩

/-! ### The palette of the stored grid -/

theorem mem_gridKeys_iff {s : State} {k : Key} : k ∈ gridKeys s ↔ ∃ t < 1024, pixel s t = k := by simp [gridKeys]

theorem gridKeys_congr {s s' : State} (h : ∀ t < 1024, pixel s' t = pixel s t) : gridKeys s' = gridKeys s :=
  List.map_congr_left fun t ht => h t (List.mem_range.mp ht)

/-- Everything R133 does to the stored grid, with no colour found before it. -/
theorem encodedGrid_spec (s : State) : ScanSpec [] (gridKeys s) (encodedGrid s) := encodeGrid_spec (gridKeys s)

/-- The index of a cell resolves to its colour and is at most the next unused one (R135). -/
theorem encodedGrid_index (s : State) {t : Nat} (ht : t < 1024) :
    ∃ i, (encodedGrid s).indices[t]? = some i ∧ (encodedGrid s).palette[i]? = some (pixel s t) ∧
      i ≤ (((encodedGrid s).indices.take t).map (· + 1)).foldr max 0 := by
  have hcell : t < (gridKeys s).length := by rwa [gridKeys_length]
  have hindex : t < (encodedGrid s).indices.length := by rwa [(encodedGrid_spec s).length_indices]
  have hresolves := (encodedGrid_spec s).resolves t hcell hindex
  rw [List.nil_append, gridKeys_getElem] at hresolves
  exact ⟨_, List.getElem?_eq_getElem hindex, hresolves, (encodedGrid_spec s).nextUnused t hindex⟩

/-- Before the first cell the next unused index is 0, so entry 0 is cell 0's colour (R135). -/
theorem encodedGrid_first (s : State) :
    (encodedGrid s).palette[0]? = some (pixel s 0) ∧ (encodedGrid s).indices[0]? = some 0 := by
  obtain ⟨i, hindex, hresolves, hunused⟩ := encodedGrid_index s (t := 0) (by omega)
  obtain rfl : i = 0 := Nat.le_zero.mp hunused
  exact ⟨hresolves, hindex⟩

/-- The palette stage fails exactly beyond the cap (R133). -/
theorem paletteStage_error_iff {s : State} :
    (∃ p, paletteStage s = .error p) ↔ paletteCap s < (encodedGrid s).palette.length := by
  refine ⟨?_, fun h => ⟨_, paletteStage_error h⟩⟩
  rintro ⟨p, herror⟩
  rcases paletteStage_cases s with ⟨hok, -⟩ | ⟨-, hcap⟩
  · cases hok.symm.trans herror
  · exact hcap

/-- The cap of 1024 is never exceeded, so only the cap of 256 can be (R132). -/
theorem paletteCap_lt_iff {s : State} :
    paletteCap s < (encodedGrid s).palette.length ↔ s.palCapSel = true ∧ 256 < (encodedGrid s).palette.length := by
  have hle : (encodedGrid s).palette.length ≤ 1024 := (grid_palette_length s).2
  cases hsel : s.palCapSel <;> simp [paletteCap, hsel, hle]

/-- Settles O28: the scan's specification read off the stored grid, clause by clause. -/
theorem paletteIsFirstOccurrenceOrder : Obligations.PaletteIsFirstOccurrenceOrder := by
  intro s
  have hscan := encodedGrid_spec s
  refine ⟨grid_palette_length s, encodedGrid_first s, ⟨hscan.nodup, fun k => ?_⟩, hscan.firstOccurrence,
    ⟨grid_indices_length s, fun t ht => ?_⟩, fun t ht => ?_, fun s' h => ?_, fun hsel => ?_,
    paletteStage_error_iff.trans paletteCap_lt_iff⟩
  · rw [hscan.mem_palette, mem_gridKeys_iff]
    exact and_iff_left List.not_mem_nil
  · obtain ⟨i, hindex, hresolves, -⟩ := encodedGrid_index s ht
    exact ⟨i, hindex, (List.getElem?_eq_some_iff.mp hresolves).1, hresolves⟩
  · obtain ⟨i, hindex, -, hunused⟩ := encodedGrid_index s ht
    exact ⟨i, hindex, hunused⟩
  · rw [encodedGrid, encodedGrid, gridKeys_congr h]
  · have hcap : ¬ paletteCap s < (encodedGrid s).palette.length := by simp [paletteCap_lt_iff, hsel]
    exact paletteStage_ok (Nat.not_lt.mp hcap)

/-! ### PALETTE_ENCODE -/

/-- Outside the palette registers and memories PALETTE_ENCODE writes the status only (R136). -/
theorem exec_paletteEncode_frame {s t : State} (h : exec .paletteEncode s = .next t) :
    SameOperands s t ∧ t.pixRdata = s.pixRdata ∧ SameGrid s t ∧ SameFrame s t ∧ SameOut s t ∧ SameIn s t ∧
      SameSession s t ∧ SamePort s t := by
  have hreset : Instr.paletteEncode ≠ .softReset := by decide
  obtain ⟨sameOperands, sameIn, samePort⟩ := commandsKeepHostOwnedState _ s t hreset h
  exact ⟨sameOperands, exec_pixRdata hreset h (by decide), exec_sameGrid hreset h (by decide),
    exec_sameFrame hreset h (by decide), exec_sameOut hreset h (by decide), sameIn,
    exec_sameSession hreset h (by decide), samePort⟩

theorem complete_samePalette (s : State) : SamePalette s (complete s) := (complete_keepsResults s).palette

/-- A failed palette stage leaves no readable palette and writes neither memory (R276 (b)). -/
theorem failCommand_paletteDropped {c : Option Instr} {e : CmdError} (h : dropsPalette c e = true) (n : BitVec 16)
    (s : State) : PaletteDropped s (failCommand c e n s) :=
  ⟨by simp [h], by simp [h], palEntry_failCommand c e n s, idxEntry_failCommand c e n s⟩

/-- Settles O29: within the cap the effect stores the stage's result; beyond it the failure carries the full count and drops the palette. -/
theorem paletteEncodeStoresPalette : Obligations.PaletteEncodeStoresPalette := by
  refine ⟨fun s hcap => ?_, fun s hcap => ?_⟩
  · have hguard : Guard s .paletteEncode := hcap
    have hexec := exec_of_guard hguard
    have hstored : PaletteStored (encodedGrid s) s (complete (effect s .paletteEncode)) :=
      (storePalette_stored s).of_same (complete_samePalette _)
    exact ⟨_, hexec, complete_effect_succeeded (by decide) s, hstored, exec_paletteEncode_frame hexec⟩
  · have hraise : Raises s .paletteEncode .paletteTooLarge (BitVec.ofNat 16 (encodedGrid s).palette.length) :=
      ⟨rfl, rfl, hcap⟩
    have hexec := exec_of_raises hraise
    have hfailed := failCommand_failed (some .paletteEncode) .paletteTooLarge
      (BitVec.ofNat 16 (encodedGrid s).palette.length) s
    rw [encodedGrid, toNat_paletteInfo] at hfailed
    exact ⟨_, hexec, hfailed, failCommand_paletteDropped rfl _ s, exec_paletteEncode_frame hexec⟩

end Sys2Proof.Machine
end


section
/-! SUPPORT. The bit packer: its bytes read as the stream of the closed form, its length, and the round trip (R151, R152, R156). -/

namespace Sys2Proof.Machine

/-! ### The packed bytes as a stream -/

/-- `ceil_div(n * bw, 8)` bytes (R152). -/
theorem pack_length (seq : List Nat) {bw : Nat} (hb : bw ≤ 10) : (pack seq bw).length = (seq.length * bw + 7) / 8 := by
  rw [pack_eq_natBytes seq bw hb, natBytes_length, Nat.mul_comm]

theorem natBytes_getElem_getLsbD {v n j b : Nat} (h : j < (natBytes v n).length) (hb : b < 8) :
    (natBytes v n)[j].getLsbD b = v.testBit (8 * j + b) := by
  rw [natBytes_getElem, BitVec.getLsbD_ofNat, Nat.testBit_shiftRight, decide_eq_true hb, Bool.true_and]

/-- Bit `b` of byte `j` is stream bit `8 * j + b` (R151). -/
theorem pack_getElem_getLsbD (seq : List Nat) {bw j b : Nat} (hpos : 1 ≤ bw) (hle : bw ≤ 10)
    (h : j < (pack seq bw).length) (hb : b < 8) :
    (pack seq bw)[j].getLsbD b = streamBit seq bw (8 * j + b) := by
  simp only [pack_eq_natBytes seq bw hle, natBytes_getElem_getLsbD _ hb, streamValue_testBit bw hpos]

theorem streamBit_of_length_le {seq : List Nat} {bw s : Nat} (hpos : 1 ≤ bw) (h : seq.length * bw ≤ s) :
    streamBit seq bw s = false := by
  have hend : seq[s / bw]? = none := List.getElem?_eq_none ((Nat.le_div_iff_mul_le hpos).mpr h)
  rw [streamBit, hend]

/-- A reader of the packed bytes sees the stream: behind the last byte both are 0. -/
theorem byteStreamBit_pack (seq : List Nat) {bw : Nat} (hpos : 1 ≤ bw) (hle : bw ≤ 10) (s : Nat) :
    byteStreamBit (pack seq bw) s = streamBit seq bw s := by
  by_cases h : s / 8 < (pack seq bw).length
  · rw [byteStreamBit, List.getD_eq_getElem _ _ h, pack_getElem_getLsbD seq hpos hle h (Nat.mod_lt _ (by decide)),
      Nat.div_add_mod]
  · have hend : seq.length * bw ≤ s := by rw [pack_length seq hle] at h; omega
    rw [byteStreamBit, List.getD_eq_default _ _ (Nat.not_lt.mp h), streamBit_of_length_le hpos hend]
    exact BitVec.getLsbD_zero

/-- Settles O30: `pack_getElem_getLsbD`, the stream bit written out. -/
theorem packClosedForm : Obligations.PackClosedForm :=
  fun seq _ hpos hle _ h _ hb => pack_getElem_getLsbD seq hpos hle h hb

/-- Settles O31: the general length and the case of a whole grid. -/
theorem packedLength : Obligations.PackedLength :=
  fun seq _ _ hle => ⟨pack_length seq hle, fun hs => pack_length_1024 hs hle⟩

/-! ### The round trip -/

/-- Bit `b` of symbol `t` is stream bit `t * bw + b`. -/
theorem streamBit_symbol {seq : List Nat} {bw t b : Nat} (ht : t < seq.length) (hb : b < bw) :
    streamBit seq bw (t * bw + b) = (seq[t] % 2 ^ bw).testBit b := by
  have hdiv : (t * bw + b) / bw = t := Nat.div_eq_of_lt_le (by omega) (by rw [Nat.succ_mul]; omega)
  have hmod : (t * bw + b) % bw = b := Nat.mul_add_mod_of_lt hb
  rw [streamBit, hdiv, hmod, List.getElem?_eq_getElem ht]

/-- A symbol of `unpack` is the number of its stream bits (R155). -/
theorem unpackSymbol_testBit (bytes : List Byte) (start width i : Nat) :
    (unpackSymbol bytes start width).testBit i = (decide (i < width) && byteStreamBit bytes (start + i)) := by
  induction width with
  | zero => simp [unpackSymbol]
  | succ n ih =>
    rw [unpackSymbol, Nat.testBit_or, ih, Nat.testBit_shiftLeft, Nat.testBit_bool_toNat]
    rcases Nat.lt_trichotomy i n with hbelow | rfl | habove
    · simp [hbelow, Nat.not_le.mpr hbelow, Nat.lt_succ_of_lt hbelow]
    · simp
    · simp [Nat.not_lt.mpr habove.le, Nat.sub_ne_zero_of_lt habove, Nat.not_lt.mpr (Nat.succ_le_of_lt habove)]

theorem unpackSymbol_pack {seq : List Nat} {bw t : Nat} (hpos : 1 ≤ bw) (hle : bw ≤ 10) (ht : t < seq.length) :
    unpackSymbol (pack seq bw) (t * bw) bw = seq[t] % 2 ^ bw := by
  refine Nat.eq_of_testBit_eq fun i => ?_
  rw [unpackSymbol_testBit, byteStreamBit_pack seq hpos hle]
  by_cases hi : i < bw
  · rw [decide_eq_true hi, Bool.true_and, streamBit_symbol ht hi]
  · rw [decide_eq_false hi, Bool.false_and, Nat.testBit_mod_two_pow, decide_eq_false hi, Bool.false_and]

/-- `pack` masks each symbol to `bw` bits, and that is all the round trip loses. -/
theorem unpack_pack (seq : List Nat) {bw : Nat} (hpos : 1 ≤ bw) (hle : bw ≤ 10) :
    unpack (pack seq bw) bw seq.length = seq.map (· % 2 ^ bw) := by
  refine List.ext_getElem (by simp [unpack]) fun t _ ht => ?_
  rw [List.length_map] at ht
  simp only [unpack, List.getElem_map, List.getElem_range, unpackSymbol_pack hpos hle ht]

/-- Settles O32: symbols below `2 ^ bw` lose nothing to the mask. -/
theorem unpackOfPackIsIdentity : Obligations.UnpackOfPackIsIdentity := by
  intro seq width hpos hle hsmall
  calc unpack (pack seq width) width seq.length = seq.map (· % 2 ^ width) := unpack_pack seq hpos hle
    _ = seq.map id := List.map_congr_left fun v hv => Nat.mod_eq_of_lt (hsmall v hv)
    _ = seq := List.map_id seq

end Sys2Proof.Machine
end


section
/-! SUPPORT. The frame builder: a frame record read from its bytes alone, and FRAME_BUILD (R170-R174). -/

namespace Sys2Proof.Machine

/-! ### Reading a frame record -/

/-- Bytes 6 and 7 are the palette's length, low byte first (R174). -/
theorem frameRecord_paletteLength (tc : BitVec 16) {r : Encoded} (h : r.palette.length < 65536) :
    ((frameRecord tc r).getD 6 0).toNat + 256 * ((frameRecord tc r).getD 7 0).toNat = r.palette.length := by
  have hlow : (frameRecord tc r).getD 6 0 = BitVec.ofNat 8 r.palette.length := by rw [frameRecord_eq_bytes]; rfl
  have hhigh : (frameRecord tc r).getD 7 0 = BitVec.ofNat 8 (r.palette.length / 256) := by rw [frameRecord_eq_bytes]; rfl
  rw [hlow, hhigh, BitVec.toNat_ofNat, BitVec.toNat_ofNat]
  omega

/-- The R, G, B bytes at `8 + 3*i` are the colour of palette entry `i` (R174). -/
theorem frameRecord_colour (tc : BitVec 16) {r : Encoded} {i : Nat} {k : Key} (h : r.palette[i]? = some k) :
    k.toNat = ((frameRecord tc r).getD (8 + 3 * i) 0).toNat * 65536 +
      ((frameRecord tc r).getD (8 + 3 * i + 1) 0).toNat * 256 + ((frameRecord tc r).getD (8 + 3 * i + 2) 0).toNat := by
  obtain ⟨hred, hgreen, hblue⟩ := frameRecord_palette tc h
  have hkey : k.toNat < 2 ^ 24 := k.isLt
  simp only [List.getD_eq_getElem?_getD, hred, hgreen, hblue, Option.getD_some, BitVec.toNat_ofNat]
  omega

/-- Every index of the stored grid names a palette entry, so it fits the width it is packed at (R131, R154). -/
theorem encodedGrid_index_lt_two_pow {s : State} {v : Nat} (h : v ∈ (encodedGrid s).indices) :
    v < 2 ^ bw (encodedGrid s).palette.length := by
  obtain ⟨t, ht, rfl⟩ := List.mem_iff_getElem.mp h
  exact (encodeGrid_index_lt (gridKeys s) t ht).trans_le (bw_least _).2.1

/-- Unpacking the packed indices of the stored grid gives them back (R156, R174). -/
theorem unpack_pack_encodedGrid (s : State) :
    unpack (pack (encodedGrid s).indices (bw (encodedGrid s).palette.length)) (bw (encodedGrid s).palette.length) 1024 =
      (encodedGrid s).indices := by
  have hcount : (encodedGrid s).indices.length = 1024 := grid_indices_length s
  have hwidth : bw (encodedGrid s).palette.length ≤ 10 := bw_le_ten (grid_palette_length s).2
  have hround := unpackOfPackIsIdentity (encodedGrid s).indices _ (bw_pos _) hwidth fun _ => encodedGrid_index_lt_two_pow
  rwa [hcount] at hround

/-- Settles O34: the length's bytes, the round trip of the indices and the colour's bytes, cell by cell. -/
theorem frameIsSelfDescribing : Obligations.FrameIsSelfDescribing := by
  rintro s tc f rfl
  have hle : (encodedGrid s).palette.length ≤ 1024 := (grid_palette_length s).2
  refine ⟨_, (frameRecord_paletteLength tc (by omega)).symm, rfl, ?_⟩
  rw [frameRecord_drop, unpack_pack_encodedGrid]
  refine ⟨rfl, fun t ht => ?_⟩
  obtain ⟨i, hindex, hresolves, -⟩ := encodedGrid_index s ht
  exact ⟨i, hindex, (List.getElem?_eq_some_iff.mp hresolves).1, frameRecord_colour tc hresolves⟩

/-! ### FRAME_BUILD -/

/-- A built frame stores its record behind the palette stage's writes, which leave `FRAMEBUF` alone (R170, R173). -/
theorem storeBuilt_frameStored (tc : BitVec 16) (s : State) :
    FrameStored (frameRecord tc (encodedGrid s)) s (storeBuilt (encodedGrid s) (frameRecord tc (encodedGrid s)) s) := by
  have hle : (frameRecord tc (encodedGrid s)).length ≤ 4360 := (grid_frame_bounds tc s).2
  obtain ⟨frameLen, framebuf, framebufRest⟩ :=
    storeFrame_stored (frameRecord tc (encodedGrid s)) (storePalette (encodedGrid s) s) (by omega)
  exact ⟨frameLen, framebuf, fun j hj => (framebufRest j hj).trans (frameByte_storePalette _ s j)⟩

theorem complete_sameFrame (s : State) : SameFrame s (complete s) := (complete_keepsResults s).frame

/-- A failed frame build leaves no readable frame and does not write `FRAMEBUF` (R276 (b)). -/
theorem failCommand_frameDropped {c : Option Instr} {e : CmdError} (h : dropsFrame c e = true) (n : BitVec 16)
    (s : State) : FrameDropped s (failCommand c e n s) :=
  ⟨by simp [h], frameByte_failCommand c e n s⟩

/-- Outside the palette's and the frame's registers and memories FRAME_BUILD writes the status only (R173). -/
theorem exec_frameBuild_frame {s t : State} (h : exec .frameBuild s = .next t) :
    SameOperands s t ∧ t.pixRdata = s.pixRdata ∧ SameGrid s t ∧ SameOut s t ∧ SameIn s t ∧ SameSession s t ∧
      SamePort s t := by
  have hreset : Instr.frameBuild ≠ .softReset := by decide
  obtain ⟨sameOperands, sameIn, samePort⟩ := commandsKeepHostOwnedState _ s t hreset h
  exact ⟨sameOperands, exec_pixRdata hreset h (by decide), exec_sameGrid hreset h (by decide),
    exec_sameOut hreset h (by decide), sameIn, exec_sameSession hreset h (by decide), samePort⟩

/-- Settles O35: within the cap the effect stores the stage's result and the record of time code `ARG`; beyond it the failure
carries the full count and drops palette and frame. -/
theorem frameBuildStoresFrame : Obligations.FrameBuildStoresFrame := by
  refine ⟨fun s hcap => ?_, fun s hcap => ?_⟩
  · have hguard : Guard s .frameBuild := hcap
    have hexec := exec_of_guard hguard
    have hpalette : PaletteStored (encodedGrid s) s (complete (effect s .frameBuild)) :=
      (storeBuilt_paletteStored _ s).of_same (complete_samePalette _)
    have hframe : FrameStored (frameRecord s.arg (encodedGrid s)) s (complete (effect s .frameBuild)) :=
      (storeBuilt_frameStored s.arg s).of_same (complete_sameFrame _)
    exact ⟨_, hexec, complete_effect_succeeded (by decide) s, hpalette, hframe, exec_frameBuild_frame hexec⟩
  · have hraise : Raises s .frameBuild .paletteTooLarge (BitVec.ofNat 16 (encodedGrid s).palette.length) :=
      ⟨rfl, rfl, hcap⟩
    have hexec := exec_of_raises hraise
    have hfailed := failCommand_failed (some .frameBuild) .paletteTooLarge
      (BitVec.ofNat 16 (encodedGrid s).palette.length) s
    rw [encodedGrid, toNat_paletteInfo] at hfailed
    exact ⟨_, hexec, hfailed, failCommand_paletteDropped rfl _ s, failCommand_frameDropped rfl _ s,
      exec_frameBuild_frame hexec⟩

end Sys2Proof.Machine
end


section
/-! SUPPORT. The message framer: its checksum as a sum, and MSG_RAW (R190-R195). -/

namespace Sys2Proof.Machine

/-! ### The checksum -/

/-- The sum does not depend on the order of the bytes (R195). -/
theorem byteSum_perm {p q : List Byte} (h : p.Perm q) : byteSum p = byteSum q := (h.map _).sum_eq

theorem byteSum_replicate (k : Nat) (b : Byte) : byteSum (List.replicate k b) = k * b.toNat := by
  simp [byteSum]

/-- The length field sees the payload's length only (R191). -/
theorem lengthField_congr {p q : List Byte} (h : p.length = q.length) : lengthField p = lengthField q := by
  rw [lengthField, lengthField, h]

/-- Settles O37: the checksum reads the payload through its length and its sum, which a permutation keeps. -/
theorem checksumIsAdditive : Obligations.ChecksumIsAdditive := by
  refine ⟨fun p q h => ?_, fun k hk => ?_⟩
  · rw [lengthField_congr h.length_eq, checksum, checksum, byteSum_perm h]
  · have hsum : ((List.replicate k (0xFF : Byte)).map fun b => b.toNat).sum = 255 * k :=
      (byteSum_replicate k 0xFF).trans (Nat.mul_comm k 255)
    rw [checksum_lengthField (by rwa [List.length_replicate]), hsum, List.length_replicate, BitVec.toNat_ofNat, Nat.mod_mod]

/-! ### Messages in `OUT` -/

/-- A message whose length fits `OUT_LEN` is stored whole (R193). -/
theorem storeOut_message_stored {p : List Byte} (h : p.length < 65530) (s : State) :
    OutStored (message p) s (storeOut (message p) s) :=
  storeOut_stored (message p) s (by rw [message_length]; omega)

theorem complete_sameOut (s : State) : SameOut s (complete s) := (complete_keepsResults s).output

/-- A failed message command leaves no readable message and does not write `OUT` (R276 (a)). -/
theorem failCommand_outDropped {c : Option Instr} (h : dropsMessage c = true) (e : CmdError) (n : BitVec 16) (s : State) :
    OutDropped s (failCommand c e n s) :=
  ⟨by simp [h], outByte_failCommand c e n s⟩

/-- Outside `OUT_LEN` and `OUT` the two commands that frame an operand write the status only (R193, R240). -/
theorem exec_operandMessage_frame {i : Instr} {s t : State} (hi : i ∈ [.msgRaw, .msgBrightness]) (h : exec i s = .next t) :
    SameOperands s t ∧ t.pixRdata = s.pixRdata ∧ SameGrid s t ∧ SamePalette s t ∧ SameFrame s t ∧ SameIn s t ∧
      SameSession s t ∧ SamePort s t := by
  have hclass : i ≠ .softReset ∧ i ∉ [.pixGet, .pixSet] ∧ i ∉ [.gridClear, .pixSet] ∧
      i ∉ [.paletteEncode, .frameBuild, .msgStaticImage, .animAddFrame] ∧
      i ∉ [.frameBuild, .msgStaticImage, .animAddFrame] ∧ i ∉ [.animBegin, .animAddFrame, .animEnd, .animNextChunk] := by
    cases i <;> revert hi <;> decide
  obtain ⟨hreset, hpixel, hgrid, hpalette, hframe, hsession⟩ := hclass
  obtain ⟨sameOperands, sameIn, samePort⟩ := commandsKeepHostOwnedState i s t hreset h
  exact ⟨sameOperands, exec_pixRdata hreset h hpixel, exec_sameGrid hreset h hgrid, exec_samePalette hreset h hpalette,
    exec_sameFrame hreset h hframe, sameIn, exec_sameSession hreset h hsession, samePort⟩

/-! ### MSG_RAW -/

/-- Settles O38: up to `IN_CAP` bytes the effect stores the message of the operand; beyond it the failure drops `OUT`. -/
theorem msgRawFramesTheInput : Obligations.MsgRawFramesTheInput := by
  refine ⟨fun s hcap => ?_, fun s hcap => ?_⟩
  · have hguard : Guard s .msgRaw := hcap
    have hexec := exec_of_guard hguard
    have hfits : (operandPayload s).length < 65530 := by rw [operandPayload_length]; omega
    have hstored : OutStored (message (operandPayload s)) s (complete (effect s .msgRaw)) :=
      (storeOut_message_stored hfits s).of_same (complete_sameOut _)
    exact ⟨_, hexec, complete_effect_succeeded (by decide) s, hstored, exec_operandMessage_frame (by decide) hexec⟩
  · have hraise : Raises s .msgRaw .capacity 0 := ⟨rfl, rfl, hcap⟩
    have hexec := exec_of_raises hraise
    exact ⟨_, hexec, failCommand_failed _ _ 0 s, failCommand_outDropped rfl _ 0 s,
      exec_operandMessage_frame (by decide) hexec⟩

end Sys2Proof.Machine
end


section
/-! SUPPORT. The animation chunker: the session commands, their errors, and the chunk messages of a session (R210-R220). -/

namespace Sys2Proof.Machine

/-! ### What the session commands leave alone -/

/-- ANIM_BEGIN and ANIM_END write the session and the status only (R211, R214, R219). -/
theorem exec_sessionOnly_frame {i : Instr} {s t : State} (hi : i ∈ [.animBegin, .animEnd]) (h : exec i s = .next t) :
    SameOperands s t ∧ t.pixRdata = s.pixRdata ∧ SameGrid s t ∧ SamePalette s t ∧ SameFrame s t ∧ SameOut s t ∧
      SameIn s t ∧ SamePort s t := by
  have hclass : i ≠ .softReset ∧ i ∉ [.pixGet, .pixSet] ∧ i ∉ [.gridClear, .pixSet] ∧
      i ∉ [.paletteEncode, .frameBuild, .msgStaticImage, .animAddFrame] ∧
      i ∉ [.frameBuild, .msgStaticImage, .animAddFrame] ∧
      i ∉ [.msgRaw, .msgBrightness, .msgStaticImage, .animNextChunk] := by
    cases i <;> revert hi <;> decide
  obtain ⟨hreset, hpixel, hgrid, hpalette, hframe, hout⟩ := hclass
  obtain ⟨sameOperands, sameIn, samePort⟩ := commandsKeepHostOwnedState i s t hreset h
  exact ⟨sameOperands, exec_pixRdata hreset h hpixel, exec_sameGrid hreset h hgrid, exec_samePalette hreset h hpalette,
    exec_sameFrame hreset h hframe, exec_sameOut hreset h hout, sameIn, samePort⟩

/-- Outside palette, frame and session ANIM_ADD_FRAME writes the status only (R213, R219). -/
theorem exec_animAddFrame_frame {s t : State} (h : exec .animAddFrame s = .next t) :
    SameOperands s t ∧ t.pixRdata = s.pixRdata ∧ SameGrid s t ∧ SameOut s t ∧ SameIn s t ∧ SamePort s t := by
  have hreset : Instr.animAddFrame ≠ .softReset := by decide
  obtain ⟨sameOperands, sameIn, samePort⟩ := commandsKeepHostOwnedState _ s t hreset h
  exact ⟨sameOperands, exec_pixRdata hreset h (by decide), exec_sameGrid hreset h (by decide),
    exec_sameOut hreset h (by decide), sameIn, samePort⟩

/-- Outside message and session ANIM_NEXT_CHUNK writes the status only (R217, R219). -/
theorem exec_animNextChunk_frame {s t : State} (h : exec .animNextChunk s = .next t) :
    SameOperands s t ∧ t.pixRdata = s.pixRdata ∧ SameGrid s t ∧ SamePalette s t ∧ SameFrame s t ∧ SameIn s t ∧
      SamePort s t := by
  have hreset : Instr.animNextChunk ≠ .softReset := by decide
  obtain ⟨sameOperands, sameIn, samePort⟩ := commandsKeepHostOwnedState _ s t hreset h
  exact ⟨sameOperands, exec_pixRdata hreset h (by decide), exec_sameGrid hreset h (by decide),
    exec_samePalette hreset h (by decide), exec_sameFrame hreset h (by decide), sameIn, samePort⟩

/-! ### What a failure keeps and what it drops (R276) -/

section
variable {c : Option Instr} {e : CmdError}

theorem failCommand_sameOut (h : dropsMessage c = false) (n : BitVec 16) (s : State) : SameOut s (failCommand c e n s) :=
  ⟨by simp [h], outByte_failCommand c e n s⟩

theorem failCommand_samePalette (h : dropsPalette c e = false) (n : BitVec 16) (s : State) :
    SamePalette s (failCommand c e n s) :=
  ⟨by simp [h], by simp [h], palEntry_failCommand c e n s, idxEntry_failCommand c e n s⟩

theorem failCommand_sameFrame (h : dropsFrame c e = false) (n : BitVec 16) (s : State) : SameFrame s (failCommand c e n s) :=
  ⟨by simp [h], frameByte_failCommand c e n s⟩

theorem failCommand_sameSession (h : abortsSession c e = false) (n : BitVec 16) (s : State) :
    SameSession s (failCommand c e n s) :=
  ⟨by simp [h], by simp [h], by simp [h], rfl, by simp [h], by simp [h], animByte_failCommand c e n s⟩

theorem failCommand_aborted (h : abortsSession c e = true) (n : BitVec 16) (s : State) : Aborted s (failCommand c e n s) :=
  ⟨by simp [h], by simp [h], by simp [h], by simp [h], by simp [h], rfl, animByte_failCommand c e n s⟩

end

/-- SEQUENCE drops no palette and no frame and aborts no session, so only a message command loses anything by it (R276). -/
theorem exec_of_raises_sequence {i : Instr} {s : State} (hraise : Raises s i .sequence 0)
    (hmessage : dropsMessage (some i) = false) :
    ∃ t, exec i s = .next t ∧ Failed .sequence 0 t ∧ SameData s t ∧ SamePort s t := by
  have hpalette : dropsPalette (some i) .sequence = false := by simp [dropsPalette]
  have hframe : dropsFrame (some i) .sequence = false := by simp [dropsFrame, hpalette]
  have habort : abortsSession (some i) .sequence = false := by simp [abortsSession]
  obtain ⟨sameOperands, sameIn, samePort⟩ := failCommand_keepsHostOwned (some i) .sequence 0 s
  exact ⟨_, exec_of_raises hraise, failCommand_failed _ _ 0 s,
    ⟨sameOperands, rfl, pixel_failCommand _ _ 0 s, failCommand_samePalette hpalette 0 s, failCommand_sameFrame hframe 0 s,
      failCommand_sameOut hmessage 0 s, sameIn, failCommand_sameSession habort 0 s⟩, samePort⟩

/-! ### ANIM_BEGIN -/

/-- Settles O41: no state refuses the command, and its effect opens the session. -/
theorem animBeginOpensSession : Obligations.AnimBeginOpensSession := by
  intro s
  have hguard : Guard s .animBegin := trivial
  have hexec := exec_of_guard hguard
  exact ⟨_, hexec, complete_effect_succeeded (by decide) s, rfl, rfl, rfl, rfl, rfl, rfl, animByte_openSession s,
    exec_sessionOnly_frame (by decide) hexec⟩

/-! ### ANIM_ADD_FRAME -/

theorem appendFrame_sameFrame (r : Encoded) (f : List Byte) (s : State) : SameFrame (storeBuilt r f s) (appendFrame r f s) :=
  ⟨rfl, frameByte_congr rfl rfl⟩

/-- The sum of the lengths fits `ANIM_LEN` within any legal capacity (R9, R46). -/
theorem appendFrame_animLen_toNat {s : State} {f : List Byte} (r : Encoded) (hlegal : s.config.Legal)
    (hfit : s.animLen.toNat + f.length ≤ s.config.animCap) :
    (appendFrame r f s).animLen.toNat = s.animLen.toNat + f.length := by
  have hcap := hlegal.2
  rw [appendFrame_animLen, BitVec.toNat_ofNat, Nat.mod_eq_of_lt (by omega)]

theorem animByte_appendFrame_new (r : Encoded) {f : List Byte} (s : State) {j : Nat} (h : j < f.length) :
    animByte (appendFrame r f s) (s.animLen.toNat + j) = f[j] := by
  rw [animByte_appendFrame, dif_pos ⟨Nat.le_add_right .., Nat.add_lt_add_left h _⟩]
  simp only [Nat.add_sub_cancel_left]

theorem animByte_appendFrame_old (r : Encoded) {f : List Byte} (s : State) {j : Nat}
    (h : j < s.animLen.toNat ∨ s.animLen.toNat + f.length ≤ j) : animByte (appendFrame r f s) j = animByte s j := by
  rw [animByte_appendFrame, dif_neg (by omega)]

/-- Settles O42: the effect is that of a frame build with time code `FRAME_COUNT * PERIOD`, followed by the append. -/
theorem animAddFrameAppends : Obligations.AnimAddFrameAppends := by
  rintro s f hcollect htime hcap rfl hlegal hfit
  have hguard : Guard s .animAddFrame := ⟨hcollect, htime, hcap, hfit⟩
  have hexec := exec_of_guard hguard
  have hpalette : PaletteStored (encodedGrid s) s (complete (effect s .animAddFrame)) :=
    ((storeBuilt_paletteStored _ s).of_same (appendFrame_samePalette _ _ s)).of_same (complete_samePalette _)
  have hframe : FrameStored (frameRecord (BitVec.ofNat 16 (frameTimeCode s)) (encodedGrid s)) s
      (complete (effect s .animAddFrame)) :=
    ((storeBuilt_frameStored _ s).of_same (appendFrame_sameFrame _ _ s)).of_same (complete_sameFrame _)
  exact ⟨_, hexec, complete_effect_succeeded (by decide) s, hpalette, hframe,
    appendFrame_animLen_toNat (encodedGrid s) hlegal hfit,
    fun _ hj => (animByte_complete _ _).trans (animByte_appendFrame_new (encodedGrid s) s hj),
    fun _ hj => (animByte_complete _ _).trans (animByte_appendFrame_old (encodedGrid s) s hj),
    rfl, hcollect, rfl, rfl, rfl, exec_animAddFrame_frame hexec⟩

/-- Settles O43: each clause names the one error the command then raises. -/
theorem animAddFrameErrors : Obligations.AnimAddFrameErrors := by
  rintro s f rfl
  refine ⟨fun hstate => ?_, fun hcollect htime => ?_, fun hcollect htime hcap => ?_, fun hcollect htime hcap hfull => ?_⟩
  · exact exec_of_raises_sequence (Or.inl ⟨rfl, rfl, hstate⟩) rfl
  · have hraise : Raises s .animAddFrame .fieldOverflow 0 := Or.inr (Or.inl ⟨rfl, rfl, hcollect, htime⟩)
    have hexec := exec_of_raises hraise
    exact ⟨_, hexec, failCommand_failed _ _ 0 s, failCommand_aborted rfl 0 s, failCommand_samePalette rfl 0 s,
      failCommand_sameFrame rfl 0 s, exec_animAddFrame_frame hexec⟩
  · have hraise : Raises s .animAddFrame .paletteTooLarge (BitVec.ofNat 16 (encodedGrid s).palette.length) :=
      Or.inr (Or.inr (Or.inl ⟨rfl, rfl, hcollect, htime, hcap⟩))
    have hexec := exec_of_raises hraise
    have hfailed := failCommand_failed (some .animAddFrame) .paletteTooLarge
      (BitVec.ofNat 16 (encodedGrid s).palette.length) s
    rw [encodedGrid, toNat_paletteInfo] at hfailed
    exact ⟨_, hexec, hfailed, failCommand_aborted rfl _ s, failCommand_paletteDropped rfl _ s,
      failCommand_frameDropped rfl _ s, exec_animAddFrame_frame hexec⟩
  · have hraise : Raises s .animAddFrame .capacity 0 :=
      Or.inr (Or.inr (Or.inr ⟨rfl, rfl, hcollect, htime, hcap, hfull⟩))
    have hexec := exec_of_raises hraise
    exact ⟨_, hexec, failCommand_failed _ _ 0 s, failCommand_aborted rfl 0 s, failCommand_paletteDropped rfl 0 s,
      failCommand_frameDropped rfl 0 s, exec_animAddFrame_frame hexec⟩

/-! ### ANIM_END -/

theorem chunksOf_eq (s : State) : chunksOf s = (s.animLen.toNat + 199) / 200 := by
  rw [chunksOf, ceilDiv, Nat.add_sub_assoc (by decide)]

/-- Only an empty animation has no chunk (R214). -/
theorem chunksOf_eq_zero_iff {s : State} : chunksOf s = 0 ↔ s.animLen = 0 := by
  have hzero : s.animLen = 0 ↔ s.animLen.toNat = 0 := BitVec.toNat_inj.symm
  rw [chunksOf_eq, hzero]; omega

/-- A 16-bit `ANIM_LEN` gives at most 328 chunks: the count fits its 9 bits in every state (R214). -/
theorem fixChunks_chunkCount_toNat (s : State) : (fixChunks s).chunkCount.toNat = chunksOf s := by
  have hlen := s.animLen.isLt
  have hfits : chunksOf s < 2 ^ 9 := by rw [chunksOf_eq]; omega
  rw [fixChunks_chunkCount, BitVec.toNat_ofNat, Nat.mod_eq_of_lt hfits]

/-- Settles O44: in COLLECT the effect fixes the count; elsewhere the command raises SEQUENCE. -/
theorem animEndFixesChunkCount : Obligations.AnimEndFixesChunkCount := by
  refine ⟨fun s hcollect => ?_, fun s hstate => exec_of_raises_sequence ⟨rfl, rfl, hstate⟩ rfl⟩
  have hguard : Guard s .animEnd := hcollect
  have hexec := exec_of_guard hguard
  have hstate : (fixChunks s).animState = if s.animLen = 0 then .idle else .emit := by
    simp only [fixChunks_animState, chunksOf_eq_zero_iff]
  exact ⟨_, hexec, complete_effect_succeeded (by decide) s, fixChunks_chunkCount_toNat s, rfl, hstate, rfl, rfl, rfl,
    animByte_fixChunks s, exec_sessionOnly_frame (by decide) hexec⟩

/-! ### ANIM_NEXT_CHUNK -/

/-- The payload with its header bytes as numbers (R94, R215). -/
theorem chunkPayload_eq (s : State) (i : Nat) : chunkPayload s i =
    0x49 :: BitVec.ofNat 8 s.animLen.toNat :: BitVec.ofNat 8 (s.animLen.toNat / 256) :: BitVec.ofNat 8 i ::
      chunkSlice s i := by
  simp [chunkPayload, u16le, lo_eq, hi_eq]

theorem advanceChunk_sameOut (s : State) : SameOut s (advanceChunk s) := ⟨rfl, outByte_advanceChunk s⟩

/-- A chunk message is at most 210 bytes, so it is stored whole (R216, R217). -/
theorem complete_nextChunk_outStored (s : State) :
    OutStored (message (chunkPayload s s.chunkIdx.toNat)) s (complete (effect s .animNextChunk)) := by
  have hlen := chunkPayload_length_le s s.chunkIdx.toNat
  exact ((storeOut_message_stored (by omega) s).of_same (advanceChunk_sameOut _)).of_same (complete_sameOut _)

/-- Below the chunk count the index does not wrap (R217). -/
theorem complete_nextChunk_chunkIdx {s : State} (h : s.chunkIdx.toNat < s.chunkCount.toNat) :
    (complete (effect s .animNextChunk)).chunkIdx.toNat = s.chunkIdx.toNat + 1 := by
  have hidx : (complete (effect s .animNextChunk)).chunkIdx = s.chunkIdx + 1 := by simp [effect]
  rw [hidx]; bv_omega

/-- The session ends with the last chunk (R217). -/
theorem complete_nextChunk_animState {s : State} (h : s.animState = .emit) : (complete (effect s .animNextChunk)).animState =
    if s.chunkIdx.toNat + 1 = s.chunkCount.toNat then .idle else .emit := by
  simp [effect, h]

/-- The rest of the session stays (R217). -/
theorem complete_nextChunk_session (s : State) :
    (complete (effect s .animNextChunk)).animLen = s.animLen ∧
      (complete (effect s .animNextChunk)).frameCount = s.frameCount ∧
      (complete (effect s .animNextChunk)).period = s.period ∧
      (complete (effect s .animNextChunk)).chunkCount = s.chunkCount ∧
      ∀ j, animByte (complete (effect s .animNextChunk)) j = animByte s j := by
  simp [effect]

/-- Settles O45: in EMIT the effect stores the message of the chunk and advances the index. -/
theorem animNextChunkEmits : Obligations.AnimNextChunkEmits := by
  rintro s i hemit rfl hidx
  have hguard : Guard s .animNextChunk := hemit
  have hexec := exec_of_guard hguard
  have hstored := complete_nextChunk_outStored s
  rw [chunkPayload_eq] at hstored
  obtain ⟨animLen, frameCount, period, chunkCount, allframes⟩ := complete_nextChunk_session s
  exact ⟨_, hexec, complete_effect_succeeded (by decide) s, hstored, complete_nextChunk_chunkIdx hidx,
    complete_nextChunk_animState hemit, animLen, frameCount, period, chunkCount, allframes, exec_animNextChunk_frame hexec⟩

/-- Settles O46: the one error of the command, which as a message command's drops `OUT`. -/
theorem animNextChunkOutOfSequence : Obligations.AnimNextChunkOutOfSequence := by
  intro s hstate
  have hraise : Raises s .animNextChunk .sequence 0 := ⟨rfl, rfl, hstate⟩
  have hexec := exec_of_raises hraise
  obtain ⟨sameOperands, samePixRdata, sameGrid, samePalette, sameFrame, sameIn, samePort⟩ := exec_animNextChunk_frame hexec
  exact ⟨_, hexec, failCommand_failed _ _ 0 s, failCommand_outDropped rfl _ 0 s, sameOperands, samePixRdata, sameGrid,
    samePalette, sameFrame, sameIn, failCommand_sameSession rfl 0 s, samePort⟩

/-! ### The chunk messages of a whole session -/

/-- A chunk depends on `ANIM_LEN` and the bytes of `ALLFRAMES` only (R215). -/
theorem chunkPayload_congr {s t : State} (hlen : t.animLen = s.animLen) (hbytes : ∀ j, animByte t j = animByte s j) :
    chunkPayload t = chunkPayload s := by
  funext i
  simp only [chunkPayload, chunkSlice, hlen, funext hbytes]

/-- One run of ANIM_NEXT_CHUNK in EMIT gives the message of the chunk at the index (R217). -/
theorem runChunks_succ_of_emit {s : State} (h : s.animState = .emit) (n : Nat) : runChunks (n + 1) s =
    (message (chunkPayload s s.chunkIdx.toNat) :: (runChunks n (complete (effect s .animNextChunk))).1,
      (runChunks n (complete (effect s .animNextChunk))).2) := by
  have hexec : exec .animNextChunk s = .next (complete (effect s .animNextChunk)) := exec_of_guard (i := .animNextChunk) h
  rw [← messageBytes_of_stored (complete_nextChunk_outStored s)]
  simp only [runChunks, hexec]

/-- As many runs as chunks are left give the messages of these chunks in order, and the last run ends the session (R217, R218). -/
theorem runChunks_of_emit (n : Nat) {s : State} (hemit : s.animState = .emit)
    (hleft : s.chunkIdx.toNat + (n + 1) = s.chunkCount.toNat) :
    (runChunks (n + 1) s).1 = (List.range' s.chunkIdx.toNat (n + 1)).map (fun i => message (chunkPayload s i)) ∧
      (runChunks (n + 1) s).2.animState = .idle := by
  induction n generalizing s with
  | zero =>
    rw [runChunks_succ_of_emit hemit]
    exact ⟨rfl, (complete_nextChunk_animState hemit).trans (if_pos hleft)⟩
  | succ n ih =>
    have hnext : (complete (effect s .animNextChunk)).animState = .emit :=
      (complete_nextChunk_animState hemit).trans (if_neg (by omega))
    have hidx := complete_nextChunk_chunkIdx (s := s) (by omega)
    obtain ⟨hlen, -, -, hcount, hbytes⟩ := complete_nextChunk_session s
    obtain ⟨hmessages, hidle⟩ := ih hnext (by rw [hidx, hcount]; omega)
    rw [hidx, chunkPayload_congr hlen hbytes] at hmessages
    rw [runChunks_succ_of_emit hemit, List.range'_succ, List.map_cons, ← hmessages]
    exact ⟨rfl, hidle⟩

/-- Before the slice lie three bytes of the envelope and four of the header, behind it three of the envelope (R90, R94). -/
theorem sliceOfMessage_chunk (s : State) (i : Nat) : sliceOfMessage (message (chunkPayload s i)) = chunkSlice s i := by
  have hlen : (message (chunkPayload s i)).length - 10 = (chunkSlice s i).length := by
    rw [message_length, chunkPayload_eq]
    simp only [List.length_cons]
    omega
  rw [sliceOfMessage, hlen, message_eq, chunkPayload_eq]
  simp only [List.cons_append, List.drop_succ_cons, List.drop_zero, List.take_left]

/-- Byte 6 of a chunk message is the index of the chunk (R94). -/
theorem chunkMessage_index (s : State) (i : Nat) : (message (chunkPayload s i))[6]? = some (BitVec.ofNat 8 i) := by
  rw [message_eq, chunkPayload_eq]; rfl

/-- The first `n` slices tile `ALLFRAMES` from its start, up to `ANIM_LEN` (R215, R218). -/
theorem flatMap_chunkSlice (s : State) (n : Nat) :
    (List.range n).flatMap (chunkSlice s) = (List.range (min s.animLen.toNat (n * 200))).map (animByte s) := by
  induction n with
  | zero => simp
  | succ n ih =>
    rw [List.range_succ, List.flatMap_append, ih, List.flatMap_singleton, chunkSlice, ← List.map_append]
    rcases Nat.le_total s.animLen.toNat (n * 200) with hend | hmore
    · rw [Nat.min_eq_left hend, Nat.min_eq_left (by omega), Nat.sub_eq_zero_of_le hend, List.range'_zero, List.append_nil]
    · obtain ⟨k, hk⟩ : ∃ k, min s.animLen.toNat ((n + 1) * 200) = n * 200 + k := Nat.exists_eq_add_of_le (by omega)
      rw [Nat.min_eq_right hmore, hk, Nat.add_sub_cancel_left, List.range_add, List.range'_eq_map_range]

/-- Settles O47: the messages are those of chunks 0, 1, ... in order, and their slices tile the animation. -/
theorem chunksReassembleTheAnimation : Obligations.ChunksReassembleTheAnimation := by
  intro s hinv hemit hstart
  obtain ⟨hpos, hceil⟩ := hinv.emitting hemit
  have hle := hinv.chunks.2
  obtain ⟨n, hn⟩ : ∃ n, s.chunkCount.toNat = n + 1 := Nat.exists_eq_succ_of_ne_zero (by omega)
  have hidx : s.chunkIdx.toNat = 0 := by rw [hstart]; rfl
  obtain ⟨hmessages, hidle⟩ := runChunks_of_emit n hemit (by omega)
  rw [hidx, ← List.range_eq_range', ← hn] at hmessages
  rw [← hn] at hidle
  have hcover : min s.animLen.toNat (s.chunkCount.toNat * 200) = s.animLen.toNat := by
    rw [ceilDiv] at hceil; omega
  rw [hmessages]
  refine ⟨by rw [List.length_map, List.length_range], ?_, fun i hi => ⟨message (chunkPayload s i), ?_, ?_⟩, hidle⟩
  · simp only [List.flatMap_map, sliceOfMessage_chunk]
    rw [flatMap_chunkSlice, hcover]
  · rw [List.getElem?_map, List.getElem?_range hi, Option.map_some]
  · rw [chunkMessage_index, Option.map_some, BitVec.toNat_ofNat, Nat.mod_eq_of_lt (by omega)]

end Sys2Proof.Machine
end


section
/-! SUPPORT. The device command encoders: the closed form of the brightness message, MSG_BRIGHTNESS and
MSG_STATIC_IMAGE (R92, R93, R240, R241). -/

namespace Sys2Proof.Machine

/-! ### MSG_BRIGHTNESS -/

/-- The length field is 4 and the sum 4 + 0x74 + level; up to 100 the sum stays below 256, so its high byte is 0 (R190, R240). -/
theorem message_brightnessPayload {level : BitVec 16} (h : level.toNat ≤ 100) : message (brightnessPayload level) =
    [0x01, 0x04, 0x00, 0x74, BitVec.ofNat 8 level.toNat, BitVec.ofNat 8 (120 + level.toNat), 0x00, 0x02] := by
  have hfield : lengthField (brightnessPayload level) = 4 := rfl
  have hbytes : byteSum (brightnessPayload level) = 0x74 + level.toNat := by
    have hlow : level.toNat % 256 = level.toNat := Nat.mod_eq_of_lt (by omega)
    simp [byteSum, brightnessPayload, lo_eq, hlow]
  have hsum : checksum 4 (brightnessPayload level) = BitVec.ofNat 16 (120 + level.toNat) := by
    rw [checksum, hbytes, ← Nat.add_assoc]
    rfl
  have hhigh : (120 + level.toNat) / 256 = 0 := Nat.div_eq_of_lt (by omega)
  rw [message_eq, hfield, hsum, lo_ofNat, hi_ofNat, hhigh, brightnessPayload, lo_eq level]
  rfl

/-- Settles O39: up to 100 the effect stores the message in its closed form; beyond it the failure drops `OUT`. -/
theorem msgBrightnessBytes : Obligations.MsgBrightnessBytes := by
  refine ⟨fun s hlevel => ?_, fun s hlevel => ?_⟩
  · have hguard : Guard s .msgBrightness := hlevel
    have hexec := exec_of_guard hguard
    have hstored : OutStored (message (brightnessPayload s.arg)) s (complete (effect s .msgBrightness)) :=
      (storeOut_message_stored (by simp [brightnessPayload]) s).of_same (complete_sameOut _)
    rw [message_brightnessPayload hlevel] at hstored
    exact ⟨_, hexec, complete_effect_succeeded (by decide) s, hstored, exec_operandMessage_frame (by decide) hexec⟩
  · have hraise : Raises s .msgBrightness .outOfRange 0 := ⟨rfl, rfl, hlevel⟩
    have hexec := exec_of_raises hraise
    exact ⟨_, hexec, failCommand_failed _ _ 0 s, failCommand_outDropped rfl _ 0 s,
      exec_operandMessage_frame (by decide) hexec⟩

/-! ### MSG_STATIC_IMAGE -/

theorem storeOut_sameFrame (m : List Byte) (s : State) : SameFrame s (storeOut m s) := ⟨rfl, frameByte_storeOut m s⟩

/-- The message lies over the bytes `OUT` held before the frame was built, which writes none of them (R241). -/
theorem complete_staticImage_outStored (s : State) :
    OutStored (message (staticImagePayload (frameRecord 0 (encodedGrid s)))) s (complete (effect s .msgStaticImage)) := by
  have hframe : (frameRecord 0 (encodedGrid s)).length ≤ 4360 := (grid_frame_bounds 0 s).2
  have hfits : (staticImagePayload (frameRecord 0 (encodedGrid s))).length < 65530 := by
    rw [staticImagePayload_length]; omega
  obtain ⟨outLen, out, outRest⟩ := (storeOut_message_stored hfits (storeBuilt (encodedGrid s)
    (frameRecord 0 (encodedGrid s)) s)).of_same (complete_sameOut _)
  exact ⟨outLen, out, fun j hj => (outRest j hj).trans (outByte_storeBuilt _ _ s j)⟩

/-- Outside palette, frame and message MSG_STATIC_IMAGE writes the status only (R241). -/
theorem exec_msgStaticImage_frame {s t : State} (h : exec .msgStaticImage s = .next t) :
    SameOperands s t ∧ t.pixRdata = s.pixRdata ∧ SameGrid s t ∧ SameIn s t ∧ SameSession s t ∧ SamePort s t := by
  have hreset : Instr.msgStaticImage ≠ .softReset := by decide
  obtain ⟨sameOperands, sameIn, samePort⟩ := commandsKeepHostOwnedState _ s t hreset h
  exact ⟨sameOperands, exec_pixRdata hreset h (by decide), exec_sameGrid hreset h (by decide), sameIn,
    exec_sameSession hreset h (by decide), samePort⟩

/-- Settles O40: within the cap the effect is a frame build with time code 0 followed by its message, 5 prefix and 6 envelope bytes
longer; beyond it the failure carries the full count and drops palette, frame and message. -/
theorem msgStaticImageStoresMessage : Obligations.MsgStaticImageStoresMessage := by
  refine ⟨fun s hcap => ?_, fun s hcap => ?_⟩
  · have hguard : Guard s .msgStaticImage := hcap
    have hexec := exec_of_guard hguard
    have hpalette : PaletteStored (encodedGrid s) s (complete (effect s .msgStaticImage)) :=
      ((storeBuilt_paletteStored _ s).of_same (storeOut_samePalette _ _)).of_same (complete_samePalette _)
    have hframe : FrameStored (frameRecord 0 (encodedGrid s)) s (complete (effect s .msgStaticImage)) :=
      ((storeBuilt_frameStored 0 s).of_same (storeOut_sameFrame _ _)).of_same (complete_sameFrame _)
    have hout := complete_staticImage_outStored s
    have hlen : (complete (effect s .msgStaticImage)).outLen.toNat =
        (complete (effect s .msgStaticImage)).frameLen.toNat + 11 := by
      rw [hout.outLen, hframe.frameLen, message_length, staticImagePayload_length]
    exact ⟨_, hexec, complete_effect_succeeded (by decide) s, hpalette, hframe, hout, hlen, exec_msgStaticImage_frame hexec⟩
  · have hraise : Raises s .msgStaticImage .paletteTooLarge (BitVec.ofNat 16 (encodedGrid s).palette.length) :=
      ⟨rfl, rfl, hcap⟩
    have hexec := exec_of_raises hraise
    have hfailed := failCommand_failed (some .msgStaticImage) .paletteTooLarge
      (BitVec.ofNat 16 (encodedGrid s).palette.length) s
    rw [encodedGrid, toNat_paletteInfo] at hfailed
    exact ⟨_, hexec, hfailed, failCommand_paletteDropped rfl _ s, failCommand_frameDropped rfl _ s,
      failCommand_outDropped rfl _ _ s, exec_msgStaticImage_frame hexec⟩

end Sys2Proof.Machine
end


section
/-! SUPPORT. Reset and SOFT_RESET: the reset value of every register, empty windows, and what the reset input does (R22, R55, R262, R300-R302). -/

namespace Sys2Proof.Machine

/-! ### Reset values -/

theorem readReg_reset (r : HostReg) : readReg State.reset r = 0 := by cases r <;> rfl

theorem pixel_of_empty {s : State} (h : s.pixmem = []) (a : Nat) : pixel s a = 0 := by
  simp [pixel, readCell, h, lookupCell, unlisted]

theorem palWindow_of_palLen_zero {s : State} (h : s.palLen = 0) (i : Nat) : palWindow s i = 0 := by simp [palWindow, h]

theorem idxWindow_of_palLen_zero {s : State} (h : s.palLen = 0) (t : Nat) : idxWindow s t = 0 := by simp [idxWindow, h]

theorem outWindow_of_outLen_zero {s : State} (h : s.outLen = 0) (j : Nat) : outWindow s j = 0 := by simp [outWindow, h]

theorem frameWindow_of_frameLen_zero {s : State} (h : s.frameLen = 0) (j : Nat) : frameWindow s j = 0 := by
  simp [frameWindow, h]

/-- Where each register reads as in the reset state, the lengths are 0 and so no window shows a byte behind them (R55). -/
theorem atReset_of_cleared {t : State} (hreg : ∀ r, readReg t r = readReg State.reset r) (hpal : t.palLen = 0)
    (hout : t.outLen = 0) (hframe : t.frameLen = 0) (hgrid : t.pixmem = []) (hpending : t.pending = none)
    (hrst : t.rst = false) : AtReset t where
  registers r := (hreg r).trans (readReg_reset r)
  grid := pixel_of_empty hgrid
  pal := palWindow_of_palLen_zero hpal
  idx := idxWindow_of_palLen_zero hpal
  out := outWindow_of_outLen_zero hout
  frame := frameWindow_of_frameLen_zero hframe
  pending := hpending
  rst := hrst

theorem atReset_reset : AtReset State.reset := atReset_of_cleared (fun _ => rfl) rfl rfl rfl rfl rfl rfl

/-- A release of `rst` leaves the reset state, whatever was there before (R55, R300). -/
theorem atReset_resetBlock (s : State) : AtReset (resetBlock false s) :=
  atReset_of_cleared (fun r => by cases r <;> rfl) rfl rfl rfl rfl rfl rfl

/-- Settles O21: the reset state is a fixed value. -/
theorem resetStateIsQuiet : Obligations.ResetStateIsQuiet :=
  ⟨atReset_reset, rfl, rfl, rfl, rfl, rfl, rfl, rfl, rfl, rfl, rfl, rfl, rfl⟩

/-! ### SOFT_RESET -/

/-- SOFT_RESET leaves each register but `STATUS` as the reset state has it (R262). -/
theorem readReg_softReset (s : State) {r : HostReg} (hr : r ≠ .status) :
    readReg (complete (softResetState s)) r = readReg State.reset r := by
  cases r with
  | status => exact absurd rfl hr
  | _ => rfl

/-- Of `STATUS` only `DONE` is left (R262). -/
theorem statusWord_softReset (s : State) : statusWord (complete (softResetState s)) = 2 := by
  simp [statusWord, flagBit, AnimState.code]

/-- Settles O23: the registers are the reset state's, the lengths among them, and the completion sets `DONE`. -/
theorem softResetRestoresRegisters : Obligations.SoftResetRestoresRegisters := fun s =>
  ⟨complete (softResetState s), rfl, fun r hr => (readReg_softReset s hr).trans (readReg_reset r), statusWord_softReset s, rfl,
    pixel_of_empty rfl, inByte_congr rfl rfl, palWindow_of_palLen_zero rfl, idxWindow_of_palLen_zero rfl,
    frameWindow_of_frameLen_zero rfl, outWindow_of_outLen_zero rfl, by constructor <;> rfl⟩

/-! ### The reset input -/

theorem step_of_reset {s : State} {level : Bool} {rest : List Turn} (ht : s.turns = .reset level :: rest) :
    step s = .next (driveReset level { s with turns := rest }) := by
  rw [step, takeTurn, ht]

/-- While `rst` is asserted either level of it resets the block. -/
theorem driveReset_of_rst {s : State} (hr : s.rst = true) (level : Bool) : driveReset level s = resetBlock level s := by
  simp [driveReset, hr]

/-- Releasing an asserted `rst` leaves the reset state and keeps what is not the block's to reset (R300). -/
theorem step_release {s : State} {rest : List Turn} (hr : s.rst = true) (ht : s.turns = .reset false :: rest) :
    ∃ u, step s = .next u ∧ AtReset u ∧ u.turns = rest ∧ u.config = s.config := by
  rw [step_of_reset ht, driveReset_of_rst (s := { s with turns := rest }) hr]
  exact ⟨_, rfl, atReset_resetBlock _, rfl, rfl⟩

theorem hostAccess_in_reset {s : State} (hr : s.rst = true) (a : Access) : hostAccess a s = .refused .accessInReset := by
  simp [hostAccess, hr]

theorem engineTurn_in_reset {s : State} (hr : s.rst = true) : engineTurn s = .next s := by
  simp [engineTurn, hr]

/-- Settles O19: the access and the engine both look at `rst` first. -/
theorem nothingRunsWhileResetIsAsserted : Obligations.NothingRunsWhileResetIsAsserted := by
  intro s hr
  refine ⟨fun a rest ht => ?_, fun ht => ?_, fun rest ht => ?_, fun rest ht => step_release hr ht⟩
  · rw [step, takeTurn, ht]; exact hostAccess_in_reset (s := { s with turns := rest }) hr a
  · rw [step_of_no_turns ht]; exact engineTurn_in_reset hr
  · rw [step_of_engine ht]; exact engineTurn_in_reset hr

/-- Settles O20: asserting `rst` resets the block at once, and its release is a release. -/
theorem resetAbandonsPendingCommand : Obligations.ResetAbandonsPendingCommand := by
  intro s rest ht
  obtain ⟨u, hstep, hreset, hturns, hconfig⟩ :=
    step_release (s := driveReset true { s with turns := .reset false :: rest }) (rest := rest) rfl rfl
  exact ⟨_, u, step_of_reset ht, rfl, hstep, hreset, hturns, hconfig⟩

end Sys2Proof.Machine
end


section
/-! SUPPORT. NOP, and what a command that fails leaves alone (R261, R273, R276, R277). -/

namespace Sys2Proof.Machine

/-! ### NOP -/

theorem complete_samePort (s : State) : SamePort s (complete s) := by constructor <;> rfl

theorem complete_sameData (s : State) : SameData s (complete s) :=
  (complete_keepsResults s).data (by constructor <;> rfl) rfl rfl

/-- Where the turn is the engine's, listed or not, the step is the engine's turn with the turns that are left. -/
theorem step_of_engine_next {s : State} {rest : List Turn} (ht : s.turns = .engine :: rest ∨ (s.turns = [] ∧ rest = [])) :
    step s = engineTurn { s with turns := rest } := by
  obtain ht | ⟨ht, rfl⟩ := ht
  · exact step_of_engine ht
  · rw [step_of_no_turns ht, ← ht]

/-- Acceptance clears the error, and NOP then only completes (R82, R261, R277). -/
theorem engineTurn_accept_nop {s : State} (hr : s.rst = false) :
    engineTurn (accept 0x00000000 s) = .next (complete (accept 0x00000000 s)) :=
  engineTurn_of_command (s := accept 0x00000000 s) hr rfl (show decodeWord 0x00000000 = .ok .nop by decide)

/-- Settles O22: the first step is the acceptance, the second the completion, and both write the status and the pending command only. -/
theorem nopOnlyCompletes : Obligations.NopOnlyCompletes := by
  refine ⟨fun s => ⟨complete s, rfl, complete_effect_succeeded (i := .nop) (by decide) s, complete_sameData s,
    complete_samePort s⟩, fun s rest hr hb ht => ?_⟩
  obtain ⟨ts, ht, hnext⟩ : ∃ ts, s.turns = .host ⟨32, 0x008, .write 0x00000000⟩ :: ts ∧
      (ts = .engine :: rest ∨ (ts = [] ∧ rest = [])) := by
    obtain ht | ⟨ht, rfl⟩ := ht
    · exact ⟨_, ht, .inl rfl⟩
    · exact ⟨_, ht, .inr ⟨rfl, rfl⟩⟩
  have haccept : step s = .next (accept 0x00000000 { s with turns := ts }) := step_write_idle hr hb (by decide) ht
  have hrun : step (accept 0x00000000 { s with turns := ts }) =
      .next (complete (accept 0x00000000 { s with turns := rest })) :=
    (step_of_engine_next hnext).trans (engineTurn_accept_nop (s := { s with turns := rest }) hr)
  have hkeeps := ((turns_keepsResults s rest).trans (accept_keepsResults 0x00000000 _)).trans (complete_keepsResults _)
  exact ⟨_, _, haccept, hrun, rfl, rfl, rfl, rfl, rfl, rfl, hkeeps.data (by constructor <;> rfl) rfl rfl,
    by constructor <;> rfl⟩

/-! ### Failed commands -/

/-- No effect raises an error, so a command that ends in one has failed (R83, R275). -/
theorem exec_failed {i : Instr} {s t : State} (hs : s.err = false) (h : exec i s = .next t) (ht : t.err = true) :
    ∃ e n, t = failCommand (some i) e n s := by
  obtain rfl | hfail := exec_next h
  · obtain ⟨herr, -⟩ := effect_status i s
    simp [herr, hs] at ht
  · exact hfail

/-- Settles O51: a failure writes the status and the lengths it drops, no memory (R275, R276). -/
theorem failedCommandsKeepMemories : Obligations.FailedCommandsKeepMemories := by
  intro i s t hs h ht
  obtain ⟨e, n, rfl⟩ := exec_failed hs h ht
  obtain ⟨hop, hin, -⟩ := failCommand_keepsHostOwned (some i) e n s
  exact ⟨hop, rfl, pixel_failCommand _ e n s, hin, palEntry_failCommand _ e n s, idxEntry_failCommand _ e n s,
    frameByte_failCommand _ e n s, outByte_failCommand _ e n s, animByte_failCommand _ e n s, rfl⟩

end Sys2Proof.Machine
end


section
/-! SUPPORT. Accesses while a command is pending, and the order of a write and the completion (R278, R279, R310, R311). -/

namespace Sys2Proof.Machine

/-! ### Accesses while busy -/

/-- Settles O7: the write is dropped before its offset is decoded. -/
theorem writeWhileBusyIsDropped : Obligations.WriteWhileBusyIsDropped :=
  fun _ _ _ _ hr hb ho ht => step_write_busy hr hb ho ht

theorem hostRead_busy_status (s : State) : hostRead (.reg .status) s = { s with rdata := statusWord s } :=
  if_neg fun h => h.2 rfl

theorem hostRead_busy_of_ne {s : State} {T : Target} (hb : s.busy = true) (hT : T ≠ .reg .status) :
    hostRead T s = { s with rdata := Config.busyRead s.draws, draws := s.draws + 1 } :=
  if_pos ⟨hb, hT⟩

/-- Settles O8: `STATUS` is the target of its own offset only. -/
theorem readWhileBusy : Obligations.ReadWhileBusy := by
  intro s o rest hr hb ho ht
  rw [step_read hr ho ht]
  by_cases h : o.toNat = 4
  · rw [if_pos h, target_eq_status.mpr h, hostRead_busy_status]; rfl
  · rw [if_neg h, hostRead_busy_of_ne (s := { s with turns := rest }) hb (mt target_eq_status.mp h)]

/-! ### No command looks at `OVERRUN` or at the turns to come -/

section
variable (s : State) (i : Instr) (o : Bool) (ts : List Turn)

theorem guard_of_port : Guard { s with overrun := o, turns := ts } i ↔ Guard s i := by
  cases i <;> exact Iff.rfl

theorem raises_of_port (e : CmdError) (n : BitVec 16) :
    Raises { s with overrun := o, turns := ts } i e n ↔ Raises s i e n := by
  cases i <;> exact Iff.rfl

variable {i}

theorem effect_of_port (hi : i ≠ .softReset) :
    effect { s with overrun := o, turns := ts } i = { effect s i with overrun := o, turns := ts } := by
  cases i with
  | softReset => exact absurd rfl hi
  | _ => rfl

end

/-- A command but SOFT_RESET answers the same whatever `OVERRUN` and the turns to come are, and carries them along (R278). -/
theorem exec_of_port {i : Instr} {s t : State} (hi : i ≠ .softReset) (h : exec i s = .next t) (o : Bool) (ts : List Turn) :
    exec i { s with overrun := o, turns := ts } = .next { t with overrun := o, turns := ts } := by
  rcases exec_cases i s with ⟨hguard, hexec⟩ | ⟨e, n, hraise, hexec⟩ <;> cases hexec.symm.trans h
  · rw [exec_of_guard ((guard_of_port s i o ts).mpr hguard), effect_of_port s o ts hi]; rfl
  · rw [exec_of_raises ((raises_of_port s i o ts e n).mpr hraise)]; rfl

section
variable {i : Instr} {s t : State} (hi : i ≠ .softReset) (h : exec i s = .next t)
include hi h

theorem exec_of_overrun (o : Bool) : exec i { s with overrun := o } = .next { t with overrun := o } := by
  obtain ⟨-, -, hport⟩ := commandsKeepHostOwnedState i s t hi h
  exact (exec_of_port hi h o s.turns).trans (by rw [← hport.turns])

theorem exec_of_turns (ts : List Turn) : exec i { s with turns := ts } = .next { t with turns := ts } := by
  obtain ⟨-, -, hport⟩ := commandsKeepHostOwnedState i s t hi h
  exact (exec_of_port hi h s.overrun ts).trans (by rw [← hport.overrun])

end

/-- Settles O53: `OVERRUN` is carried along by every command but SOFT_RESET, which clears it. -/
theorem droppedWriteDoesNotDisturbCommand : Obligations.DroppedWriteDoesNotDisturbCommand := by
  intro i s t h
  by_cases hi : i = .softReset
  · subst hi
    rw [if_pos rfl, ← h]; rfl
  · rw [if_neg hi]
    exact exec_of_overrun hi h true

/-! ### A write and a completion -/

/-- An idle write of `ARG` is performed (R33, R67). -/
theorem step_write_arg {s : State} {v : Word} {rest : List Turn} (hr : s.rst = false) (hb : s.busy = false)
    (ht : s.turns = .host ⟨32, 0x00C, .write v⟩ :: rest) :
    step s = .next { s with turns := rest, arg := v.extractLsb' 0 16 } :=
  step_write_idle hr hb (by decide) ht

/-- However a command ends, the block is idle after it (R83, R275). -/
theorem exec_busy {i : Instr} {s t : State} (h : exec i s = .next t) : t.busy = false := by
  obtain rfl | ⟨e, n, rfl⟩ := exec_next h <;> rfl

/-- The engine's turn with a command's word pending is the command's execution. -/
theorem step_of_engine_command {s : State} {i : Instr} {rest : List Turn} (hr : s.rst = false)
    (hp : s.pending = some (encode i)) (ht : s.turns = .engine :: rest) : step s = exec i { s with turns := rest } :=
  (step_of_engine ht).trans
    (engineTurn_of_command (s := { s with turns := rest }) hr hp (decodeWord_eq_ok_iff_eq_encode.mpr rfl))

/-- Settles O54: the write before the completion is dropped with `OVERRUN`, which the command carries along; a write still to come is carried
along too, and finds the block idle. -/
theorem writeAndCompletionInEitherOrder : Obligations.WriteAndCompletionInEitherOrder := by
  intro s t i v hr hb hp hi h
  obtain ⟨-, -, hport⟩ := commandsKeepHostOwnedState i _ t hi h
  have hturns : t.turns = [] := hport.turns
  have hidle : t.busy = false := exec_busy h
  refine ⟨fun ht => ?_, fun ht => ?_⟩
  · have hwrite := step_write_busy hr hb (by decide) ht
    have hrun := step_of_engine_command (s := { s with turns := [.engine], overrun := true }) hr hp rfl
    exact ⟨_, _, hwrite, hrun.trans (exec_of_overrun hi h true), rfl⟩
  · have hrun := (step_of_engine_command hr hp ht).trans (exec_of_turns hi h _)
    have hwrite := step_write_arg (s := { t with turns := [.host ⟨32, 0x00C, .write v⟩] }) (hport.rst.trans hr) hidle rfl
    exact ⟨_, _, hrun, hwrite, by rw [← hturns]⟩

end Sys2Proof.Machine
end
